-- ==== Sys2Proof/Word.lean ====
section
/-! DEFINITION. The block's word sizes (00_scope R7, R9; 20_memory R73): names only. Arithmetic on them is
`BitVec`'s, modulo two to the width, as R9 asks. -/

namespace Sys2Proof

/-- A 32-bit register or memory word. -/
abbrev Word := BitVec 32

/-- One byte of system memory. -/
abbrev Byte := BitVec 8

/-- The word held in one slot of the instruction memory (20_memory R73). -/
abbrev SlotWord := BitVec 16

/-- An instruction memory slot index, and SEQ's program counter (00_scope R7). -/
abbrev SlotIdx := BitVec 5

/-- A byte offset in the 1 KiB register window (20_memory R70). -/
abbrev RegOffset := BitVec 10

end Sys2Proof
end

