-- ==== Sys2Proof/Syntax.lean ====
section
/-! DEFINITION. The instructions of spec/opcode_table.json, one constructor a row, and the accesses by which the host
reaches the block (30_encoding R111; 10_state R31). -/

namespace Sys2Proof

/-- A buffer id: two buffers exist (00_scope R7). -/
inductive BufId where
  | zero
  | one
  deriving DecidableEq, Repr

/-- The side-set field of a SEQ instruction (30_encoding R103): `lr` is bit 12, `bclk` is bit 11. -/
structure Side where
  lr   : Bool
  bclk : Bool
  deriving DecidableEq, Repr

/-- One constructor per row of the opcode table. The first four are SEQ words (30_encoding R104); the others are the
host operations of 30_encoding R111. Every field has the width the encoding gives it. -/
inductive Instr where
  | jmp (side : Side) (delay : BitVec 3) (addr : SlotIdx)
  | jmpXdec (side : Side) (delay : BitVec 3) (addr : SlotIdx)
  | outPins (side : Side) (delay : BitVec 3)
  | setX (side : Side) (delay : BitVec 3) (imm : BitVec 5)
  | start (buf : BufId)
  | readNext (buf : BufId)
  | isDone
  | wait
  | nextSample
  | construct (shape : BitVec 2) (rep : Bool)
  | claim
  deriving DecidableEq, Repr

/-- The width of a host access. Registers take `word` only (10_state R31); memory takes narrower ones (20_memory R71). That a
host makes no access wider than 4 bytes is DESIGN CHOICE, log 27: R31 faults every other width and names none. -/
inductive Width where
  | byte
  | half
  | word
  deriving DecidableEq, Repr, Inhabited

/-- A host access to the register window, at a byte offset from BLOCK_BASE (10_state R31). -/
inductive RegAccess where
  | read (width : Width) (offset : RegOffset)
  | write (width : Width) (offset : RegOffset) (value : Word)
  deriving DecidableEq, Repr, Inhabited

/-- A host access: to a register, or to a system address (20_memory R70). -/
inductive Access where
  | reg (access : RegAccess)
  | memRead (width : Width) (addr : Word)
  | memWrite (width : Width) (addr : Word) (value : Word)
  deriving DecidableEq, Repr, Inhabited

/-- The registers of 10_state R31. -/
inductive Reg where
  | seqCtrl
  | seqClaim
  | seqClkDiv
  | seqCfg
  | seqPins
  | seqPc
  | imemWin (slot : SlotIdx)
  | xfLen
  | xfBufAddr (buf : BufId)
  | xfBufLen (buf : BufId)
  | xfCmd
  | xfStatus
  | xfWait
  | wvCtrl
  | wvFreq
  | wvRate
  | wvPhase
  | wvSample
  | wvStatus
  deriving DecidableEq, Repr

/-- The register reads that are no operation of the opcode table: each returns a value and changes nothing else. -/
inductive PlainRead where
  | seqCtrl
  | seqClkDiv
  | seqCfg
  | seqPins
  | seqPc
  | xfLen
  | xfBufAddr (buf : BufId)
  | xfBufLen (buf : BufId)
  | wvCtrl
  | wvFreq
  | wvRate
  | wvPhase
  | wvStatus
  | writeOnly                    -- IMEM_WIN[i] and XF_CMD, which read as 0
  deriving DecidableEq, Repr

/-- The register writes that are no operation of the opcode table. -/
inductive PlainWrite where
  | seqCtrl
  | seqClkDiv
  | seqCfg
  | seqPins
  | imemWin (slot : SlotIdx)
  | xfLen
  | xfBufAddr (buf : BufId)
  | xfBufLen (buf : BufId)
  | wvCtrl                       -- bit 3 of the value is 0
  | wvFreq
  | wvRate
  | readOnly                     -- a register that ignores writes
  deriving DecidableEq, Repr

/-- What a register access asks for: an operation of the opcode table, or a plain read or write. -/
inductive HostAction where
  | op (instr : Instr)
  | readReg (reg : PlainRead)
  | writeReg (reg : PlainWrite) (value : Word)
  deriving DecidableEq, Repr

/-- An instruction as the hardware holds it (30_encoding, "Two encoding spaces exist"): a word in an IMEM slot, or a
register access. -/
inductive Code where
  | slot (word : SlotWord)
  | reg (access : RegAccess)
  deriving DecidableEq, Repr

end Sys2Proof
end

