-- ==== Sys2Proof/Decode.lean ====
section
/-! DEFINITION. Decoding and encoding (30_encoding): the SEQ words of an IMEM slot, the register accesses of the host,
and the numbering of spec/opcode_table.json. Every decoder is total and rejects by name. -/

namespace Sys2Proof

/-- Why a word or an access is no instruction. The first four are ILLEGAL_INSTR (30_encoding R107), the next three
BAD_ACCESS (10_state R31), the next two BAD_COMMAND (30_encoding R110); the last names a legal register access that is
no row of the opcode table. -/
inductive Reject where
  | opcode
  | jmpCondition
  | outForm
  | setDestination
  | accessWidth
  | accessAlignment
  | unlistedOffset
  | commandOp
  | commandReserved
  | plainAccess
  deriving DecidableEq, Repr

/-! ### SEQ words -/

/-- The major opcode OPC (30_encoding R100). -/
def SlotWord.opc (w : SlotWord) : BitVec 3 := w.extractLsb' 13 3

/-- The side-set field SIDE (30_encoding R103). -/
def SlotWord.side (w : SlotWord) : Side := ⟨w.getLsbD 12, w.getLsbD 11⟩

/-- The delay field DELAY. -/
def SlotWord.delay (w : SlotWord) : BitVec 3 := w.extractLsb' 8 3

/-- The condition or destination SEL. -/
def SlotWord.sel (w : SlotWord) : BitVec 3 := w.extractLsb' 5 3

/-- The address, bit count or immediate ARG. -/
def SlotWord.arg (w : SlotWord) : BitVec 5 := w.extractLsb' 0 5

/-- The decoder of 30_encoding R104: four admitted forms, every other word rejected by the field that is wrong. -/
def decodeSlot (w : SlotWord) : Except Reject Instr :=
  if SlotWord.opc w = 0b000#3 then
    if SlotWord.sel w = 0b000#3 then .ok (.jmp (SlotWord.side w) (SlotWord.delay w) (SlotWord.arg w))
    else if SlotWord.sel w = 0b010#3 then .ok (.jmpXdec (SlotWord.side w) (SlotWord.delay w) (SlotWord.arg w))
    else .error .jmpCondition
  else if SlotWord.opc w = 0b011#3 then
    if SlotWord.sel w = 0b000#3 ∧ SlotWord.arg w = 0b00001#5 then
      .ok (.outPins (SlotWord.side w) (SlotWord.delay w))
    else .error .outForm
  else if SlotWord.opc w = 0b111#3 then
    if SlotWord.sel w = 0b001#3 then .ok (.setX (SlotWord.side w) (SlotWord.delay w) (SlotWord.arg w))
    else .error .setDestination
  else .error .opcode

/-! ### Registers and commands -/

/-- The buffer id held in one bit. -/
def BufId.ofBit (b : Bool) : BufId := if b then .one else .zero

/-- The bit that names a buffer. -/
def BufId.toBit : BufId → Bool
  | .zero => false
  | .one => true

/-- The register at an aligned offset (10_state R31). -/
def Reg.ofOffset (o : RegOffset) : Option Reg :=
  if o = 0x000#10 then some .seqCtrl
  else if o = 0x004#10 then some .seqClaim
  else if o = 0x008#10 then some .seqClkDiv
  else if o = 0x00C#10 then some .seqCfg
  else if o = 0x010#10 then some .seqPins
  else if o = 0x014#10 then some .seqPc
  else if o.extractLsb' 7 3 = 0b001#3 then some (.imemWin (o.extractLsb' 2 5))
  else if o = 0x100#10 then some .xfLen
  else if o = 0x104#10 then some (.xfBufAddr .zero)
  else if o = 0x108#10 then some (.xfBufLen .zero)
  else if o = 0x10C#10 then some (.xfBufAddr .one)
  else if o = 0x110#10 then some (.xfBufLen .one)
  else if o = 0x114#10 then some .xfCmd
  else if o = 0x118#10 then some .xfStatus
  else if o = 0x11C#10 then some .xfWait
  else if o = 0x200#10 then some .wvCtrl
  else if o = 0x204#10 then some .wvFreq
  else if o = 0x208#10 then some .wvRate
  else if o = 0x20C#10 then some .wvPhase
  else if o = 0x210#10 then some .wvSample
  else if o = 0x214#10 then some .wvStatus
  else none

/-- The offset of a register (10_state R31). -/
def Reg.offset : Reg → RegOffset
  | .seqCtrl => 0x000#10
  | .seqClaim => 0x004#10
  | .seqClkDiv => 0x008#10
  | .seqCfg => 0x00C#10
  | .seqPins => 0x010#10
  | .seqPc => 0x014#10
  | .imemWin i => (0b001#3 ++ i ++ 0b00#2 : BitVec (3 + 5 + 2))
  | .xfLen => 0x100#10
  | .xfBufAddr .zero => 0x104#10
  | .xfBufLen .zero => 0x108#10
  | .xfBufAddr .one => 0x10C#10
  | .xfBufLen .one => 0x110#10
  | .xfCmd => 0x114#10
  | .xfStatus => 0x118#10
  | .xfWait => 0x11C#10
  | .wvCtrl => 0x200#10
  | .wvFreq => 0x204#10
  | .wvRate => 0x208#10
  | .wvPhase => 0x20C#10
  | .wvSample => 0x210#10
  | .wvStatus => 0x214#10

/-- The register an access reaches, or why it is a BAD_ACCESS: 32 bits wide, aligned, listed (10_state R31). -/
def decodeOffset (width : Width) (o : RegOffset) : Except Reject Reg :=
  if width ≠ .word then .error .accessWidth
  else if o.extractLsb' 0 2 ≠ 0b00#2 then .error .accessAlignment
  else match Reg.ofOffset o with
    | some r => .ok r
    | none => .error .unlistedOffset

/-- The XF_CMD command word (30_encoding R110). -/
def decodeCommand (v : Word) : Except Reject Instr :=
  if v.extractLsb' 1 27 ≠ 0#27 then .error .commandReserved
  else if v.extractLsb' 28 4 = 0x1#4 then .ok (.start (BufId.ofBit (v.getLsbD 0)))
  else if v.extractLsb' 28 4 = 0x2#4 then .ok (.readNext (BufId.ofBit (v.getLsbD 0)))
  else .error .commandOp

/-- What a read of a listed register asks for (30_encoding R111; 10_state R31). -/
def decodeRead : Reg → HostAction
  | .seqCtrl => .readReg .seqCtrl
  | .seqClaim => .op .claim
  | .seqClkDiv => .readReg .seqClkDiv
  | .seqCfg => .readReg .seqCfg
  | .seqPins => .readReg .seqPins
  | .seqPc => .readReg .seqPc
  | .imemWin _ => .readReg .writeOnly
  | .xfLen => .readReg .xfLen
  | .xfBufAddr b => .readReg (.xfBufAddr b)
  | .xfBufLen b => .readReg (.xfBufLen b)
  | .xfCmd => .readReg .writeOnly
  | .xfStatus => .op .isDone
  | .xfWait => .op .wait
  | .wvCtrl => .readReg .wvCtrl
  | .wvFreq => .readReg .wvFreq
  | .wvRate => .readReg .wvRate
  | .wvPhase => .readReg .wvPhase
  | .wvSample => .op .nextSample
  | .wvStatus => .readReg .wvStatus

/-- What a write of `v` to a listed register asks for (30_encoding R111; 10_state R31). A WV_CTRL value with bit 3 set
is CONSTRUCT whatever its reserved bits 31:4 hold (41_waveform R131, 10_state R31; DEDUCED, log 14). A write to a
read-only register is ignored: stated for SEQ_CLAIM, XF_WAIT and WV_SAMPLE, DEDUCED for the others (log 9). -/
def decodeWrite (v : Word) : Reg → Except Reject HostAction
  | .seqCtrl => .ok (.writeReg .seqCtrl v)
  | .seqClaim => .ok (.writeReg .readOnly v)
  | .seqClkDiv => .ok (.writeReg .seqClkDiv v)
  | .seqCfg => .ok (.writeReg .seqCfg v)
  | .seqPins => .ok (.writeReg .seqPins v)
  | .seqPc => .ok (.writeReg .readOnly v)
  | .imemWin i => .ok (.writeReg (.imemWin i) v)
  | .xfLen => .ok (.writeReg .xfLen v)
  | .xfBufAddr b => .ok (.writeReg (.xfBufAddr b) v)
  | .xfBufLen b => .ok (.writeReg (.xfBufLen b) v)
  | .xfCmd => (decodeCommand v).map .op
  | .xfStatus => .ok (.writeReg .readOnly v)
  | .xfWait => .ok (.writeReg .readOnly v)
  | .wvCtrl =>
    if v.getLsbD 3 then .ok (.op (.construct (v.extractLsb' 0 2) (v.getLsbD 2))) else .ok (.writeReg .wvCtrl v)
  | .wvFreq => .ok (.writeReg .wvFreq v)
  | .wvRate => .ok (.writeReg .wvRate v)
  | .wvPhase => .ok (.writeReg .readOnly v)
  | .wvSample => .ok (.writeReg .readOnly v)
  | .wvStatus => .ok (.writeReg .readOnly v)

/-- What a register access asks for. The BAD_ACCESS checks come before any register's own (60_exceptions R306). -/
def decodeRegAccess : RegAccess → Except Reject HostAction
  | .read width o => (decodeOffset width o).map decodeRead
  | .write width o v => (decodeOffset width o).bind (decodeWrite v)

/-- A SEQ instruction, held in an IMEM slot; the other rows of the table are host operations (30_encoding R111). -/
def Instr.isSeq : Instr → Bool
  | .jmp _ _ _ | .jmpXdec _ _ _ | .outPins _ _ | .setX _ _ _ => true
  | .start _ | .readNext _ | .isDone | .wait | .nextSample | .construct _ _ | .claim => false

/-- The instruction that a piece of code is: the decoder of the whole opcode table. -/
def decode : Code → Except Reject Instr
  | .slot w => decodeSlot w
  | .reg a =>
    match decodeRegAccess a with
    | .ok (.op i) => .ok i
    | .ok (.readReg _) => .error .plainAccess
    | .ok (.writeReg _ _) => .error .plainAccess
    | .error e => .error e

/-! ### The encoder -/

/-- Lays the fields of 30_encoding R100 side by side. -/
def packSlot (opc : BitVec 3) (side : Side) (delay sel : BitVec 3) (arg : BitVec 5) : SlotWord :=
  (opc ++ BitVec.ofBool side.lr ++ BitVec.ofBool side.bclk ++ delay ++ sel ++ arg : BitVec (3 + 1 + 1 + 3 + 3 + 5))

/-- The command word of 30_encoding R110. -/
def packCommand (op : BitVec 4) (b : BufId) : Word :=
  (op ++ 0#27 ++ BitVec.ofBool b.toBit : BitVec (4 + 27 + 1))

/-- The value written to WV_CTRL by CONSTRUCT (10_state R48), its reserved bits 0. -/
def packConstruct (shape : BitVec 2) (rep : Bool) : Word :=
  (0#28 ++ 1#1 ++ BitVec.ofBool rep ++ shape : BitVec (28 + 1 + 1 + 2))

/-- The code of an instruction, from the encoding tables of 30_encoding (R104, R110, R111). -/
def encode : Instr → Code
  | .jmp side d a => .slot (packSlot 0b000#3 side d 0b000#3 a)
  | .jmpXdec side d a => .slot (packSlot 0b000#3 side d 0b010#3 a)
  | .outPins side d => .slot (packSlot 0b011#3 side d 0b000#3 0b00001#5)
  | .setX side d imm => .slot (packSlot 0b111#3 side d 0b001#3 imm)
  | .start b => .reg (.write .word Reg.xfCmd.offset (packCommand 0x1#4 b))
  | .readNext b => .reg (.write .word Reg.xfCmd.offset (packCommand 0x2#4 b))
  | .isDone => .reg (.read .word Reg.xfStatus.offset)
  | .wait => .reg (.read .word Reg.xfWait.offset)
  | .nextSample => .reg (.read .word Reg.wvSample.offset)
  | .construct shape rep => .reg (.write .word Reg.wvCtrl.offset (packConstruct shape rep))
  | .claim => .reg (.read .word Reg.seqClaim.offset)

/-! ### The opcode table's numbering -/

/-- An instruction's mnemonic in spec/opcode_table.json. -/
def Instr.mnemonic : Instr → String
  | .jmp _ _ _ => "JMP"
  | .jmpXdec _ _ _ => "JMP_XDEC"
  | .outPins _ _ => "OUT_PINS"
  | .setX _ _ _ => "SET_X"
  | .start _ => "START"
  | .readNext _ => "READ_NEXT"
  | .isDone => "IS_DONE"
  | .wait => "WAIT"
  | .nextSample => "NEXT_SAMPLE"
  | .construct _ _ => "CONSTRUCT"
  | .claim => "CLAIM"

/-- One row of 30_encoding R104. -/
structure SlotRow where
  mnemonic : String
  mask     : SlotWord
  pattern  : SlotWord
  deriving DecidableEq, Repr

/-- The admission table of 30_encoding R104. -/
def slotRows : List SlotRow :=
  [⟨"JMP", 0xE0E0#16, 0x0000#16⟩, ⟨"JMP_XDEC", 0xE0E0#16, 0x0040#16⟩,
   ⟨"OUT_PINS", 0xE0FF#16, 0x6001#16⟩, ⟨"SET_X", 0xE0E0#16, 0xE020#16⟩]

/-- A word matches a row when its masked bits are the row's. -/
def SlotRow.admits (r : SlotRow) (w : SlotWord) : Bool := decide (w &&& r.mask = r.pattern)

/-- The register access that a 32-bit table row's word stands for (DESIGN CHOICE, log 15): the rows IS_DONE, WAIT, NEXT_SAMPLE and CLAIM
give the offset that is read, the row CONSTRUCT the value written to WV_CTRL, and START and READ_NEXT the word written to
XF_CMD, as does every word of no row. -/
def tableAccess (w : Word) : RegAccess :=
  if w = 0x118#32 ∨ w = 0x11C#32 ∨ w = 0x210#32 ∨ w = 0x004#32 then .read .word (w.setWidth 10)
  else if w &&& 0xFFFFFFF8#32 = 0x00000008#32 then .write .word Reg.wvCtrl.offset w
  else .write .word Reg.xfCmd.offset w

/-- The code that `nbits` bits `w`, numbered as spec/opcode_table.json numbers them, stand for: a row of 16 bits is a
slot's word, a wider one a register access. -/
def tableCode (nbits w : Nat) : Code :=
  if nbits ≤ 16 then .slot (BitVec.ofNat 16 w) else .reg (tableAccess (BitVec.ofNat 32 w))

/-- The instruction the decoder reads from a word of the opcode table. -/
def decodeTableWord (nbits w : Nat) : Option Instr :=
  match decode (tableCode nbits w) with
  | .ok i => some i
  | .error _ => none

/-- The table's own word for an instruction, with the number of bits its row gives. -/
def tableWord : Instr → Nat × Nat
  | .jmp side d a => (16, (packSlot 0b000#3 side d 0b000#3 a).toNat)
  | .jmpXdec side d a => (16, (packSlot 0b000#3 side d 0b010#3 a).toNat)
  | .outPins side d => (16, (packSlot 0b011#3 side d 0b000#3 0b00001#5).toNat)
  | .setX side d imm => (16, (packSlot 0b111#3 side d 0b001#3 imm).toNat)
  | .start b => (32, (packCommand 0x1#4 b).toNat)
  | .readNext b => (32, (packCommand 0x2#4 b).toNat)
  | .isDone => (32, 0x118)
  | .wait => (32, 0x11C)
  | .nextSample => (32, 0x210)
  | .construct shape rep => (32, (packConstruct shape rep).toNat)
  | .claim => (32, 0x004)

end Sys2Proof
end

