-- ==== Sys2Proof/Config.lean ====
section
/-! DEFINITION. What the spec leaves open (00_scope R7 and R8; 92_eei_decisions, "Open parameters, collected").
The finite parameters are plain data, held in `State.params`, so that every statement over all states covers every
value of them; the free functions are constants with no body. -/

namespace Sys2Proof.Config

/-- LATE_SUBMIT (43_transfer_engine R227): what XFER does with a buffer submitted after the previous transfer ended. -/
inductive LateSubmit where
  | resume
  | strand
  deriving DecidableEq, Repr

/-- SINE_PHASE_OVERFLOW (41_waveform R139): what the Sine phase counter does at 2^32 - 1. -/
inductive SineOverflow where
  | wrap
  | fault
  deriving DecidableEq, Repr

/-- The OPEN parameters of one block. No step changes them. -/
structure Params where
  qDepth       : Nat          -- QDEPTH, the capacity of Q (10_state R40)
  blockBase    : Word         -- BLOCK_BASE, the register window's system address (10_state R31)
  lateSubmit   : LateSubmit
  sineOverflow : SineOverflow
  deriving DecidableEq, Repr

/-- DESIGN CHOICE (log 5): the parameters of `State.reset`. QDEPTH is the spec's reference value; the spec gives no
value for the other three, and no statement may rest on these. -/
def Params.reference : Params where
  qDepth := 4
  blockBase := 0x40000000#32
  lateSubmit := .resume
  sineOverflow := .fault

/-- Who takes the next step (10_state R20; DESIGN CHOICE, log 2, log 3): the three agents of the untimed reading, one system clock
cycle of the timed reading (42_sequencer R160; DESIGN CHOICE, log 17), and power-on reset from outside (70_reset R340; DEDUCED, log 19). -/
inductive Turn where
  | seq
  | xfer
  | host
  | clock
  | reset
  deriving DecidableEq, Repr, Inhabited

/-- FREE VALUE (log 2). The schedule past the turns that the state fixes: nothing constrains it (93 I8). -/
opaque freeTurn : Nat → Turn

/-- FREE VALUE (log 4). The accesses of a host that is an arbitrary environment (44_control_loop R269), one after the
other: nothing constrains them. -/
opaque freeAccess : Nat → Access

/-- FREE VALUE (log 8). The unconstrained part of COS_F32 (41_waveform R137), a function of r and RATE. -/
opaque cosRaw : Word → Word → Word

end Sys2Proof.Config
end

