-- ==== Sys2Proof/Machine/State.lean ====
section
/-! DEFINITION. Everything the spec gives the machine (10_state), as plain data, and its value right after reset
(10_state R57). The last four fields of `State` are the model's own: the OPEN parameters, the schedule, and the counter
of free turns, and `host` is the host agent's remaining program (DESIGN CHOICE, log 2, log 5 and log 4). -/

namespace Sys2Proof.Machine

open Sys2Proof

/-- The twelve fault codes of 60_exceptions R300, in its order. -/
inductive FaultCode where
  | cfgDivisor
  | cfgSampleRate
  | cfgBuflen
  | cfgNoUnit
  | cfgParam
  | illegalInstr
  | hostProtocol
  | bufPlacement
  | badAccess
  | badCommand
  | phaseOverflow
  | unwrittenImem
  deriving DecidableEq, Repr

/-- How a run ends (60_exceptions R302; DEDUCED, log 1). -/
inductive Fault where
  /-- Raised by `step` alone, from a state whose FAULT is `code` and whose turn is not reset: the fault is terminal and
  no agent takes a step. Safe: the spec ends the run here too. -/
  | recorded (code : FaultCode)
  deriving DecidableEq, Repr

/-- Why a step has no meaning. -/
inductive Refusal where
  /-- Raised by an arm of `exec` that has no meaning yet; no arm of this model does. Safe. -/
  | notModelled (mnemonic : String)
  /-- Raised by NEXT_SAMPLE when READY = 1 and SHAPE = 3 or RATE = 0: 41_waveform R131 refuses to construct such a
  producer, so the spec defines no sample and no run reaches it (DEDUCED, log 16). Safe. -/
  | producerOutsideDomain
  deriving DecidableEq, Repr

/-- The sequencer (10_state R21 to R29, R32 to R36). Reserved register bits are not held: they read as 0. `cycleLen` is the
length that 42_sequencer R160 decides at the start of a sequencer cycle, which no register of the spec keeps (DESIGN CHOICE,
log 26). -/
structure SeqState where
  pc         : SlotIdx
  x          : Word
  osr        : Word
  osc        : BitVec 6
  dly        : BitVec 3
  data       : Bool
  bclk       : Bool
  lrclk      : Bool
  imem       : Vector (Option SlotWord) 32     -- none: unwritten
  divCnt     : BitVec 16
  fracAcc    : BitVec 8
  cycleLen   : Nat                             -- the length of the sequencer cycle in progress (log 26)
  en         : Bool
  claimed    : Bool
  clkInt     : BitVec 16                       -- SEQ_CLKDIV.INT
  clkFrac    : BitVec 8                        -- SEQ_CLKDIV.FRAC
  wrapBottom : SlotIdx
  wrapTop    : SlotIdx
  entry      : SlotIdx
  thresh     : BitVec 6
  dataPin    : BitVec 5
  bclkPin    : BitVec 5
  lrclkPin   : BitVec 5
  deriving DecidableEq, Repr

/-- One buffer's descriptor (10_state R43) and its count of words moved (10_state R41). -/
structure Buffer where
  addr  : Word     -- XF_BUFADDRb
  len   : Word     -- XF_BUFLENb, in words
  moved : Nat      -- MOVED[b]
  deriving DecidableEq, Repr

/-- The transfer engine (10_state R41 to R43). -/
structure XferState where
  sub      : List BufId     -- SUB, in submission order
  buf0     : Buffer
  buf1     : Buffer
  stranded : Bool
  len      : Word           -- XF_LEN
  deriving DecidableEq, Repr

/-- The waveform generator (10_state R47). -/
structure WaveState where
  shape : BitVec 2
  rep   : Bool
  freq  : Word
  rate  : Word
  phase : Word
  ready : Bool
  deriving DecidableEq, Repr

/-- What the host's program does next (DESIGN CHOICE, log 4; DEDUCED, log 24). `access` is an access of the host's own choice; the others are
the macros of 30_encoding R112, the reference loop of 44_control_loop R264, and the arbitrary host of R269. -/
inductive HostItem where
  /-- One register or memory access. -/
  | access (a : Access)
  /-- CONFIGURE(SYS_HZ, SR, BD, CPB): 42_sequencer R161. -/
  | configure (sysHz sr bd cpb : Nat)
  /-- FILL(b, first, stride, count): 41_waveform R145. -/
  | fill (b : BufId) (first stride count : Nat)
  /-- The Refilling half of the loop: WAIT, FILL(b, 0, 2, n), READ_NEXT b. -/
  | refill (n : Nat)
  /-- The loop of R264 for buffers of n frames: poll XF_STATUS until DONE, refill, and again. -/
  | loop (n : Nat)
  /-- An arbitrary environment (44_control_loop, opening; R269) that has made `n` accesses: each next one is free. -/
  | environment (n : Nat)
  deriving DecidableEq, Repr

/-- The one host agent (DESIGN CHOICE, log 22): its remaining program and the word its last completed read returned. -/
structure HostState where
  prog   : List HostItem
  result : Word
  deriving DecidableEq, Repr

/-- System memory: the bytes that are not what an unlisted address reads as, by rising address (`Memory.wf`). -/
abbrev Memory := List Host.Cell

/-- The whole state of the block, its memory and its host. -/
structure State where
  seq    : SeqState
  queue  : List Word               -- Q, head first (10_state R40)
  xfer   : XferState
  wave   : WaveState
  mem    : Memory                  -- system memory (10_state R54)
  fault  : Option FaultCode        -- FAULT (10_state R55)
  host   : HostState
  params : Config.Params
  turns  : List Config.Turn        -- the turns already fixed, next first
  draws  : Nat                     -- how many turns were drawn from `Config.freeTurn`
  deriving DecidableEq, Repr

/-- What a step or a meaning answers. -/
abbrev Result := Host.Outcome State Fault Refusal

/-- SEQ right after reset (10_state R57). -/
def SeqState.reset : SeqState where
  pc := 0
  x := 0
  osr := 0
  osc := 32
  dly := 0
  data := false
  bclk := false
  lrclk := false
  imem := Vector.replicate 32 none
  divCnt := 0
  fracAcc := 0
  cycleLen := 0                                -- DESIGN CHOICE (log 26): the model's own field
  en := false
  claimed := false
  clkInt := 1
  clkFrac := 0
  wrapBottom := 0
  wrapTop := 31
  entry := 0
  thresh := 32
  dataPin := 0
  bclkPin := 0
  lrclkPin := 0

/-- XFER right after reset (10_state R57). -/
def XferState.reset : XferState where
  sub := []
  buf0 := ⟨0, 0, 0⟩
  buf1 := ⟨0, 0, 0⟩
  stranded := false
  len := 0

/-- WAVE right after reset (10_state R57). -/
def WaveState.reset : WaveState where
  shape := 0
  rep := false
  freq := 0
  rate := 0
  phase := 0
  ready := false

/-- The block right after power-on reset, for any parameters, launch memory (10_state R54, 70_reset R341), host and
schedule. -/
def State.launch (params : Config.Params) (mem : Memory) (host : HostState) (turns : List Config.Turn) (draws : Nat) :
    State where
  seq := SeqState.reset
  queue := []
  xfer := XferState.reset
  wave := WaveState.reset
  mem := mem
  fault := none
  host := host
  params := params
  turns := turns
  draws := draws

/-- The machine right after reset (10_state R57, 70_reset R340), with nothing listed in memory (DESIGN CHOICE, log 6),
the reference parameters (DESIGN CHOICE, log 5), no host program and no turn fixed (DESIGN CHOICE, log 2 and log 4). -/
def State.reset : State := State.launch Config.Params.reference [] ⟨[], 0⟩ [] 0

end Sys2Proof.Machine
end

