-- ==== Sys2Proof/Machine/Ops.lean ====
section
/-! DEFINITION. The named operations over memory and registers: system memory (20_memory R70, R71), ownership
(10_state R50), raising a fault (60_exceptions R301), the end of a SEQ instruction (42_sequencer R166) and of a host
access, the schedule, and power-on reset (70_reset R340). The block has no return from a fault (60_exceptions R307). -/

namespace Sys2Proof.Machine

/-! ### System memory -/

/-- DESIGN CHOICE (log 6): what a byte that nothing has written reads as. -/
def Memory.unlisted : Byte := 0x00#8

/-- The byte at an address. -/
def Memory.read : Memory → Nat → Byte
  | [], _ => Memory.unlisted
  | (b, v) :: rest, a => if a = b then v else Memory.read rest a

/-- Writes one byte, keeping the canonical form. -/
def Memory.write : Memory → Nat → Byte → Memory
  | [], a, v => if v = Memory.unlisted then [] else [(a, v)]
  | (b, w) :: rest, a, v =>
    if a < b then if v = Memory.unlisted then (b, w) :: rest else (a, v) :: (b, w) :: rest
    else if a = b then if v = Memory.unlisted then rest else (a, v) :: rest
    else (b, w) :: Memory.write rest a v

/-- The canonical form from address `lo` on: rising addresses below 2^32, and no byte that reads as unlisted. -/
def Memory.wfFrom : Nat → Memory → Bool
  | _, [] => true
  | lo, (a, v) :: rest => decide (lo ≤ a) && decide (a < 2 ^ 32) && decide (v ≠ Memory.unlisted) && Memory.wfFrom (a + 1) rest

/-- The canonical form of system memory. -/
def Memory.wf (m : Memory) : Bool := Memory.wfFrom 0 m

/-- How many bytes an access of a width takes. -/
def Width.bytes : Width → Nat
  | .byte => 1
  | .half => 2
  | .word => 4

/-- The byte `k` above an address; addresses are modulo 2^32 (DESIGN CHOICE, log 12). -/
def addrAt (a : Word) (k : Nat) : Nat := (a + BitVec.ofNat 32 k).toNat

/-- A little-endian read, zero extended (00_scope R11, 20_memory R71). `load m .word` is MemRead(addr, 4). -/
def Memory.load (m : Memory) (width : Width) (a : Word) : Word :=
  match width with
  | .byte => (Memory.read m (addrAt a 0)).setWidth 32
  | .half => (Memory.read m (addrAt a 1) ++ Memory.read m (addrAt a 0) : BitVec (8 + 8)).setWidth 32
  | .word =>
    (Memory.read m (addrAt a 3) ++ Memory.read m (addrAt a 2) ++ Memory.read m (addrAt a 1) ++ Memory.read m (addrAt a 0) :
      BitVec (8 + 8 + 8 + 8))

/-- Stores the low `n` bytes of `v`, byte `k` at `a + k`. -/
def Memory.storeBytes (m : Memory) (a v : Word) : Nat → Memory
  | 0 => m
  | k + 1 => Memory.write (Memory.storeBytes m a v k) (addrAt a k) (v.extractLsb' (8 * k) 8)

/-- A little-endian write (00_scope R11). `store m .word` is MemWrite(addr, 4, v). -/
def Memory.store (m : Memory) (width : Width) (a v : Word) : Memory := Memory.storeBytes m a v (Width.bytes width)

/-! ### Buffers and ownership -/

/-- The other of the two buffers. -/
def BufId.other : BufId → BufId
  | .zero => .one
  | .one => .zero

/-- A buffer's descriptor and word count. -/
def XferState.buf (x : XferState) : BufId → Buffer
  | .zero => x.buf0
  | .one => x.buf1

/-- Replaces a buffer's descriptor and word count. -/
def XferState.setBuf (x : XferState) (b : BufId) (v : Buffer) : XferState :=
  match b with
  | .zero => { x with buf0 := v }
  | .one => { x with buf1 := v }

/-- `own[b] = ENG` (10_state R50): XFER owns a buffer exactly while it is in SUB. -/
def XferState.owns (x : XferState) (b : BufId) : Bool := decide (b ∈ x.sub)

/-- The byte lies in `[BUFADDRb, BUFADDRb + 4 * BUFLENb)` (10_state R54). -/
def Buffer.holds (b : Buffer) (a : Nat) : Bool := decide (b.addr.toNat ≤ a ∧ a < b.addr.toNat + 4 * b.len.toNat)

/-- A byte of a buffer that XFER owns (20_memory R78, point 2). -/
def XferState.guards (x : XferState) (a : Nat) : Bool :=
  (x.owns .zero && Buffer.holds x.buf0 a) || (x.owns .one && Buffer.holds x.buf1 a)

/-! ### Faults and stalls -/

/-- FAULT <- c, if FAULT = none, and nothing else (60_exceptions R301). -/
def State.raise (c : FaultCode) (s : State) : State :=
  match s.fault with
  | none => { s with fault := some c }
  | some _ => s

/-- `raise Fault(c)`: the block's one exception, taken as a next state (DEDUCED, log 1). -/
def raise (c : FaultCode) (s : State) : Result := .next (s.raise c)

/-- `stall` and `block_host`: nothing is written and the same step is tried again (00_scope R12). -/
def stall (s : State) : Result := .next s

/-- The fault that a rejected word or access raises (60_exceptions R300). `plainAccess` is no rejection of the
hardware's: a plain access is never decoded as an instruction, and the code stands only to keep the map total. -/
def Reject.code : Reject → FaultCode
  | .opcode => .illegalInstr
  | .jmpCondition => .illegalInstr
  | .outForm => .illegalInstr
  | .setDestination => .illegalInstr
  | .accessWidth => .badAccess
  | .accessAlignment => .badAccess
  | .unlistedOffset => .badAccess
  | .commandOp => .badCommand
  | .commandReserved => .badCommand
  | .plainAccess => .badAccess

/-! ### The end of an instruction -/

/-- COMPLETE(side_lr, side_bclk, d, p') (42_sequencer R166). PC takes the successor here and keeps it through the delay cycles:
of the two slots that 10_state R21 names it always holds that of the instruction executed next (DEDUCED, log 28). -/
def State.complete (side : Side) (delay : BitVec 3) (pc : SlotIdx) (s : State) : State :=
  { s with seq := { s.seq with lrclk := side.lr, bclk := side.bclk, dly := delay, pc := pc } }

/-- What stands in the host's program where an item stood, once the item's access has completed and returned `v`
(30_encoding R112, 44_control_loop R264). -/
def State.hostAfter (s : State) (v : Word) : HostItem → List HostItem
  | .access _ => []
  | .configure _ _ _ _ => []
  | .fill _ _ _ 0 => []
  | .fill b first stride (n + 1) =>
    [.access (.memWrite .word ((s.xfer.buf b).addr + BitVec.ofNat 32 (4 * first)) v), .fill b (first + stride) stride n]
  | .refill n =>
    [.fill (BufId.ofBit (v.getLsbD 0)) 0 2 n,
     .access (.reg (.write .word Reg.xfCmd.offset (packCommand 0x2#4 (BufId.ofBit (v.getLsbD 0)))))]
  | .loop n => if v.getLsbD 0 then [.refill n, .loop n] else [.loop n]
  | .environment n => [.environment (n + 1)]

/-- The host's program after its next item's access has completed and returned `v`. -/
def State.hostRest (s : State) (v : Word) : List HostItem :=
  match s.host.prog with
  | [] => []
  | item :: rest => s.hostAfter v item ++ rest

/-- A host read completes: the host receives `v` and moves past the access (DEDUCED, log 25). -/
def State.completeRead (v : Word) (s : State) : State := { s with host := ⟨s.hostRest v, v⟩ }

/-- A host write completes: the host moves past the access. -/
def State.completeWrite (s : State) : State := { s with host := ⟨s.hostRest s.host.result, s.host.result⟩ }

/-! ### The schedule and reset -/

/-- Whose turn it is: the next of the fixed turns, else a free one (DESIGN CHOICE, log 2). -/
def State.turn (s : State) : Config.Turn :=
  match s.turns with
  | t :: _ => t
  | [] => Config.freeTurn s.draws

/-- The state with its next turn taken off the schedule. -/
def State.tick (s : State) : State :=
  match s.turns with
  | _ :: ts => { s with turns := ts }
  | [] => { s with draws := s.draws + 1 }

/-- Power-on reset (70_reset R340): all block state takes its reset value and system memory is unchanged (R341). The
host's program, the schedule and the parameters are no block state (DEDUCED, log 19). -/
def State.powerOnReset (s : State) : State := State.launch s.params s.mem s.host s.turns s.draws

end Sys2Proof.Machine
end

