-- ==== Sys2Proof/Machine/Flags.lean ====
section
/-! DEFINITION. The block's status flags: XF_STATUS (10_state R45) and WV_STATUS (10_state R53). Nothing stores them;
each is a function of the state. The block has no condition codes (00_scope R14). -/

namespace Sys2Proof.Machine

/-- The active buffer (10_state R41): the first in SUB with words left to move; none at all while STRANDED. -/
def XferState.active (x : XferState) : Option BufId :=
  if x.stranded then none else x.sub.find? (fun b => decide ((x.buf b).moved < x.len.toNat))

/-- All words of a buffer have been moved. -/
def XferState.finished (x : XferState) (b : BufId) : Bool := decide ((x.buf b).moved = x.len.toNat)

/-- DONE, which is IS_DONE (43_transfer_engine R224). -/
def XferState.done (x : XferState) : Bool :=
  match x.sub with
  | [] => false
  | a :: _ => x.finished a

/-- ACTIVE. -/
def XferState.isActive (x : XferState) : Bool := x.active.isSome

/-- NEXT_QUEUED. -/
def XferState.nextQueued (x : XferState) : Bool := decide (x.sub.length = 2)

/-- HANDLE. -/
def XferState.handle (x : XferState) : Bool := decide (1 ≤ x.sub.length)

/-- HEAD. -/
def XferState.head (x : XferState) : Bool :=
  match x.sub with
  | [] => false
  | a :: _ => a.toBit

/-- XF_STATUS as read (10_state R45). -/
def XferState.statusWord (x : XferState) : Word :=
  (0#24 ++ BitVec.ofBool x.stranded ++ BitVec.ofBool (x.owns .one) ++ BitVec.ofBool (x.owns .zero) ++ BitVec.ofBool x.head ++
    BitVec.ofBool x.handle ++ BitVec.ofBool x.nextQueued ++ BitVec.ofBool x.isActive ++ BitVec.ofBool x.done :
    BitVec (24 + 1 + 1 + 1 + 1 + 1 + 1 + 1 + 1))

/-- WV_STATUS as read (10_state R53). -/
def WaveState.statusWord (w : WaveState) : Word := (0#31 ++ BitVec.ofBool w.ready : BitVec (31 + 1))

end Sys2Proof.Machine
end

