-- ==== Sys2Proof/Machine/Operands.lean ====
section
/-! DEFINITION. Operand forms: SEQ's targets and immediates (30_encoding R106), the sequential successor of a slot
(42_sequencer R165), and the layouts of the readable registers (10_state R32 to R37, R48). -/

namespace Sys2Proof.Machine

/-- `next_pc(p)` (42_sequencer R165). `p + 1` is modulo 32. -/
def SeqState.nextPc (q : SeqState) (p : SlotIdx) : SlotIdx := if p = q.wrapTop then q.wrapBottom else p + 1

/-- The immediate of SET_X: `zext_32(imm)` (30_encoding R106). -/
def immValue (imm : BitVec 5) : Word := imm.setWidth 32

/-- The instruction memory's slot (10_state R27). -/
def SeqState.slot (q : SeqState) (i : SlotIdx) : Option SlotWord := q.imem[i.toNat]

/-- Writes a slot and marks it written (10_state R38). -/
def SeqState.setSlot (q : SeqState) (i : SlotIdx) (w : SlotWord) : SeqState := { q with imem := q.imem.set i.toNat (some w) }

/-! ### Register layouts -/

/-- SEQ_CTRL as read (10_state R32): EN in bit 0, CLAIMED in bit 2; RESTART reads 0. -/
def SeqState.ctrlWord (q : SeqState) : Word :=
  (0#29 ++ BitVec.ofBool q.claimed ++ 0#1 ++ BitVec.ofBool q.en : BitVec (29 + 1 + 1 + 1))

/-- SEQ_CLKDIV as read (10_state R34). -/
def SeqState.clkDivWord (q : SeqState) : Word := (q.clkInt ++ q.clkFrac ++ 0#8 : BitVec (16 + 8 + 8))

/-- SEQ_CFG as read (10_state R35). -/
def SeqState.cfgWord (q : SeqState) : Word :=
  (0#2 ++ q.thresh ++ 0#3 ++ q.entry ++ 0#3 ++ q.wrapTop ++ 0#3 ++ q.wrapBottom : BitVec (2 + 6 + 3 + 5 + 3 + 5 + 3 + 5))

/-- SEQ_PINS as read (10_state R36). -/
def SeqState.pinsWord (q : SeqState) : Word :=
  (0#11 ++ q.lrclkPin ++ 0#3 ++ q.bclkPin ++ 0#3 ++ q.dataPin : BitVec (11 + 5 + 3 + 5 + 3 + 5))

/-- SEQ_PC as read (10_state R37). -/
def SeqState.pcWord (q : SeqState) : Word :=
  (0#21 ++ BitVec.ofBool q.lrclk ++ BitVec.ofBool q.bclk ++ BitVec.ofBool q.data ++ 0#3 ++ q.pc :
    BitVec (21 + 1 + 1 + 1 + 3 + 5))

/-- WV_CTRL as read (10_state R48): CONSTRUCT reads 0. -/
def WaveState.ctrlWord (w : WaveState) : Word :=
  (0#29 ++ BitVec.ofBool w.rep ++ w.shape : BitVec (29 + 1 + 2))

/-- A write of SEQ_CLKDIV (10_state R34). -/
def SeqState.withClkDiv (q : SeqState) (v : Word) : SeqState :=
  { q with clkInt := v.extractLsb' 16 16, clkFrac := v.extractLsb' 8 8 }

/-- A write of SEQ_CFG (10_state R35). -/
def SeqState.withCfg (q : SeqState) (v : Word) : SeqState :=
  { q with wrapBottom := v.extractLsb' 0 5, wrapTop := v.extractLsb' 8 5, entry := v.extractLsb' 16 5,
           thresh := v.extractLsb' 24 6 }

/-- A write of SEQ_PINS (10_state R36). -/
def SeqState.withPins (q : SeqState) (v : Word) : SeqState :=
  { q with dataPin := v.extractLsb' 0 5, bclkPin := v.extractLsb' 8 5, lrclkPin := v.extractLsb' 16 5 }

/-- SEQ_CTRL.RESTART (10_state R32, 70_reset R343). -/
def SeqState.restart (q : SeqState) : SeqState :=
  { q with pc := q.entry, x := 0, osr := 0, osc := 32, dly := 0, divCnt := 0, fracAcc := 0 }

end Sys2Proof.Machine
end

