-- ==== Sys2Proof/Machine/Registers.lean ====
section
/-! DEFINITION. CLAIM (10_state R33), and the register reads and writes that are no operation of the opcode table
(10_state R32 to R39, R42, R43, R48 to R53). -/

namespace Sys2Proof.Machine

/-- CLAIM (10_state R33): the one unit is acquired once. -/
def execClaim (s : State) : Result :=
  if s.seq.claimed then raise .cfgNoUnit s
  else .next ({ s with seq := { s.seq with claimed := true } }.completeRead 1)

/-- The value of a register whose read has no side effect. -/
def State.regValue (s : State) : PlainRead → Word
  | .seqCtrl => s.seq.ctrlWord
  | .seqClkDiv => s.seq.clkDivWord
  | .seqCfg => s.seq.cfgWord
  | .seqPins => s.seq.pinsWord
  | .seqPc => s.seq.pcWord
  | .xfLen => s.xfer.len
  | .xfBufAddr b => (s.xfer.buf b).addr
  | .xfBufLen b => (s.xfer.buf b).len
  | .wvCtrl => s.wave.ctrlWord
  | .wvFreq => s.wave.freq
  | .wvRate => s.wave.rate
  | .wvPhase => s.wave.phase
  | .wvStatus => s.wave.statusWord
  | .writeOnly => 0

/-- A plain register read. -/
def readReg (r : PlainRead) (s : State) : Result := .next (s.completeRead (s.regValue r))

/-- The check of a write that sets EN from 0 to 1 (10_state R32): claim, divisor, threshold, in that order. -/
def SeqState.enableCheck (q : SeqState) : Option FaultCode :=
  if q.claimed = false then some .hostProtocol
  else if q.clkInt = 0 then some .cfgDivisor
  else if q.thresh.toNat < 1 ∨ 32 < q.thresh.toNat then some .cfgParam
  else none

/-- A write of SEQ_CTRL (10_state R32): RESTART is applied before EN. Stopping SEQ takes effect at once, since its cycles
are whole steps (DEDUCED, log 23). -/
def writeSeqCtrl (v : Word) (s : State) : Result :=
  if s.seq.en ∧ v.getLsbD 1 then raise .hostProtocol s
  else match (if s.seq.en = false ∧ v.getLsbD 0 then s.seq.enableCheck else none) with
    | some c => raise c s
    | none =>
      let q := if v.getLsbD 1 then s.seq.restart else s.seq
      .next ({ s with seq := { q with en := v.getLsbD 0 } }.completeWrite)

/-- A write of a SEQ configuration register or an IMEM slot, allowed while EN = 0 only (10_state R39). -/
def writeSeqConfig (q : SeqState) (s : State) : Result :=
  if s.seq.en then raise .hostProtocol s else .next ({ s with seq := q }.completeWrite)

/-- A write of a register of buffer b, allowed while the host owns b only (10_state R43). -/
def writeBuffer (b : BufId) (v : Buffer) (s : State) : Result :=
  if s.xfer.owns b then raise .hostProtocol s
  else .next ({ s with xfer := s.xfer.setBuf b v }.completeWrite)

/-- A write of a WAVE configuration register, allowed before construction only (10_state R48, R49). -/
def writeWaveConfig (w : WaveState) (s : State) : Result :=
  if s.wave.ready then raise .hostProtocol s else .next ({ s with wave := w }.completeWrite)

/-- A plain register write. -/
def writeReg (r : PlainWrite) (v : Word) (s : State) : Result :=
  match r with
  | .seqCtrl => writeSeqCtrl v s
  | .seqClkDiv => writeSeqConfig (s.seq.withClkDiv v) s
  | .seqCfg => writeSeqConfig (s.seq.withCfg v) s
  | .seqPins => writeSeqConfig (s.seq.withPins v) s
  | .imemWin i => writeSeqConfig (s.seq.setSlot i (v.extractLsb' 0 16)) s
  | .xfLen =>
    if s.xfer.sub ≠ [] then raise .hostProtocol s
    else .next ({ s with xfer := { s.xfer with len := v } }.completeWrite)
  | .xfBufAddr b => writeBuffer b { s.xfer.buf b with addr := v } s
  | .xfBufLen b => writeBuffer b { s.xfer.buf b with len := v } s
  | .wvCtrl => writeWaveConfig { s.wave with shape := v.extractLsb' 0 2, rep := v.getLsbD 2 } s
  | .wvFreq => writeWaveConfig { s.wave with freq := v } s
  | .wvRate => writeWaveConfig { s.wave with rate := v } s
  | .readOnly => .next s.completeWrite

end Sys2Proof.Machine
end

