-- ==== Sys2Proof/Machine/Sequencer.lean ====
section
/-! DEFINITION. The four SEQ instructions (42_sequencer R167 to R171). -/

namespace Sys2Proof.Machine

/-- JMP (42_sequencer R167). -/
def execJmp (side : Side) (delay : BitVec 3) (addr : SlotIdx) (s : State) : Result :=
  .next (s.complete side delay addr)

/-- JMP_XDEC (42_sequencer R168): the test reads X before the decrement. -/
def execJmpXdec (side : Side) (delay : BitVec 3) (addr : SlotIdx) (s : State) : Result :=
  let target := if s.seq.x ≠ 0 then addr else s.seq.nextPc s.seq.pc
  .next ({ s with seq := { s.seq with x := s.seq.x - 1 } }.complete side delay target)

/-- The word in the shift register after step 2 of 42_sequencer R169, with its shift count and what is left of Q; none
when a pull is due and Q is empty. -/
def State.autopull (s : State) : Option (Word × BitVec 6 × List Word) :=
  if s.seq.thresh ≤ s.seq.osc then
    match s.queue with
    | [] => none
    | w :: rest => some (w, 0, rest)
  else some (s.seq.osr, s.seq.osc, s.queue)

/-- OUT_PINS (42_sequencer R169): autopull, then one bit out, MSB first. With a pull due and Q empty it stalls and writes
nothing (R171). -/
def execOutPins (side : Side) (delay : BitVec 3) (s : State) : Result :=
  match s.autopull with
  | none => stall s
  | some (osr, osc, queue) =>
    .next ({ s with
      queue := queue
      seq := { s.seq with data := osr.getLsbD 31, osr := osr <<< 1, osc := osc + 1 } }.complete side delay
        (s.seq.nextPc s.seq.pc))

/-- SET_X (42_sequencer R170). -/
def execSetX (side : Side) (delay : BitVec 3) (imm : BitVec 5) (s : State) : Result :=
  .next ({ s with seq := { s.seq with x := immValue imm } }.complete side delay (s.seq.nextPc s.seq.pc))

end Sys2Proof.Machine
end

