-- ==== Sys2Proof/Machine/Transfer.lean ====
section
/-! DEFINITION. XFER: START, READ_NEXT, IS_DONE, WAIT and the word move (43_transfer_engine R222 to R229). -/

namespace Sys2Proof.Machine

/-- The byte ranges `[a, a + m)` and `[b, b + n)` intersect, for m and n above 0. -/
def rangesMeet (a m b n : Nat) : Bool := decide (a < b + n ∧ b < a + m)

/-- SUBMIT_CHECK(b) (43_transfer_engine R223): the first check that fails. The sums are exact. -/
def XferState.submitCheck (x : XferState) (b : BufId) : Option FaultCode :=
  let mine := x.buf b
  let theirs := x.buf (BufId.other b)
  if x.len = 0 then some .cfgBuflen
  else if mine.len ≠ x.len then some .cfgBuflen
  else if mine.addr.extractLsb' 0 2 ≠ 0#2 then some .bufPlacement
  else if mine.addr.toNat + 4 * x.len.toNat > 2 ^ 32 then some .bufPlacement
  else if theirs.len ≠ 0 ∧ rangesMeet mine.addr.toNat (4 * x.len.toNat) theirs.addr.toNat (4 * theirs.len.toNat) then
    some .bufPlacement
  else none

/-- MOVED[b] <- 0 and b joins SUB at its end. -/
def XferState.submit (x : XferState) (b : BufId) : XferState :=
  { x.setBuf b { x.buf b with moved := 0 } with sub := x.sub ++ [b] }

/-- START b (43_transfer_engine R222). -/
def execStart (b : BufId) (s : State) : Result :=
  if s.xfer.sub ≠ [] then raise .hostProtocol s
  else match s.xfer.submitCheck b with
    | some c => raise c s
    | none => .next ({ s with xfer := s.xfer.submit b }.completeWrite)

/-- READ_NEXT b (43_transfer_engine R225); a late submission under STRAND strands the engine (R227). -/
def execReadNext (b : BufId) (s : State) : Result :=
  match s.xfer.sub with
  | [a] =>
    if a = b then raise .hostProtocol s
    else match s.xfer.submitCheck b with
      | some c => raise c s
      | none =>
        let late := s.xfer.finished a && decide (s.params.lateSubmit = .strand)
        .next ({ s with xfer := { s.xfer.submit b with stranded := s.xfer.stranded || late } }.completeWrite)
  | _ => raise .hostProtocol s

/-- IS_DONE (43_transfer_engine R224): a read of XF_STATUS, whose bit 0 is the result (DEDUCED, log 11). -/
def execIsDone (s : State) : Result := .next (s.completeRead s.xfer.statusWord)

/-- The word that a completed WAIT returns (10_state R46): VALID in bit 31 and the buffer id in bit 0. -/
def waitWord (b : BufId) : Word := (1#1 ++ 0#30 ++ BitVec.ofBool b.toBit : BitVec (1 + 30 + 1))

/-- WAIT (43_transfer_engine R226): it blocks until the head's transfer has completed, then reclaims the head. -/
def execWait (s : State) : Result :=
  match s.xfer.sub with
  | [] => raise .hostProtocol s
  | h :: rest =>
    if s.xfer.finished h then .next ({ s with xfer := { s.xfer with sub := rest } }.completeRead (waitWord h))
    else stall s

/-- The address of the next word of a buffer: `XF_BUFADDRb + 4 * MOVED[b]`. -/
def Buffer.nextAddr (b : Buffer) : Word := b.addr + BitVec.ofNat 32 (4 * b.moved)

/-- The XFER step (43_transfer_engine R229). With no active buffer, or no room in Q, XFER has no step and its turn
changes nothing (DESIGN CHOICE, log 3). -/
def xferTurn (s : State) : Result :=
  match s.xfer.active with
  | none => .next s
  | some b =>
    if s.queue.length < s.params.qDepth then
      .next { s with
        queue := s.queue ++ [Memory.load s.mem .word (s.xfer.buf b).nextAddr]
        xfer := s.xfer.setBuf b { s.xfer.buf b with moved := (s.xfer.buf b).moved + 1 } }
    else .next s

end Sys2Proof.Machine
end

