-- ==== Sys2Proof/Machine/Float.lean ====
section
/-! DEFINITION. binary32 (00_scope R13; the format is PRESUMED IEEE 754's, log 20) on exact rationals, and COS_F32
(41_waveform R137). -/

namespace Sys2Proof.Machine

/-- The natural number nearest to `num / den`, ties to even. -/
def roundNearestEven (num den : Nat) : Nat :=
  let q := num / den
  let r := num % den
  if den < 2 * r ∨ (den = 2 * r ∧ q % 2 = 1) then q + 1 else q

/-- The biased exponent, less one and not below 0, of the binary32 values next to `num / den`: units of 2^-149 are
counted, of which a value with 24 significant bits has at least 2^23. -/
def f32Exponent (num den : Nat) : Nat := Nat.log2 (num * 2 ^ 149 / den) - 23

/-- `bits_f32(round_f32(±num / den))` (00_scope R13). A zero is +0.0. A significand that rounds up to 2^24 carries into the
exponent field by itself; a magnitude past the largest binary32 becomes infinity, which no rule of the spec reaches. -/
def roundF32 (neg : Bool) (num den : Nat) : Word :=
  if num = 0 then 0
  else
    let e := f32Exponent num den
    let magnitude := e * 2 ^ 23 + roundNearestEven (num * 2 ^ 149) (den * 2 ^ e)
    (BitVec.ofBool neg ++ BitVec.ofNat 31 (min magnitude 0x7F800000) : BitVec (1 + 31))

/-- The magnitude of a finite binary32 value in units of 2^-149. -/
def f32Units (c : Word) : Nat :=
  let e := (c.extractLsb' 23 8).toNat
  let f := (c.extractLsb' 0 23).toNat
  if e = 0 then f else (2 ^ 23 + f) * 2 ^ (e - 1)

/-- +1.0, -1.0 and +0.0. -/
def f32One : Word := 0x3F800000#32
def f32NegOne : Word := 0xBF800000#32
def f32Zero : Word := 0x00000000#32

/-- The value is finite and lies in [-1, 1]: its encoding less the sign is at most that of 1.0. -/
def inUnitRange (c : Word) : Bool := decide ((c.extractLsb' 0 31).toNat ≤ 0x3F800000)

/-- Any word, kept if it encodes a value in [-1, 1] and +0.0 otherwise: the range of a free draw of COS_F32. -/
def toUnitRange (c : Word) : Word := if inUnitRange c then c else f32Zero

/-- COS_F32(r, RATE) (41_waveform R137; DESIGN CHOICE, log 8). P2, P3 and P4 fix the quarter points; elsewhere it is a free value in
[-1, 1] (P1) of the pair {r, RATE - r} (P5). Every function with P1 to P5 is one of these. -/
def cosF32 (r rate : Word) : Word :=
  if r = 0 then f32One
  else if 2 * r.toNat = rate.toNat then f32NegOne
  else if 4 * r.toNat = rate.toNat ∨ 4 * r.toNat = 3 * rate.toNat then f32Zero
  else toUnitRange (Config.cosRaw (if r.toNat ≤ (rate - r).toNat then r else rate - r) rate)

end Sys2Proof.Machine
end

