-- ==== Sys2Proof/Machine/Wave.lean ====
section
/-! DEFINITION. WAVE: CONSTRUCT and NEXT_SAMPLE (41_waveform R131 to R140). -/

namespace Sys2Proof.Machine

/-- CONSTRUCT (41_waveform R131). The checks come in the rule's order, and a fault leaves SHAPE and REP unchanged too. -/
def execConstruct (shape : BitVec 2) (rep : Bool) (s : State) : Result :=
  if s.wave.ready then raise .hostProtocol s
  else if s.wave.rate = 0 then raise .cfgSampleRate s
  else if shape = 3 then raise .cfgParam s
  else .next ({ s with wave := { s.wave with shape := shape, rep := rep, phase := 0, ready := true } }.completeWrite)

/-- `r = (PHASE * FREQ) mod RATE`, exact (41_waveform R133). -/
def WaveState.ratio (w : WaveState) : Nat := (w.phase.toNat * w.freq.toNat) % w.rate.toNat

/-- Sawtooth, float (41_waveform R134): `bits_f32(round_f32(2r/RATE - 1))`. -/
def sawtoothFloat (r rate : Nat) : Word :=
  if 2 * r < rate then roundF32 true (rate - 2 * r) rate else roundF32 false (2 * r - rate) rate

/-- Sawtooth, fixed point (41_waveform R135). -/
def sawtoothFixed (r rate : Nat) : Word := BitVec.ofNat 32 (r * (2 ^ 32 - 1) / rate)

/-- Square (41_waveform R136). -/
def squareSample (rep : Bool) (r rate : Nat) : Word :=
  match rep, decide (2 * r < rate) with
  | false, true => f32One
  | false, false => f32NegOne
  | true, true => 0xFFFFFFFF#32
  | true, false => 0x00000000#32

/-- `floor(((c + 1) / 2) * (2^32 - 1))` on the exact value of a binary32 `c` in [-1, 1] (41_waveform R138). -/
def sineFixed (c : Word) : Word :=
  let units := if c.getLsbD 31 then 2 ^ 149 - f32Units c else 2 ^ 149 + f32Units c
  BitVec.ofNat 32 (units * (2 ^ 32 - 1) / 2 ^ 150)

/-- Sine (41_waveform R138). -/
def sineSample (rep : Bool) (r rate : Word) : Word := if rep then sineFixed (cosF32 r rate) else cosF32 r rate

/-- SHAPE_REP(SHAPE, REP, r, RATE) (41_waveform R134 to R138); none for the reserved shape. -/
def WaveState.sample (w : WaveState) : Option Word :=
  if w.shape = 0 then some (sineSample w.rep (BitVec.ofNat 32 w.ratio) w.rate)
  else if w.shape = 1 then
    some (if w.rep then sawtoothFixed w.ratio w.rate.toNat else sawtoothFloat w.ratio w.rate.toNat)
  else if w.shape = 2 then some (squareSample w.rep w.ratio w.rate.toNat)
  else none

/-- ADVANCE(SHAPE, PHASE) (41_waveform R139); none where SINE_PHASE_OVERFLOW = FAULT faults. -/
def WaveState.nextPhase (w : WaveState) (o : Config.SineOverflow) : Option Word :=
  if w.shape = 0 then
    if w.phase.toNat < 2 ^ 32 - 1 then some (w.phase + 1)
    else match o with
      | .wrap => some 0
      | .fault => none
  else if w.phase + 1 = w.rate then some 0
  else some (w.phase + 1)

/-- NEXT_SAMPLE (41_waveform R132). A constructed producer with RATE = 0 or the reserved shape is one that CONSTRUCT
refuses to build (DEDUCED, log 16). -/
def execNextSample (s : State) : Result :=
  if s.wave.ready = false then raise .hostProtocol s
  else if s.wave.rate = 0 then .refused .producerOutsideDomain
  else match s.wave.sample with
    | none => .refused .producerOutsideDomain
    | some v =>
      match s.wave.nextPhase s.params.sineOverflow with
      | none => raise .phaseOverflow s
      | some p => .next ({ s with wave := { s.wave with phase := p } }.completeRead v)

end Sys2Proof.Machine
end

