-- ==== Sys2Proof/Machine/Dispatch.lean ====
section
/-! DEFINITION. The meaning of every instruction, one arm a constructor. -/

namespace Sys2Proof.Machine

def exec (i : Instr) (s : State) : Host.Outcome State Fault Refusal :=
  match i with
  -- SEQ (42_sequencer)
  | .jmp side delay addr => Sys2Proof.Machine.execJmp side delay addr s
  | .jmpXdec side delay addr => Sys2Proof.Machine.execJmpXdec side delay addr s
  | .outPins side delay => Sys2Proof.Machine.execOutPins side delay s
  | .setX side delay imm => Sys2Proof.Machine.execSetX side delay imm s
  -- XFER (43_transfer_engine)
  | .start buf => Sys2Proof.Machine.execStart buf s
  | .readNext buf => Sys2Proof.Machine.execReadNext buf s
  | .isDone => Sys2Proof.Machine.execIsDone s
  | .wait => Sys2Proof.Machine.execWait s
  -- WAVE (41_waveform)
  | .nextSample => Sys2Proof.Machine.execNextSample s
  | .construct shape rep => Sys2Proof.Machine.execConstruct shape rep s
  -- the claim (10_state R33)
  | .claim => Sys2Proof.Machine.execClaim s

end Sys2Proof.Machine
end

