-- ==== Sys2Proof/Machine/Fetch.lean ====
section
/-! DEFINITION. SEQ's sequencer cycle (42_sequencer R163, R164) and the clock generator of the timed reading (R160). -/

namespace Sys2Proof.Machine

/-- SEQ_STEP (42_sequencer R164): a delay cycle, or fetch, decode and execute. The faults of a fetch are raised in the
cycle that would start the instruction (60_exceptions R303). -/
def seqCycle (s : State) : Result :=
  if s.seq.dly ≠ 0 then .next { s with seq := { s.seq with dly := s.seq.dly - 1 } }
  else match s.seq.slot s.seq.pc with
    | none => raise .unwrittenImem s
    | some w =>
      match decodeSlot w with
      | .error e => raise (Reject.code e) s
      | .ok i => exec i s

/-- SEQ's turn (42_sequencer R163): with EN = 0 it has no step. -/
def seqTurn (s : State) : Result := if s.seq.en then seqCycle s else .next s

/-! ### The timed reading (DESIGN CHOICE, log 17) -/

/-- `FRACACC <- FRACACC + FRAC`, reduced by 256 (42_sequencer R160). -/
def SeqState.addFrac (q : SeqState) : SeqState := { q with fracAcc := q.fracAcc + q.clkFrac }

/-- How many system cycles a sequencer cycle lasts that starts now: INT, and one more when FRACACC + FRAC reaches 256. -/
def SeqState.cycleLength (q : SeqState) : Nat :=
  q.clkInt.toNat + (if 256 ≤ q.fracAcc.toNat + q.clkFrac.toNat then 1 else 0)

/-- A sequencer cycle starts: its length is decided (42_sequencer R160) and kept, so that a divisor rewritten before its end
(EN = 0, SEQ_CLKDIV written, EN = 1) applies from the next cycle on (DESIGN CHOICE, log 26). -/
def SeqState.startCycle (q : SeqState) : SeqState := { q.addFrac with cycleLen := q.cycleLength }

/-- Counts one system cycle in DIVCNT, from which the next sequencer cycle starts at 0. -/
def SeqState.countCycle (q : SeqState) : SeqState :=
  { q with divCnt := if q.divCnt.toNat + 1 < q.cycleLen then q.divCnt + 1 else 0 }

/-- One system clock cycle. The sequencer's step falls in the first system cycle of its sequencer cycle (DESIGN CHOICE,
log 17); a step that faults leaves the clock generator alone (60_exceptions R301). -/
def clockTurn (s : State) : Result :=
  if s.seq.en = false then .next s
  else if s.seq.divCnt ≠ 0 then .next { s with seq := s.seq.countCycle }
  else match seqCycle s with
    | .next t => if t.fault = s.fault then .next { t with seq := t.seq.startCycle.countCycle } else .next t
    | .fault e => .fault e
    | .refused e => .refused e

end Sys2Proof.Machine
end

