-- ==== Sys2Proof/Machine/Configure.lean ====
section
/-! DEFINITION. CONFIGURE, the divisor derivation (42_sequencer R161, R162). -/

namespace Sys2Proof.Machine

/-- The value CONFIGURE writes to SEQ_CLKDIV, or the first check that fails. A pure function of its four inputs (R162). -/
def deriveDivisor (sysHz sr bd cpb : Nat) : Except FaultCode Word :=
  let f := sr * 2 * bd * cpb
  let d := sysHz / f
  if bd < 2 ∨ 32 < bd then .error .cfgParam
  else if cpb < 3 ∨ 10 < cpb then .error .cfgParam
  else if sr = 0 then .error .cfgSampleRate
  else if d = 0 then .error .cfgDivisor
  else if 65535 < d then .error .cfgDivisor
  else .ok (BitVec.ofNat 16 d ++ 0#16 : BitVec (16 + 16))

/-- CONFIGURE as one step of the host: its faults, or the write of SEQ_CLKDIV (DEDUCED, log 24). -/
def configure (sysHz sr bd cpb : Nat) (s : State) : Result :=
  match deriveDivisor sysHz sr bd cpb with
  | .error c => raise c s
  | .ok v => writeReg .seqClkDiv v s

end Sys2Proof.Machine
end

