-- ==== Sys2Proof/Machine/HostPort.lean ====
section
/-! DEFINITION. The host's accesses to the block (10_state R31, 30_encoding R111) and to system memory (20_memory R78), and
the host's turn (44_control_loop). -/

namespace Sys2Proof.Machine

/-- The offset in the register window of a system address (10_state R31). -/
def windowOffset (base a : Word) : Option RegOffset :=
  if base.toNat ≤ a.toNat ∧ a.toNat < base.toNat + 0x400 then some ((a - base).setWidth 10) else none

/-- A memory access whose address lies in the register window is a register access (DESIGN CHOICE, log 13). -/
def resolveAccess (base : Word) : Access → Access
  | .reg a => .reg a
  | .memRead width a =>
    match windowOffset base a with
    | some o => .reg (.read width o)
    | none => .memRead width a
  | .memWrite width a v =>
    match windowOffset base a with
    | some o => .reg (.write width o v)
    | none => .memWrite width a v

/-- A register access: an operation of the opcode table, a plain read or write, or the fault its rejection names. -/
def regAccess (a : RegAccess) (s : State) : Result :=
  match decodeRegAccess a with
  | .error e => raise (Reject.code e) s
  | .ok (.op i) => exec i s
  | .ok (.readReg r) => readReg r s
  | .ok (.writeReg r v) => writeReg r v s

/-- A host read of system memory, allowed in either ownership state (20_memory R78, point 3). -/
def hostMemRead (width : Width) (a : Word) (s : State) : Result :=
  .next (s.completeRead (Memory.load s.mem width a))

/-- The addresses an access touches. -/
def touched (width : Width) (a : Word) : List Nat := (List.range (Width.bytes width)).map (addrAt a)

/-- A host write of system memory; a byte of an engine-owned buffer is a protocol breach (20_memory R78, point 2). -/
def hostMemWrite (width : Width) (a v : Word) (s : State) : Result :=
  if (touched width a).any s.xfer.guards then raise .hostProtocol s
  else .next ({ s with mem := Memory.store s.mem width a v }.completeWrite)

/-- One host access. -/
def hostAccess (a : Access) (s : State) : Result :=
  match resolveAccess s.params.blockBase a with
  | .reg r => regAccess r s
  | .memRead width addr => hostMemRead width addr s
  | .memWrite width addr v => hostMemWrite width addr v s

/-- The access that the next item of the host's program makes (30_encoding R112, 44_control_loop R264); none for
CONFIGURE, whose step is `configure`, and for a FILL of no words. -/
def HostItem.access? : HostItem → Option Access
  | .access a => some a
  | .configure _ _ _ _ => none
  | .fill _ _ _ 0 => none
  | .fill _ _ _ (_ + 1) => some (.reg (.read .word Reg.wvSample.offset))
  | .refill _ => some (.reg (.read .word Reg.xfWait.offset))
  | .loop _ => some (.reg (.read .word Reg.xfStatus.offset))
  | .environment n => some (Config.freeAccess n)

/-- One item of the host's program. -/
def hostItem (item : HostItem) (s : State) : Result :=
  match item with
  | .configure sysHz sr bd cpb => configure sysHz sr bd cpb s
  | item =>
    match HostItem.access? item with
    | some a => hostAccess a s
    | none => .next s.completeWrite

/-- HOST's turn: one access (10_state R20). A host whose program has ended has no step. -/
def hostTurn (s : State) : Result :=
  match s.host.prog with
  | [] => .next s
  | item :: _ => hostItem item s

end Sys2Proof.Machine
end

