-- ==== Sys2Proof/Machine/Agents.lean ====
section
/-! DEFINITION. What each turn of the schedule does (10_state R20), and where an instruction of the opcode table is
placed so that the next step runs it. -/

namespace Sys2Proof.Machine

/-- One turn, FAULT = none. -/
def agentTurn (t : Config.Turn) (s : State) : Result :=
  match t with
  | .seq => seqTurn s
  | .xfer => xferTurn s
  | .host => hostTurn s
  | .clock => clockTurn s
  | .reset => .next s.powerOnReset

/-- The state with a piece of code as what the next step runs (DESIGN CHOICE, log 4): a SEQ word in the slot at PC with SEQ enabled and no
delay pending, a register access as the host's next item; the turn is fixed and FAULT is none. -/
def State.place (c : Code) (s : State) : State :=
  match c with
  | .slot w =>
    { s with seq := { s.seq.setSlot s.seq.pc w with en := true, dly := 0 }, fault := none, turns := .seq :: s.turns }
  | .reg a =>
    { s with host := ⟨.access (.reg a) :: s.host.prog, s.host.result⟩, fault := none, turns := .host :: s.turns }

end Sys2Proof.Machine
end

