-- ==== Sys2Proof/Machine/Step.lean ====
section
/-! DEFINITION. One step of the machine. -/

namespace Sys2Proof.Machine

/-- One whole agent step (10_state R20, 20_memory R79). While FAULT = c no agent takes a step and the run ends with that
fault (60_exceptions R302); only reset goes on. -/
def step (s : State) : Host.Outcome State Fault Refusal :=
  if s.turn = .reset then agentTurn .reset s.tick
  else match s.fault with
    | some c => .fault (.recorded c)
    | none => agentTurn s.turn s.tick

/-- The state whose next step runs the instruction of a word of spec/opcode_table.json. -/
def State.withFetchWord (s : State) (nbits w : Nat) : State := s.place (tableCode nbits w)

end Sys2Proof.Machine
end

