-- ==== Sys2Proof/WellFormed.lean ====
section
/-! DEFINITION. The checks on plain data that the spec states. The fields of `Instr` have the widths of the encoding, so
every term of `Instr` is well formed; what has a range of its own is the parameters (92_eei_decisions, "Open parameters,
collected") and the stream configuration of 00_scope R6. -/

namespace Sys2Proof

namespace Config

/-- QDEPTH >= 1; BLOCK_BASE is word aligned and its window ends below 2^32. -/
def Params.wellFormed (p : Params) : Bool :=
  decide (1 ≤ p.qDepth) && decide (p.blockBase.toNat % 4 = 0) && decide (p.blockBase.toNat + 0x3FF < 2 ^ 32)

end Config

/-- The host's configuration surface (00_scope R6). -/
structure StreamConfig where
  sysHz : Nat     -- SYS_HZ
  sr    : Nat     -- SR, sample rate in Hz
  bd    : Nat     -- BD, bit depth
  cpb   : Nat     -- CPB, sequencer cycles per bit
  n     : Nat     -- N, buffer length in frames
  deriving DecidableEq, Repr

/-- The legal ranges of 00_scope R6. -/
def StreamConfig.wellFormed (c : StreamConfig) : Bool :=
  decide (1 ≤ c.sysHz ∧ c.sysHz < 2 ^ 32) && decide (1 ≤ c.sr ∧ c.sr < 2 ^ 32) && decide (2 ≤ c.bd ∧ c.bd ≤ 32) &&
    decide (3 ≤ c.cpb ∧ c.cpb ≤ 10) && decide (1 ≤ c.n ∧ c.n < 2 ^ 30)

end Sys2Proof
end

