-- ==== Sys2Proof/Safety.lean ====
section
/-! DEFINITION. What counts as a safe run: the invariants that statements use as premises, which agents have a step, the
end of a run (70_reset R364), untimed and timed runs with their premises and the refill deadline (70_reset R360 to R362), and
the abstract views the spec names (42_sequencer R200, 43_transfer_engine R221). -/

namespace Sys2Proof.Machine

/-! ### Invariants -/

/-- SEQ's registers: OSC counts 0..32 (10_state R24), DIVCNT counts a cycle of at most 65535 + 1 system cycles (42_sequencer
R160), and a running SEQ has passed the checks of 10_state R32. -/
structure SeqState.Inv (q : SeqState) : Prop where
  oscLe         : q.osc.toNat ≤ 32
  cycleLenLe    : q.cycleLen ≤ 65536
  divCntLt      : q.divCnt ≠ 0 → q.divCnt.toNat < q.cycleLen
  enClaimed     : q.en = true → q.claimed = true
  enDivisor     : q.en = true → q.clkInt ≠ 0
  enThreshold   : q.en = true → 1 ≤ q.thresh.toNat ∧ q.thresh.toNat ≤ 32

/-- WAVE: a constructed producer has passed the checks of 41_waveform R131, and the phase of Sawtooth and Square stays
below RATE (R139); before construction the phase is 0 (R142). -/
structure WaveState.Inv (w : WaveState) : Prop where
  readyRate  : w.ready = true → w.rate ≠ 0
  readyShape : w.ready = true → w.shape ≠ 3
  phaseLt    : w.ready = true → w.shape ≠ 0 → w.phase.toNat < w.rate.toNat
  idlePhase  : w.ready = false → w.phase = 0

/-- A submitted buffer: what SUBMIT_CHECK accepted still holds of it (43_transfer_engine R234), and MOVED counts 0..XF_LEN
(10_state R41). -/
structure XferState.Submitted (x : XferState) (b : BufId) : Prop where
  movedLe  : (x.buf b).moved ≤ x.len.toNat
  lenEq    : (x.buf b).len = x.len
  aligned  : (x.buf b).addr.toNat % 4 = 0
  noWrap   : (x.buf b).addr.toNat + 4 * x.len.toNat ≤ 2 ^ 32

/-- XFER and its queue: SUB holds distinct ids (10_state R41), every submitted buffer is as SUBMIT_CHECK left it, two
submitted buffers do not overlap (20_memory R76), the queued buffer is untouched until the head is finished
(43_transfer_engine R229), Q is within its capacity (10_state R40), and STRANDED needs STRAND and a submitted buffer that
is not finished (43_transfer_engine R221, R227). -/
structure State.XferInv (s : State) : Prop where
  nodup      : s.xfer.sub.Nodup
  lenNe      : s.xfer.sub ≠ [] → s.xfer.len ≠ 0
  submitted  : ∀ b ∈ s.xfer.sub, s.xfer.Submitted b
  disjoint   : ∀ a b, s.xfer.sub = [a, b] → ∀ i, ¬ (Buffer.holds (s.xfer.buf a) i = true ∧ Buffer.holds (s.xfer.buf b) i = true)
  inOrder    : ∀ a b, s.xfer.sub = [a, b] → 0 < (s.xfer.buf b).moved → s.xfer.finished a = true
  queueLe    : s.queue.length ≤ s.params.qDepth
  stranded   : s.xfer.stranded = true →
    s.params.lateSubmit = .strand ∧ ∃ b ∈ s.xfer.sub, (s.xfer.buf b).moved < s.xfer.len.toNat

/-! ### Which agents have a step, and the end of a run -/

/-- The instruction that SEQ's next cycle would start. -/
def State.fetched (s : State) : Option Instr :=
  match s.seq.slot s.seq.pc with
  | none => none
  | some w =>
    match decodeSlot w with
    | .ok i => some i
    | .error _ => none

/-- SEQ is stalled: its next cycle is an OUT_PINS with a pull due and Q empty (42_sequencer R171). -/
def State.seqStalled (s : State) : Prop :=
  s.seq.dly = 0 ∧ (∃ side d, s.fetched = some (.outPins side d)) ∧ s.seq.thresh ≤ s.seq.osc ∧ s.queue = []

/-- XFER has a step (43_transfer_engine R229). -/
def State.xferEnabled (s : State) : Prop := s.xfer.active ≠ none ∧ s.queue.length < s.params.qDepth

/-- No agent has an enabled step (70_reset R364, point 3): EN = 0 or SEQ stalled, no active XFER buffer, and the host
program finished. -/
def State.quiescent (s : State) : Prop :=
  (s.seq.en = false ∨ s.seqStalled) ∧ s.xfer.active = none ∧ s.host.prog = []

/-- The host is blocked on a WAIT (43_transfer_engine R226). -/
def State.waitBlocks (s : State) : Prop := s.xfer.sub ≠ [] ∧ s.xfer.done = false

/-- A safe run has no fault recorded (60_exceptions R302). -/
def State.faultFree (s : State) : Prop := s.fault = none

/-! ### Runs (DESIGN CHOICE, log 18) -/

/-- The first `n` steps of a run: each state is a step's next state. -/
def IsRunTo (r : Nat → State) (n : Nat) : Prop := ∀ k, k < n → step (r k) = .next (r (k + 1))

/-- A run that goes on for ever. -/
def IsRun (r : Nat → State) : Prop := ∀ n, step (r n) = .next (r (n + 1))

/-- An agent has a step: SEQ while EN = 1 (42_sequencer R163), XFER as 43_transfer_engine R229 says, the host while its
program lasts; none while FAULT is set, and reset is no agent. -/
def State.enabled (s : State) : Config.Turn → Prop
  | .seq => s.fault = none ∧ s.seq.en = true
  | .clock => s.fault = none ∧ s.seq.en = true
  | .xfer => s.fault = none ∧ s.xferEnabled
  | .host => s.fault = none ∧ s.host.prog ≠ []
  | .reset => False

/-- Weak fairness (70_reset R360): an agent whose step stays enabled eventually takes it. -/
def WeaklyFair (r : Nat → State) : Prop :=
  ∀ a : Config.Turn, a = .seq ∨ a = .xfer ∨ a = .host → ∀ n, ∃ m, n ≤ m ∧ (¬ (r m).enabled a ∨ (r m).turn = a)

/-- Every turn is one of the untimed model's: whole steps of SEQ, XFER and HOST, with no notion of time (70_reset R360). -/
def UntimedTurns (r : Nat → State) : Prop := ∀ n, (r n).turn = .seq ∨ (r n).turn = .xfer ∨ (r n).turn = .host

/-- A run of the untimed model: an interleaving of SEQ, XFER and HOST, weakly fair and nothing more (70_reset R360). -/
def IsFairRun (r : Nat → State) : Prop := IsRun r ∧ UntimedTurns r ∧ WeaklyFair r

/-- How many of the steps from state `n` up to state `m` have a property. -/
def countSteps (p : State → Bool) (r : Nat → State) (n m : Nat) : Nat :=
  ((List.range (m - n)).filter (fun k => p (r (n + k)))).length

/-- How many system cycles pass between two points of a run. -/
def systemCycles (r : Nat → State) (n m : Nat) : Nat := countSteps (fun s => decide (s.turn = .clock)) r n m

/-- XFER_LAT (70_reset R361): from any point, at most `lat` system cycles pass in steps at which XFER's step is enabled and
is not taken. With `lat` = 0 no system cycle passes before XFER takes it. -/
def MeetsXferLatency (lat : Nat) (r : Nat → State) : Prop :=
  ∀ n m, n ≤ m → (∀ k, n ≤ k → k < m → (r k).enabled .xfer ∧ (r k).turn ≠ .xfer) → systemCycles r n m ≤ lat

/-- Every turn is one of the timed reading's: SEQ steps only with the system clock, through the divider (42_sequencer R160),
and time passes (70_reset R361). -/
def TimedTurns (r : Nat → State) : Prop :=
  (∀ n, (r n).turn = .clock ∨ (r n).turn = .xfer ∨ (r n).turn = .host) ∧ ∀ n, ∃ m, n ≤ m ∧ (r m).turn = .clock

/-- A run of the timed reading with XFER_LAT = `lat` (70_reset R361). The host's step times are left free. -/
def IsTimedRun (lat : Nat) (r : Nat → State) : Prop := IsRun r ∧ TimedTurns r ∧ MeetsXferLatency lat r

/-- The step is a write of SEQ_CTRL that applies RESTART (10_state R32). -/
def State.restarts (s : State) : Prop :=
  s.turn = .host ∧ ∃ item rest v t, s.host.prog = item :: rest ∧
    (HostItem.access? item).map (resolveAccess s.params.blockBase) = some (.reg (.write .word Reg.seqCtrl.offset v)) ∧
    v.getLsbD 1 = true ∧ step s = .next t ∧ t.fault = none

/-- The step is one of SEQ's: its turn, or the system cycle in which its sequencer cycle starts. -/
def State.seqSteps (s : State) : Bool :=
  s.seq.en && (decide (s.turn = .seq) || (decide (s.turn = .clock) && decide (s.seq.divCnt = 0)))

/-- How many sequencer cycles start between two points of a run. -/
def sequencerCycles (r : Nat → State) (n m : Nat) : Nat := countSteps State.seqSteps r n m

/-! ### The end of a run (70_reset R364) -/

/-- State `n` stands right after SEQ's `steps`-th step since the last RESTART, which is the step before state `m` (or, with
`m` = 0, the run's start); with `steps` = 0 it is state `m` itself. -/
def AtHorizon (steps : Nat) (r : Nat → State) (n : Nat) : Prop :=
  ∃ m, m ≤ n ∧ (m = 0 ∨ (r (m - 1)).restarts) ∧ (∀ k, m ≤ k → k < n → ¬ (r k).restarts) ∧
    sequencerCycles r m n = steps ∧ (n = m ∨ (r (n - 1)).seqSteps = true)

/-- A run ends at state `n`: in a fault, at the horizon that the observation names, if it names one, or in quiescence. -/
def EndsAt (horizon : Option Nat) (r : Nat → State) (n : Nat) : Prop :=
  IsRunTo r n ∧
    ((r n).fault ≠ none ∨ (∃ steps, horizon = some steps ∧ AtHorizon steps r n) ∨ ((r n).fault = none ∧ (r n).quiescent))

/-! ### The refill deadline (70_reset R362) -/

/-- DONE rises at state `n` (10_state R45). -/
def DoneRises (r : Nat → State) (n : Nat) : Prop := 0 < n ∧ (r (n - 1)).xfer.done = false ∧ (r n).xfer.done = true

/-- Buffer `b` is submitted and not finished. -/
def XferState.drains (x : XferState) (b : BufId) : Prop := b ∈ x.sub ∧ x.finished b = false

/-- Buffer `b` is submitted and finished. -/
def XferState.drained (x : XferState) (b : BufId) : Prop := b ∈ x.sub ∧ x.finished b = true

/-- Buffer `b` completes at state `n`: its last word was pushed in the step before it. While `b` is the head, that is where DONE
rises; behind a head that is not reclaimed yet DONE is 1 already (DESIGN CHOICE, log 18). -/
def Completes (r : Nat → State) (b : BufId) (n : Nat) : Prop :=
  0 < n ∧ (r (n - 1)).xfer.drains b ∧ (r n).xfer.drained b

/-- The step is a READ_NEXT of `b` that is accepted (43_transfer_engine R225). -/
def State.submitsNext (s : State) (b : BufId) : Prop :=
  s.turn = .host ∧ ∃ t, step s = .next t ∧ exec (.readNext b) s.tick = .next t ∧ t.fault = none

/-- The submission is late: the current transfer has already finished (43_transfer_engine R227). -/
def State.submitsLate (s : State) (b : BufId) : Prop := s.submitsNext b ∧ s.xfer.done = true

/-- The late submission comes before Q drains, and so causes no stall under LATE_SUBMIT = RESUME. -/
def State.submitsBeforeDrain (s : State) (b : BufId) : Prop :=
  s.submitsLate b ∧ s.params.lateSubmit = .resume ∧ s.queue ≠ []

/-- The refill of `b` that begins where it completes, at state `n`, ends with its own next READ_NEXT, which is step `m`. -/
def IsRefill (r : Nat → State) (b : BufId) (n m : Nat) : Prop :=
  Completes r b n ∧ n ≤ m ∧ (r m).submitsNext b ∧ ∀ k, n ≤ k → k < m → ¬ (r k).submitsNext b

/-- T_refill, from DONE rising to the READ_NEXT write, in sequencer cycles. -/
def refillTime (r : Nat → State) (n m : Nat) : Nat := sequencerCycles r n m

/-- Every buffer that completes is submitted again by its READ_NEXT, in less than `bound` sequencer cycles. With `refillBudget`
no submission is late; under LATE_SUBMIT = RESUME Q's slack extends it up to `resumeBudget` (Machine/Program.lean). -/
def RefillsWithin (bound : Nat) (r : Nat → State) : Prop :=
  ∀ b n, Completes r b n → ∃ m, IsRefill r b n m ∧ refillTime r n m < bound

/-! ### The spec's abstract views -/

/-- The states of 43_transfer_engine R221. -/
inductive XferPhase where
  | idle
  | run1 (a : BufId)
  | done1 (a : BufId)
  | run2 (a b : BufId)
  | chain (a b : BufId)
  | done2 (a b : BufId)
  | stuck
  deriving DecidableEq, Repr

/-- The state of the buffer-pointer machine, named by the shape of SUB and the progress of its buffers (R221). -/
def XferState.phase (x : XferState) : XferPhase :=
  if x.stranded then .stuck
  else match x.sub with
    | [] => .idle
    | [a] => if x.finished a then .done1 a else .run1 a
    | a :: b :: _ => if x.finished a then (if x.finished b then .done2 a b else .chain a b) else .run2 a b

/-- The bit position of the bit on DATA while the canonical program runs (42_sequencer R200). -/
def SeqState.bitPosition (q : SeqState) : Nat := q.thresh.toNat - q.osc.toNat

/-- The active channel while the canonical program runs (42_sequencer R200): false is Left, true is Right. -/
def SeqState.activeChannel (q : SeqState) : Bool := q.lrclk

end Sys2Proof.Machine
end

