-- ==== Sys2Proof/Certificates/Slice0/Obligations.lean ====
section
/-! DEFINITION. The statements for the provers. Each docstring names the rules of spec/ it formalises. -/

open Sys2Proof Sys2Proof.Machine

/-! ### Encoding -/

/-- 30_encoding R104, R110, R111: decoding an instruction's code gives it back. Decoding its opcode-table word does so too,
where a 32-bit table word stands for the access that the model chose for its row (DESIGN CHOICE, log 15). -/
def Obligations.DecodeEncodeRoundTrip : Prop :=
  ∀ i : Instr, decode (encode i) = .ok i ∧ decodeTableWord (tableWord i).1 (tableWord i).2 = some i

/-- 30_encoding R104: no word matches two rows, a word is admitted if and only if it matches exactly one, as that row's
instruction, and SEQ's fetch of any other word raises ILLEGAL_INSTR. -/
def Obligations.DecoderAdmitsExactlyTableRows : Prop :=
  ∀ w : SlotWord,
    (slotRows.filter (fun r => r.admits w)).length ≤ 1 ∧
    ((∃ i, decodeSlot w = .ok i) ↔ (slotRows.filter (fun r => r.admits w)).length = 1) ∧
    (∀ i, decodeSlot w = .ok i → (slotRows.filter (fun r => r.admits w)).map SlotRow.mnemonic = [i.mnemonic]) ∧
    ((∀ i, decodeSlot w ≠ .ok i) → ∀ s : State, s.turn = .seq → s.fault = none → s.seq.en = true → s.seq.dly = 0 →
      s.seq.slot s.seq.pc = some w → step s = .next (s.tick.raise .illegalInstr))

/-- 30_encoding R100 to R106: the encoder lays every field of an admitted word back where it was. -/
def Obligations.EncodeDecodeRoundTrip : Prop :=
  ∀ (w : SlotWord) (i : Instr), decodeSlot w = .ok i → encode i = .slot w

/-- 95_test_vectors 2.1 (the SEQ words) and 2.5, rows X12, X14, X23 and X24 (the command words): words written out by the spec
decode to the instructions it names. -/
def Obligations.SpecWordsDecode : Prop :=
  decodeSlot 0x0000#16 = .ok (.jmp ⟨false, false⟩ 0 0) ∧
  decodeSlot 0x1003#16 = .ok (.jmp ⟨true, false⟩ 0 3) ∧
  decodeSlot 0x0A41#16 = .ok (.jmpXdec ⟨false, true⟩ 2 1) ∧
  decodeSlot 0x1F5F#16 = .ok (.jmpXdec ⟨true, true⟩ 7 31) ∧
  decodeSlot 0x6101#16 = .ok (.outPins ⟨false, false⟩ 1) ∧
  decodeSlot 0x7F01#16 = .ok (.outPins ⟨true, true⟩ 7) ∧
  decodeSlot 0xE022#16 = .ok (.setX ⟨false, false⟩ 0 2) ∧
  decodeSlot 0xFF3F#16 = .ok (.setX ⟨true, true⟩ 7 31) ∧
  decodeSlot 0xA042#16 = .error .opcode ∧
  decodeSlot 0x6002#16 = .error .outForm ∧
  decodeCommand 0x10000001#32 = .ok (.start .one) ∧
  decodeCommand 0x20000000#32 = .ok (.readNext .zero) ∧
  decodeCommand 0x30000000#32 = .error .commandOp ∧
  decodeCommand 0x10000002#32 = .error .commandReserved

/-- 30_encoding R110, R113: the four legal command words, and BAD_COMMAND for every other word written to XF_CMD. -/
def Obligations.CommandWordsAreExactlyFour : Prop :=
  (∀ (v : Word) (b : BufId), decodeCommand v = .ok (.start b) ↔ v = 0x10000000#32 + (if b = .one then 1 else 0)) ∧
  (∀ (v : Word) (b : BufId), decodeCommand v = .ok (.readNext b) ↔ v = 0x20000000#32 + (if b = .one then 1 else 0)) ∧
  (∀ v : Word, v ≠ 0x10000000#32 → v ≠ 0x10000001#32 → v ≠ 0x20000000#32 → v ≠ 0x20000001#32 →
    ∀ s : State, regAccess (.write .word 0x114#10 v) s = .next (s.raise .badCommand))

/-- 10_state R31: every register stands at its offset of the table, each offset is aligned, and an aligned offset reaches at most
one register. 30_encoding R111: a read of SEQ_CLAIM, XF_STATUS, XF_WAIT and WV_SAMPLE, and a write of WV_CTRL with bit 3 set,
is the operation of the opcode table (whatever that value's reserved bits hold, log 14). -/
def Obligations.RegisterOffsetsAgree : Prop :=
  (Reg.seqCtrl.offset.toNat = 0x000 ∧ Reg.seqClaim.offset.toNat = 0x004 ∧ Reg.seqClkDiv.offset.toNat = 0x008 ∧
    Reg.seqCfg.offset.toNat = 0x00C ∧ Reg.seqPins.offset.toNat = 0x010 ∧ Reg.seqPc.offset.toNat = 0x014 ∧
    (∀ i : SlotIdx, (Reg.imemWin i).offset.toNat = 0x080 + 4 * i.toNat) ∧
    Reg.xfLen.offset.toNat = 0x100 ∧ (Reg.xfBufAddr .zero).offset.toNat = 0x104 ∧ (Reg.xfBufLen .zero).offset.toNat = 0x108 ∧
    (Reg.xfBufAddr .one).offset.toNat = 0x10C ∧ (Reg.xfBufLen .one).offset.toNat = 0x110 ∧
    Reg.xfCmd.offset.toNat = 0x114 ∧ Reg.xfStatus.offset.toNat = 0x118 ∧ Reg.xfWait.offset.toNat = 0x11C ∧
    Reg.wvCtrl.offset.toNat = 0x200 ∧ Reg.wvFreq.offset.toNat = 0x204 ∧ Reg.wvRate.offset.toNat = 0x208 ∧
    Reg.wvPhase.offset.toNat = 0x20C ∧ Reg.wvSample.offset.toNat = 0x210 ∧ Reg.wvStatus.offset.toNat = 0x214) ∧
  (∀ r : Reg, Reg.ofOffset r.offset = some r ∧ r.offset.toNat % 4 = 0) ∧
  (∀ (o : RegOffset) (r : Reg), o.toNat % 4 = 0 → Reg.ofOffset o = some r → r.offset = o) ∧
  (∀ s : State,
    regAccess (.read .word 0x004#10) s = exec .claim s ∧ regAccess (.read .word 0x118#10) s = exec .isDone s ∧
    regAccess (.read .word 0x11C#10) s = exec .wait s ∧ regAccess (.read .word 0x210#10) s = exec .nextSample s ∧
    ∀ v : Word, v.getLsbD 3 = true →
      regAccess (.write .word 0x200#10 v) s = exec (.construct (v.setWidth 2) (v.getLsbD 2)) s)

/-! ### Reset, the step, and faults -/

/-- 10_state R57: what reset leaves, for every launch memory, and for any parameters, host and schedule. -/
def Obligations.ResetLeavesTableValues : Prop :=
  ∀ (p : Config.Params) (m : Memory) (h : HostState) (ts : List Config.Turn) (d : Nat) (s : State),
    s = State.launch p m h ts d →
    s.seq.pc = 0 ∧ s.seq.x = 0 ∧ s.seq.osr = 0 ∧ s.seq.osc = 32 ∧ s.seq.dly = 0 ∧
    s.seq.data = false ∧ s.seq.bclk = false ∧ s.seq.lrclk = false ∧ (∀ i, s.seq.slot i = none) ∧
    s.seq.divCnt = 0 ∧ s.seq.fracAcc = 0 ∧ s.seq.en = false ∧ s.seq.claimed = false ∧
    s.seq.clkInt = 1 ∧ s.seq.clkFrac = 0 ∧ s.regValue .seqClkDiv = 0x00010000#32 ∧
    s.seq.wrapBottom = 0 ∧ s.seq.wrapTop = 31 ∧ s.seq.entry = 0 ∧ s.seq.thresh = 32 ∧
    s.regValue .seqCfg = 0x20001F00#32 ∧ s.regValue .seqPins = 0 ∧ s.queue = [] ∧
    s.xfer.sub = [] ∧ (∀ b, (s.xfer.buf b).moved = 0) ∧ s.xfer.stranded = false ∧ s.xfer.len = 0 ∧
    (∀ b, (s.xfer.buf b).addr = 0 ∧ (s.xfer.buf b).len = 0) ∧
    s.wave.shape = 0 ∧ s.wave.rep = false ∧ s.wave.freq = 0 ∧ s.wave.rate = 0 ∧ s.wave.phase = 0 ∧
    s.wave.ready = false ∧ (∀ b, s.xfer.owns b = false) ∧ s.fault = none ∧ s.mem = m

/-- 70_reset R340, R341: from any state, faulted or not, reset gives the block its reset values and leaves memory alone
(reset as a turn is log 19). -/
def Obligations.ResetFromAnyState : Prop :=
  ∀ s : State, s.turn = .reset → ∃ t, step s = .next t ∧
    t.seq = State.reset.seq ∧ t.queue = [] ∧ t.xfer = State.reset.xfer ∧ t.wave = State.reset.wave ∧ t.fault = none ∧
    ∀ a, Memory.read t.mem a = Memory.read s.mem a

/-- 42_sequencer R164: in SEQ's turn, with EN = 1 and no delay pending, the step is the meaning of the word at PC, on the
state with the turn taken off the schedule (the model's own; log 2). -/
def Obligations.StepRunsSlotInstruction : Prop :=
  ∀ (s : State) (w : SlotWord) (i : Instr), s.turn = .seq → s.fault = none → s.seq.en = true → s.seq.dly = 0 →
    s.seq.slot s.seq.pc = some w → decodeSlot w = .ok i →
    step s = exec i s.tick ∧
      s.tick = { s with turns := s.turns.tail, draws := if s.turns = [] then s.draws + 1 else s.draws }

/-- 10_state R20, 30_encoding R111, R112: in HOST's turn the step is the access of its next item, an operation of the opcode
table is its meaning, CONFIGURE is `configure`, an item without an access only moves the host on, and a host whose program
has ended has no step (the schedule and the host's program are the model's, log 2, log 3, log 4, log 24). A register access
is `regAccess`, and so is a memory access into the register window (log 13). -/
def Obligations.StepRunsHostOperation : Prop :=
  (∀ s : State, s.turn = .host → s.fault = none →
    (s.host.prog = [] → step s = .next s.tick) ∧
    ∀ (item : HostItem) (rest : List HostItem), s.host.prog = item :: rest →
      (∀ a, HostItem.access? item = some a → step s = hostAccess a s.tick) ∧
      (∀ a i, HostItem.access? item = some (.reg a) → decodeRegAccess a = .ok (.op i) → step s = exec i s.tick) ∧
      (∀ sysHz sr bd cpb, item = .configure sysHz sr bd cpb → step s = configure sysHz sr bd cpb s.tick) ∧
      (HostItem.access? item = none → (∀ sysHz sr bd cpb, item ≠ .configure sysHz sr bd cpb) →
        step s = .next { s.tick with host := ⟨rest, s.host.result⟩ })) ∧
  (∀ (s : State) (a : RegAccess), hostAccess (.reg a) s = regAccess a s) ∧
  (∀ (s : State) (width : Width) (a v : Word) (o : RegOffset), a.toNat = s.params.blockBase.toNat + o.toNat →
    hostAccess (.memRead width a) s = regAccess (.read width o) s ∧
    hostAccess (.memWrite width a v) s = regAccess (.write width o v) s)

/-- 42_sequencer R164: a delay cycle only decrements DLY (the schedule is the model's, log 2). -/
def Obligations.DelayCycleOnlyDecrementsDelay : Prop :=
  ∀ s : State, s.turn = .seq → s.fault = none → s.seq.en = true → s.seq.dly ≠ 0 →
    ∃ t, step s = .next t ∧ t = { s.tick with seq := { s.seq with dly := t.seq.dly } } ∧
      t.seq.dly.toNat + 1 = s.seq.dly.toNat

/-- 60_exceptions R303: a fetch from a slot never written raises UNWRITTEN_IMEM in the cycle that would start the
instruction (the schedule is the model's, log 2). -/
def Obligations.UnwrittenSlotFaults : Prop :=
  ∀ s : State, s.turn = .seq → s.fault = none → s.seq.en = true → s.seq.dly = 0 → s.seq.slot s.seq.pc = none →
    step s = .next { s.tick with fault := some .unwrittenImem }

/-- 60_exceptions R301: whatever agent's step raises a fault, it writes FAULT and no other state (raising as a next
state is log 1, the schedule log 2). -/
def Obligations.FaultingStepWritesOnlyFault : Prop :=
  ∀ (s t : State) (c : FaultCode), s.fault = none → s.turn ≠ .reset → step s = .next t → t.fault = some c →
    t = { s.tick with fault := some c }

/-- 60_exceptions R302: while FAULT is set no agent takes a step, and only reset clears it (that the following step answers the
fault is log 1, that reset is a turn log 19). -/
def Obligations.RecordedFaultIsTerminal : Prop :=
  ∀ (s : State) (c : FaultCode), s.fault = some c →
    (s.turn ≠ .reset → step s = .fault (.recorded c)) ∧ (s.turn = .reset → ∃ t, step s = .next t ∧ t.fault = none)

/-! ### SEQ -/

/-- 42_sequencer R165: the wrap applies at WRAP_TOP, and elsewhere the successor is the next slot modulo 32. -/
def Obligations.SequentialSuccessorWraps : Prop :=
  ∀ (q : SeqState) (p : SlotIdx),
    (p = q.wrapTop → q.nextPc p = q.wrapBottom) ∧ (p ≠ q.wrapTop → (q.nextPc p).toNat = (p.toNat + 1) % 32)

/-- 42_sequencer R166, R167: JMP writes LRCLK, BCLK, DLY and PC (before its delay cycles, log 28), and completes in every state. -/
def Obligations.JmpCompletes : Prop :=
  ∀ (side : Side) (d : BitVec 3) (a : SlotIdx) (s : State),
    exec (.jmp side d a) s =
      .next { s with seq := { s.seq with lrclk := side.lr, bclk := side.bclk, dly := d, pc := a } }

/-- 42_sequencer R168: JMP_XDEC tests X before it decrements it modulo 2^32, and completes in every state (PC before its delay
cycles, log 28). -/
def Obligations.JmpXdecCompletes : Prop :=
  ∀ (side : Side) (d : BitVec 3) (a : SlotIdx) (s : State), ∃ t,
    exec (.jmpXdec side d a) s = .next t ∧
    t = { s with seq := { s.seq with x := t.seq.x, lrclk := side.lr, bclk := side.bclk, dly := d, pc := t.seq.pc } } ∧
    (s.seq.x ≠ 0 → t.seq.pc = a ∧ t.seq.x.toNat = s.seq.x.toNat - 1) ∧
    (s.seq.x = 0 → t.seq.pc = s.seq.nextPc s.seq.pc ∧ t.seq.x = 0xFFFFFFFF#32)

/-- 42_sequencer R169: OUT_PINS completes when no pull is due, and when one is due and Q holds a word; DATA is bit 31 of
the word, which shifts left by one (PC before its delay cycles, log 28). -/
def Obligations.OutPinsCompletes : Prop :=
  ∀ (side : Side) (d : BitVec 3) (s : State),
    (s.seq.thresh.toNat ≤ s.seq.osc.toNat → ∀ w rest, s.queue = w :: rest →
      exec (.outPins side d) s = .next { s with
        queue := rest
        seq := { s.seq with data := w.getLsbD 31, osr := w <<< 1, osc := 1, lrclk := side.lr, bclk := side.bclk, dly := d,
                            pc := s.seq.nextPc s.seq.pc } }) ∧
    (s.seq.osc.toNat < s.seq.thresh.toNat →
      exec (.outPins side d) s = .next { s with
        seq := { s.seq with data := s.seq.osr.getLsbD 31, osr := s.seq.osr <<< 1, osc := s.seq.osc + 1, lrclk := side.lr,
                            bclk := side.bclk, dly := d, pc := s.seq.nextPc s.seq.pc } })

/-- 42_sequencer R171: with a pull due and Q empty, OUT_PINS writes no state. -/
def Obligations.OutPinsStalls : Prop :=
  ∀ (side : Side) (d : BitVec 3) (s : State), s.seq.thresh.toNat ≤ s.seq.osc.toNat → s.queue = [] →
    exec (.outPins side d) s = .next s

/-- 42_sequencer R170: SET_X writes the zero-extended immediate to X, and completes in every state (PC before its delay cycles,
log 28). -/
def Obligations.SetXCompletes : Prop :=
  ∀ (side : Side) (d : BitVec 3) (imm : BitVec 5) (s : State), ∃ t,
    exec (.setX side d imm) s = .next t ∧ t.seq.x.toNat = imm.toNat ∧
    t = { s with seq := { s.seq with x := t.seq.x, lrclk := side.lr, bclk := side.bclk, dly := d,
                                     pc := s.seq.nextPc s.seq.pc } }

/-- The frame of the four SEQ instructions (42_sequencer R167 to R170, 60_exceptions R309, 20_memory R70): what they leave
unchanged. X is written by JMP_XDEC and SET_X only; OSR, OSC, DATA and Q by OUT_PINS only. -/
def Obligations.SeqInstructionFrame : Prop :=
  ∀ (i : Instr) (s t : State), i.isSeq = true → exec i s = .next t →
    t.xfer = s.xfer ∧ t.wave = s.wave ∧ t.fault = s.fault ∧ t.host = s.host ∧ t.params = s.params ∧ t.turns = s.turns ∧
    t.draws = s.draws ∧ (∀ a, Memory.read t.mem a = Memory.read s.mem a) ∧
    t.seq.imem = s.seq.imem ∧ t.seq.divCnt = s.seq.divCnt ∧ t.seq.fracAcc = s.seq.fracAcc ∧ t.seq.en = s.seq.en ∧
    t.seq.cycleLen = s.seq.cycleLen ∧
    t.seq.claimed = s.seq.claimed ∧ t.seq.clkInt = s.seq.clkInt ∧ t.seq.clkFrac = s.seq.clkFrac ∧
    t.seq.wrapBottom = s.seq.wrapBottom ∧ t.seq.wrapTop = s.seq.wrapTop ∧ t.seq.entry = s.seq.entry ∧
    t.seq.thresh = s.seq.thresh ∧ t.seq.dataPin = s.seq.dataPin ∧ t.seq.bclkPin = s.seq.bclkPin ∧
    t.seq.lrclkPin = s.seq.lrclkPin ∧
    (i.mnemonic ≠ "JMP_XDEC" → i.mnemonic ≠ "SET_X" → t.seq.x = s.seq.x) ∧
    (i.mnemonic ≠ "OUT_PINS" →
      t.seq.osr = s.seq.osr ∧ t.seq.osc = s.seq.osc ∧ t.seq.data = s.seq.data ∧ t.queue = s.queue)

/-- 42_sequencer R172: the lines change only in a cycle in which an instruction completes (reset aside); DATA only when an
OUT_PINS completes. In the timed reading that is the first system cycle of a sequencer cycle (DIVCNT = 0; log 17). -/
def Obligations.LinesChangeOnlyOnCompletion : Prop :=
  ∀ s t : State, s.turn ≠ .reset → step s = .next t →
    (t.seq.data ≠ s.seq.data ∨ t.seq.bclk ≠ s.seq.bclk ∨ t.seq.lrclk ≠ s.seq.lrclk) →
    (s.turn = .seq ∨ (s.turn = .clock ∧ s.seq.divCnt = 0)) ∧ s.seq.en = true ∧ s.seq.dly = 0 ∧ ¬ s.seqStalled ∧
    ∃ i, s.fetched = some i ∧ (t.seq.data ≠ s.seq.data → i.mnemonic = "OUT_PINS")

/-- 42_sequencer R160, the timed reading: a system cycle with DIVCNT = 0 starts a sequencer cycle, which is SEQ's step and
decides its own length, INT or, when FRACACC + FRAC reaches 256, INT + 1; the others count DIVCNT up to that length and do
nothing else; with EN = 0 nothing happens. That SEQ's step falls in the first system cycle is log 17, that the length is
kept is log 26, the schedule log 2; a step of SEQ that faults leaves the clock generator alone (60_exceptions R301). -/
def Obligations.CycleLengthFollowsAccumulator : Prop :=
  ∀ s : State, s.turn = .clock → s.fault = none →
    (s.seq.en = false → step s = .next s.tick) ∧
    (s.seq.en = true → s.seq.divCnt ≠ 0 →
      step s = .next { s.tick with seq := { s.seq with
        divCnt := if s.seq.divCnt.toNat + 1 < s.seq.cycleLen then s.seq.divCnt + 1 else 0 } }) ∧
    (s.seq.en = true → s.seq.divCnt = 0 → ∀ u, seqCycle s.tick = .next u →
      (u.fault ≠ none → step s = .next u) ∧
      (u.fault = none → ∃ t, step s = .next t ∧
        t = { u with seq := { u.seq with divCnt := t.seq.divCnt, fracAcc := t.seq.fracAcc, cycleLen := t.seq.cycleLen } } ∧
        t.seq.fracAcc.toNat = (s.seq.fracAcc.toNat + s.seq.clkFrac.toNat) % 256 ∧
        (256 ≤ s.seq.fracAcc.toNat + s.seq.clkFrac.toNat → t.seq.cycleLen = s.seq.clkInt.toNat + 1) ∧
        (s.seq.fracAcc.toNat + s.seq.clkFrac.toNat < 256 → t.seq.cycleLen = s.seq.clkInt.toNat) ∧
        t.seq.divCnt = if 1 < t.seq.cycleLen then 1 else 0))

/-! ### XFER -/

/-- 43_transfer_engine R223: the outcome of SUBMIT_CHECK, its ranges as sets of bytes (10_state R54). -/
def Obligations.SubmitCheckOutcomes : Prop :=
  ∀ (x : XferState) (b : BufId),
    (x.len = 0 ∨ (x.buf b).len ≠ x.len → x.submitCheck b = some .cfgBuflen) ∧
    (x.len ≠ 0 → (x.buf b).len = x.len →
      ((x.buf b).addr.toNat % 4 ≠ 0 ∨ 2 ^ 32 < (x.buf b).addr.toNat + 4 * x.len.toNat ∨
        ∃ i, Buffer.holds (x.buf b) i = true ∧ Buffer.holds (x.buf (BufId.other b)) i = true) →
      x.submitCheck b = some .bufPlacement) ∧
    (x.len ≠ 0 → (x.buf b).len = x.len → (x.buf b).addr.toNat % 4 = 0 →
      (x.buf b).addr.toNat + 4 * x.len.toNat ≤ 2 ^ 32 →
      (¬ ∃ i, Buffer.holds (x.buf b) i = true ∧ Buffer.holds (x.buf (BufId.other b)) i = true) →
      x.submitCheck b = none)

/-- 43_transfer_engine R222: START is refused with a buffer submitted or a failed check, and otherwise makes b the one
submitted buffer, with no word moved (the host's own program is log 4). -/
def Obligations.StartOutcomes : Prop :=
  ∀ (b : BufId) (s : State),
    (s.xfer.sub ≠ [] → exec (.start b) s = .next (s.raise .hostProtocol)) ∧
    (s.xfer.sub = [] → ∀ c, s.xfer.submitCheck b = some c → exec (.start b) s = .next (s.raise c)) ∧
    (s.xfer.sub = [] → s.xfer.submitCheck b = none → ∃ t, exec (.start b) s = .next t ∧
      t = { s with xfer := t.xfer, host := ⟨s.hostRest s.host.result, s.host.result⟩ } ∧
      t.xfer.sub = [b] ∧ t.xfer.buf b = { s.xfer.buf b with moved := 0 } ∧
      t.xfer.buf (BufId.other b) = s.xfer.buf (BufId.other b) ∧ t.xfer.stranded = s.xfer.stranded ∧
      t.xfer.len = s.xfer.len)

/-- 43_transfer_engine R225, R227: READ_NEXT is refused unless exactly one buffer, another one, is submitted and the
check passes; it then joins b to SUB with no word moved, and STRANDED is set by a late submission under STRAND (the
host's own program is log 4). -/
def Obligations.ReadNextOutcomes : Prop :=
  ∀ (b : BufId) (s : State),
    (s.xfer.sub.length ≠ 1 → exec (.readNext b) s = .next (s.raise .hostProtocol)) ∧
    (s.xfer.sub = [b] → exec (.readNext b) s = .next (s.raise .hostProtocol)) ∧
    (∀ a, s.xfer.sub = [a] → a ≠ b → ∀ c, s.xfer.submitCheck b = some c → exec (.readNext b) s = .next (s.raise c)) ∧
    (∀ a, s.xfer.sub = [a] → a ≠ b → s.xfer.submitCheck b = none → ∃ t, exec (.readNext b) s = .next t ∧
      t = { s with xfer := t.xfer, host := ⟨s.hostRest s.host.result, s.host.result⟩ } ∧
      t.xfer.sub = [a, b] ∧ t.xfer.buf b = { s.xfer.buf b with moved := 0 } ∧ t.xfer.buf a = s.xfer.buf a ∧
      t.xfer.len = s.xfer.len ∧
      (t.xfer.stranded = true ↔ s.xfer.stranded = true ∨
        ((s.xfer.buf a).moved = s.xfer.len.toNat ∧ s.params.lateSubmit = .strand)))

/-- 43_transfer_engine R226: WAIT with no handle is a breach, before completion it blocks with nothing written, and
after it the head is reclaimed and its id returned with VALID in bit 31 (the host's own program is log 4). -/
def Obligations.WaitOutcomes : Prop :=
  ∀ s : State,
    (s.xfer.sub = [] → exec .wait s = .next (s.raise .hostProtocol)) ∧
    (∀ a rest, s.xfer.sub = a :: rest → (s.xfer.buf a).moved ≠ s.xfer.len.toNat → exec .wait s = .next s) ∧
    (∀ a rest, s.xfer.sub = a :: rest → (s.xfer.buf a).moved = s.xfer.len.toNat → ∃ v : Word,
      v = 0x80000000#32 + (if a = .one then 1 else 0) ∧
      exec .wait s = .next { s with xfer := { s.xfer with sub := rest }, host := ⟨s.hostRest v, v⟩ })

/-- 43_transfer_engine R224: IS_DONE completes in every state, changes nothing but the host, and its bit 0 is 1 exactly
when a handle exists and its buffer's words have all been moved (the whole word is returned, log 11). -/
def Obligations.IsDoneCompletes : Prop :=
  ∀ s : State, ∃ v : Word, exec .isDone s = .next { s with host := ⟨s.hostRest v, v⟩ } ∧
    (v.getLsbD 0 = true ↔ ∃ a rest, s.xfer.sub = a :: rest ∧ (s.xfer.buf a).moved = s.xfer.len.toNat)

/-- 10_state R45: every bit of XF_STATUS; the read changes nothing but what the host holds (its program is log 4, the delivery of
the word log 25), and after reset it reads 0. -/
def Obligations.StatusWordBits : Prop :=
  (∀ s : State,
    regAccess (.read .word 0x118#10) s = .next (s.completeRead s.xfer.statusWord)) ∧
  (∀ x : XferState,
    (x.statusWord.getLsbD 0 = true ↔ ∃ a rest, x.sub = a :: rest ∧ (x.buf a).moved = x.len.toNat) ∧
    (x.statusWord.getLsbD 1 = true ↔ x.stranded = false ∧ ∃ b ∈ x.sub, (x.buf b).moved < x.len.toNat) ∧
    (x.statusWord.getLsbD 2 = true ↔ x.sub.length = 2) ∧
    (x.statusWord.getLsbD 3 = true ↔ 1 ≤ x.sub.length) ∧
    (x.statusWord.getLsbD 4 = true ↔ ∃ rest, x.sub = .one :: rest) ∧
    (x.statusWord.getLsbD 5 = true ↔ .zero ∈ x.sub) ∧
    (x.statusWord.getLsbD 6 = true ↔ .one ∈ x.sub) ∧
    (x.statusWord.getLsbD 7 = x.stranded) ∧
    (∀ k, 8 ≤ k → x.statusWord.getLsbD k = false)) ∧
  State.reset.xfer.statusWord = 0

/-- 43_transfer_engine R229, 10_state R41: with room in Q, XFER moves the next word of the first unfinished buffer;
with none, or none active, its turn changes nothing (a turn with no step is the model's choice, log 3). -/
def Obligations.XferMovesNextWord : Prop :=
  ∀ s : State, s.turn = .xfer → s.fault = none →
    (∀ b before after, s.xfer.stranded = false → s.xfer.sub = before ++ b :: after →
      (∀ a ∈ before, s.xfer.len.toNat ≤ (s.xfer.buf a).moved) → (s.xfer.buf b).moved < s.xfer.len.toNat →
      s.queue.length < s.params.qDepth →
      step s = .next { s.tick with
        queue := s.queue ++ [Memory.load s.mem .word ((s.xfer.buf b).addr + BitVec.ofNat 32 (4 * (s.xfer.buf b).moved))]
        xfer := s.xfer.setBuf b { s.xfer.buf b with moved := (s.xfer.buf b).moved + 1 } }) ∧
    ((s.xfer.stranded = true ∨ (∀ b ∈ s.xfer.sub, s.xfer.len.toNat ≤ (s.xfer.buf b).moved) ∨
      s.params.qDepth ≤ s.queue.length) → step s = .next s.tick)

/-- The frame of the seven host operations (43_transfer_engine R222 to R226, 41_waveform R131 and R132, 10_state R33): none
touches memory, Q, the parameters or the schedule; SUB is START's, READ_NEXT's and WAIT's, WAVE is CONSTRUCT's and
NEXT_SAMPLE's, SEQ is untouched but for CLAIMED; and one that raises a fault changes nothing else. -/
def Obligations.HostOperationFrame : Prop :=
  ∀ (i : Instr) (s t : State), i.isSeq = false → exec i s = .next t →
    (∀ a, Memory.read t.mem a = Memory.read s.mem a) ∧ t.queue = s.queue ∧ t.params = s.params ∧ t.turns = s.turns ∧
    t.draws = s.draws ∧ t.xfer.len = s.xfer.len ∧
    (∀ b, (t.xfer.buf b).addr = (s.xfer.buf b).addr ∧ (t.xfer.buf b).len = (s.xfer.buf b).len) ∧
    (t.seq = s.seq ∨ i = .claim ∧ t.seq = { s.seq with claimed := true }) ∧
    (t.xfer ≠ s.xfer → i.mnemonic = "START" ∨ i.mnemonic = "READ_NEXT" ∨ i.mnemonic = "WAIT") ∧
    (t.wave ≠ s.wave → i.mnemonic = "CONSTRUCT" ∨ i.mnemonic = "NEXT_SAMPLE") ∧
    (t.fault ≠ s.fault → t = { s with fault := t.fault })

/-- 43_transfer_engine R228: reset aside, ownership changes only where START or READ_NEXT submits a buffer, or WAIT reclaims
a finished head. -/
def Obligations.OwnershipMovesOnlyBySubmitAndWait : Prop :=
  ∀ s t : State, s.turn ≠ .reset → step s = .next t → t.xfer.sub ≠ s.xfer.sub →
    s.turn = .host ∧
    ((∃ b, (exec (.start b) s.tick = .next t ∨ exec (.readNext b) s.tick = .next t) ∧ s.xfer.owns b = false ∧
        t.xfer.sub = s.xfer.sub ++ [b]) ∨
      (exec .wait s.tick = .next t ∧ s.xfer.done = true ∧ t.xfer.sub = s.xfer.sub.tail))

/-- 20_memory R78: no step changes a byte of a buffer that XFER owns. -/
def Obligations.EngineOwnedBytesNeverChange : Prop :=
  ∀ s t : State, Memory.wf s.mem = true → step s = .next t →
    ∀ a, s.xfer.guards a = true → Memory.read t.mem a = Memory.read s.mem a

/-- 20_memory R81, 10_state R40: reset aside, Q changes only by SEQ taking its head or by XFER adding one word at its tail
while there is room. -/
def Obligations.QueueIsFifo : Prop :=
  ∀ s t : State, s.turn ≠ .reset → step s = .next t →
    t.queue = s.queue ∨
    ((s.turn = .seq ∨ s.turn = .clock) ∧ ∃ w, s.queue = w :: t.queue) ∨
    (s.turn = .xfer ∧ s.queue.length < s.params.qDepth ∧ ∃ w, t.queue = s.queue ++ [w])

/-- 44_control_loop R270: DONE cannot fall back to 0 while the head is unchanged. -/
def Obligations.DoneStaysWhileHeadStays : Prop :=
  ∀ s t : State, s.turn ≠ .reset → step s = .next t → s.xfer.done = true → t.xfer.sub.head? = s.xfer.sub.head? →
    t.xfer.done = true

/-- 43_transfer_engine R227: a stranded engine stays stranded until reset and moves no further word. -/
def Obligations.StrandedEngineMovesNothing : Prop :=
  ∀ s t : State, s.turn ≠ .reset → step s = .next t → s.xfer.stranded = true →
    t.xfer.stranded = true ∧ (t.queue = s.queue ∨ ∃ w, s.queue = w :: t.queue)

/-! ### WAVE -/

/-- 41_waveform R131: CONSTRUCT's three faults in their order, and the constructed producer (the host's own program is
log 4). -/
def Obligations.ConstructOutcomes : Prop :=
  ∀ (shape : BitVec 2) (rep : Bool) (s : State),
    (s.wave.ready = true → exec (.construct shape rep) s = .next (s.raise .hostProtocol)) ∧
    (s.wave.ready = false → s.wave.rate = 0 → exec (.construct shape rep) s = .next (s.raise .cfgSampleRate)) ∧
    (s.wave.ready = false → s.wave.rate ≠ 0 → shape = 3 → exec (.construct shape rep) s = .next (s.raise .cfgParam)) ∧
    (s.wave.ready = false → s.wave.rate ≠ 0 → shape ≠ 3 →
      exec (.construct shape rep) s = .next { s with
        wave := { s.wave with shape := shape, rep := rep, phase := 0, ready := true }
        host := ⟨s.hostRest s.host.result, s.host.result⟩ })

/-- 41_waveform R132, R139: NEXT_SAMPLE before construction is a breach, the Sine overflow under FAULT is PHASE_OVERFLOW,
and otherwise it returns the sample and advances the phase; a producer that CONSTRUCT refuses to build stops (log 16). -/
def Obligations.NextSampleOutcomes : Prop :=
  ∀ s : State,
    (s.wave.ready = false → exec .nextSample s = .next (s.raise .hostProtocol)) ∧
    (s.wave.ready = true → s.wave.rate = 0 ∨ s.wave.shape = 3 → exec .nextSample s = .refused .producerOutsideDomain) ∧
    (s.wave.ready = true → s.wave.rate ≠ 0 → s.wave.shape = 0 → s.wave.phase = 0xFFFFFFFF#32 →
      s.params.sineOverflow = .fault → exec .nextSample s = .next (s.raise .phaseOverflow)) ∧
    (s.wave.ready = true → s.wave.rate ≠ 0 → s.wave.shape ≠ 3 →
      (s.wave.shape = 0 → s.wave.phase = 0xFFFFFFFF#32 → s.params.sineOverflow = .wrap) →
      ∃ v p, s.wave.sample = some v ∧
        exec .nextSample s = .next { s with wave := { s.wave with phase := p }, host := ⟨s.hostRest v, v⟩ } ∧
        (s.wave.shape = 0 → p.toNat = if s.wave.phase = 0xFFFFFFFF#32 then 0 else s.wave.phase.toNat + 1) ∧
        (s.wave.shape ≠ 0 → s.wave.phase.toNat < s.wave.rate.toNat →
          p.toNat = if s.wave.phase.toNat + 1 = s.wave.rate.toNat then 0 else s.wave.phase.toNat + 1))

/-- 41_waveform R133 to R138: the sample of each shape and representation, in exact arithmetic on r and RATE; the Sine
cases in terms of COS_F32 (log 8), the fixed-point Sine through the value of its binary32 encoding, and the float Sawtooth
through the nearest binary32 value (00_scope R13; the format of binary32 is log 20). -/
def Obligations.SampleFollowsFormula : Prop :=
  ∀ (w : WaveState) (r : Nat), w.rate ≠ 0 → r = (w.phase.toNat * w.freq.toNat) % w.rate.toNat →
    (w.shape = 0 → w.rep = false → w.sample = some (cosF32 (BitVec.ofNat 32 r) w.rate)) ∧
    (w.shape = 0 → w.rep = true → ∃ v c, w.sample = some v ∧ c = cosF32 (BitVec.ofNat 32 r) w.rate ∧
      (c.getLsbD 31 = false → v.toNat = (2 ^ 149 + f32Units c) * (2 ^ 32 - 1) / 2 ^ 150) ∧
      (c.getLsbD 31 = true → v.toNat = (2 ^ 149 - f32Units c) * (2 ^ 32 - 1) / 2 ^ 150)) ∧
    (w.shape = 1 → w.rep = false → 2 * r < w.rate.toNat →
      w.sample = some (roundF32 true (w.rate.toNat - 2 * r) w.rate.toNat)) ∧
    (w.shape = 1 → w.rep = false → w.rate.toNat ≤ 2 * r →
      w.sample = some (roundF32 false (2 * r - w.rate.toNat) w.rate.toNat)) ∧
    (w.shape = 1 → w.rep = true → ∃ v, w.sample = some v ∧ v.toNat = r * (2 ^ 32 - 1) / w.rate.toNat) ∧
    (w.shape = 2 → w.rep = false → 2 * r < w.rate.toNat → w.sample = some 0x3F800000#32) ∧
    (w.shape = 2 → w.rep = false → w.rate.toNat ≤ 2 * r → w.sample = some 0xBF800000#32) ∧
    (w.shape = 2 → w.rep = true → 2 * r < w.rate.toNat → w.sample = some 0xFFFFFFFF#32) ∧
    (w.shape = 2 → w.rep = true → w.rate.toNat ≤ 2 * r → w.sample = some 0x00000000#32)

/-- 00_scope R13, on the range the Sawtooth needs: `roundF32` gives the binary32 value nearest to num / den, ties to
even, its sign in bit 31 alone, and +0.0 for 0. `f32Units` is a value's magnitude in units of 2^-149 (the format of
binary32 is log 20). -/
def Obligations.RoundF32IsNearestEven : Prop :=
  (∀ neg den, roundF32 neg 0 den = 0) ∧
  (∀ num den : Nat, 0 < num → num ≤ den →
    (roundF32 false num den).getLsbD 31 = false ∧
    roundF32 true num den = roundF32 false num den ||| 0x80000000#32 ∧
    ∀ c : Word, c.toNat < 0x7F800000 →
      |(f32Units (roundF32 false num den) * den : Int) - num * 2 ^ 149| ≤ |(f32Units c * den : Int) - num * 2 ^ 149| ∧
      (|(f32Units (roundF32 false num den) * den : Int) - num * 2 ^ 149| = |(f32Units c * den : Int) - num * 2 ^ 149| →
        c ≠ roundF32 false num den → (roundF32 false num den).getLsbD 0 = false))

/-- 41_waveform R137, P1 to P5, for every value of the free function under it (log 8). -/
def Obligations.CosineHasItsProperties : Prop :=
  ∀ r rate : Word, r.toNat < rate.toNat →
    (cosF32 r rate &&& 0x7FFFFFFF#32).toNat ≤ 0x3F800000 ∧
    (r = 0 → cosF32 r rate = 0x3F800000#32) ∧
    (2 * r.toNat = rate.toNat → cosF32 r rate = 0xBF800000#32) ∧
    (4 * r.toNat = rate.toNat ∨ 4 * r.toNat = 3 * rate.toNat → cosF32 r rate = 0x00000000#32) ∧
    (0 < r.toNat → cosF32 r rate = cosF32 (rate - r) rate)

/-- 10_state R39, 41_waveform R143: once constructed, and reset aside, the producer keeps its configuration, and its phase
changes only by NEXT_SAMPLE. -/
def Obligations.ProducerKeepsItsConfiguration : Prop :=
  ∀ s t : State, s.turn ≠ .reset → step s = .next t → s.wave.ready = true →
    t.wave.ready = true ∧ t.wave.shape = s.wave.shape ∧ t.wave.rep = s.wave.rep ∧ t.wave.freq = s.wave.freq ∧
    t.wave.rate = s.wave.rate ∧ (t.wave.phase ≠ s.wave.phase → s.turn = .host ∧ exec .nextSample s.tick = .next t)

/-! ### Registers -/

/-- 10_state R33, R29: the first read of SEQ_CLAIM acquires the unit and returns 1, a second raises CFG_NO_UNIT, and
writes are ignored (the host's own program is log 4). -/
def Obligations.ClaimOutcomes : Prop :=
  ∀ s : State,
    regAccess (.read .word 0x004#10) s = exec .claim s ∧
    (s.seq.claimed = false →
      exec .claim s = .next { s with seq := { s.seq with claimed := true }, host := ⟨s.hostRest 1, 1⟩ }) ∧
    (s.seq.claimed = true → exec .claim s = .next (s.raise .cfgNoUnit)) ∧
    (∀ v, regAccess (.write .word 0x004#10 v) s =
      .next { s with host := ⟨s.hostRest s.host.result, s.host.result⟩ })

/-- 10_state R29: CLAIMED is never cleared but by reset. -/
def Obligations.ClaimLastsUntilReset : Prop :=
  ∀ s t : State, s.turn ≠ .reset → step s = .next t → s.seq.claimed = true → t.seq.claimed = true

/-- 10_state R32: a write of SEQ_CTRL. RESTART while running is a breach; setting EN checks the claim, the divisor and
the threshold in that order; otherwise RESTART is applied and then EN (the host's own program is log 4; EN = 0 at once,
log 23). -/
def Obligations.SeqCtrlWriteOutcomes : Prop :=
  ∀ (v : Word) (s : State) (q : SeqState),
    q = (if v.getLsbD 1 then
      { s.seq with pc := s.seq.entry, x := 0, osr := 0, osc := 32, dly := 0, divCnt := 0, fracAcc := 0 } else s.seq) →
    (s.seq.en = true → v.getLsbD 1 = true → regAccess (.write .word 0x000#10 v) s = .next (s.raise .hostProtocol)) ∧
    (s.seq.en = false → v.getLsbD 0 = true →
      (s.seq.claimed = false → regAccess (.write .word 0x000#10 v) s = .next (s.raise .hostProtocol)) ∧
      (s.seq.claimed = true → s.seq.clkInt = 0 →
        regAccess (.write .word 0x000#10 v) s = .next (s.raise .cfgDivisor)) ∧
      (s.seq.claimed = true → s.seq.clkInt ≠ 0 → (s.seq.thresh.toNat = 0 ∨ 32 < s.seq.thresh.toNat) →
        regAccess (.write .word 0x000#10 v) s = .next (s.raise .cfgParam))) ∧
    ((s.seq.en = true → v.getLsbD 1 = false) →
      (s.seq.en = false → v.getLsbD 0 = true →
        s.seq.claimed = true ∧ s.seq.clkInt ≠ 0 ∧ 1 ≤ s.seq.thresh.toNat ∧ s.seq.thresh.toNat ≤ 32) →
      regAccess (.write .word 0x000#10 v) s =
        .next { s with seq := { q with en := v.getLsbD 0 }, host := ⟨s.hostRest s.host.result, s.host.result⟩ })

/-- 10_state R39, 20_memory R82: while SEQ runs, and reset aside, no step changes its configuration or its program. -/
def Obligations.SeqConfigLockedWhileRunning : Prop :=
  ∀ s t : State, s.turn ≠ .reset → step s = .next t → s.seq.en = true →
    t.seq.imem = s.seq.imem ∧ t.seq.clkInt = s.seq.clkInt ∧ t.seq.clkFrac = s.seq.clkFrac ∧
    t.seq.wrapBottom = s.seq.wrapBottom ∧ t.seq.wrapTop = s.seq.wrapTop ∧ t.seq.entry = s.seq.entry ∧
    t.seq.thresh = s.seq.thresh ∧ t.seq.dataPin = s.seq.dataPin ∧ t.seq.bclkPin = s.seq.bclkPin ∧
    t.seq.lrclkPin = s.seq.lrclkPin

/-- 10_state R34, R35, R36, R38, R39: with EN = 0 a SEQ configuration write completes and reads back with its reserved bits 0; an
IMEM write fills its slot and no other; with EN = 1 each is a breach. R42, R43: XF_LEN is written with no buffer submitted and
a buffer's registers while the host owns it. R48, R49: WV_CTRL with bit 3 = 0, WV_FREQ and WV_RATE are written before
construction. Otherwise each is a breach (the host's own program, which takes a buffer's address as it stands after the write,
is log 4). R33, R46, R52: writes of SEQ_CLAIM, XF_WAIT and WV_SAMPLE are ignored, and so are those of the other read-only
registers, SEQ_PC, XF_STATUS, WV_PHASE and WV_STATUS (log 9). -/
def Obligations.PlainWriteOutcomes : Prop :=
  ∀ (s : State) (v : Word) (h : HostState), h = ⟨s.hostRest s.host.result, s.host.result⟩ →
    (s.seq.en = false →
      (∃ t, regAccess (.write .word 0x008#10 v) s = .next t ∧ t.regValue .seqClkDiv = v &&& 0xFFFFFF00#32 ∧
        t = { s with seq := { s.seq with clkInt := t.seq.clkInt, clkFrac := t.seq.clkFrac }, host := h }) ∧
      (∃ t, regAccess (.write .word 0x00C#10 v) s = .next t ∧ t.regValue .seqCfg = v &&& 0x3F1F1F1F#32 ∧
        t = { s with seq := { s.seq with wrapBottom := t.seq.wrapBottom, wrapTop := t.seq.wrapTop, entry := t.seq.entry,
                                         thresh := t.seq.thresh }, host := h }) ∧
      (∃ t, regAccess (.write .word 0x010#10 v) s = .next t ∧ t.regValue .seqPins = v &&& 0x001F1F1F#32 ∧
        t = { s with seq := { s.seq with dataPin := t.seq.dataPin, bclkPin := t.seq.bclkPin, lrclkPin := t.seq.lrclkPin },
                     host := h }) ∧
      (∀ i : SlotIdx, ∃ t, regAccess (.write .word (Reg.imemWin i).offset v) s = .next t ∧
        t.seq.slot i = some (v.setWidth 16) ∧ (∀ j, j ≠ i → t.seq.slot j = s.seq.slot j) ∧
        t = { s with seq := { s.seq with imem := t.seq.imem }, host := h })) ∧
    (s.seq.en = true → ∀ o : RegOffset, o = 0x008#10 ∨ o = 0x00C#10 ∨ o = 0x010#10 ∨ (∃ i, o = (Reg.imemWin i).offset) →
      regAccess (.write .word o v) s = .next (s.raise .hostProtocol)) ∧
    (s.xfer.sub = [] → regAccess (.write .word 0x100#10 v) s =
      .next { s with xfer := { s.xfer with len := v }, host := h }) ∧
    (s.xfer.sub ≠ [] → regAccess (.write .word 0x100#10 v) s = .next (s.raise .hostProtocol)) ∧
    (∀ (b : BufId) (oAddr oLen : RegOffset), oAddr = (if b = .zero then 0x104#10 else 0x10C#10) →
      oLen = (if b = .zero then 0x108#10 else 0x110#10) →
      (s.xfer.owns b = false →
        (∃ t, regAccess (.write .word oAddr v) s = .next t ∧
          t = { s with xfer := t.xfer, host := ⟨{ s with xfer := t.xfer }.hostRest s.host.result, s.host.result⟩ } ∧
          t.xfer.buf b = { s.xfer.buf b with addr := v } ∧ t.xfer.buf (BufId.other b) = s.xfer.buf (BufId.other b) ∧
          t.xfer.sub = s.xfer.sub ∧ t.xfer.stranded = s.xfer.stranded ∧ t.xfer.len = s.xfer.len) ∧
        (∃ t, regAccess (.write .word oLen v) s = .next t ∧ t = { s with xfer := t.xfer, host := h } ∧
          t.xfer.buf b = { s.xfer.buf b with len := v } ∧ t.xfer.buf (BufId.other b) = s.xfer.buf (BufId.other b) ∧
          t.xfer.sub = s.xfer.sub ∧ t.xfer.stranded = s.xfer.stranded ∧ t.xfer.len = s.xfer.len)) ∧
      (s.xfer.owns b = true → regAccess (.write .word oAddr v) s = .next (s.raise .hostProtocol) ∧
        regAccess (.write .word oLen v) s = .next (s.raise .hostProtocol))) ∧
    (s.wave.ready = false →
      (v.getLsbD 3 = false → regAccess (.write .word 0x200#10 v) s =
        .next { s with wave := { s.wave with shape := v.setWidth 2, rep := v.getLsbD 2 }, host := h }) ∧
      regAccess (.write .word 0x204#10 v) s = .next { s with wave := { s.wave with freq := v }, host := h } ∧
      regAccess (.write .word 0x208#10 v) s = .next { s with wave := { s.wave with rate := v }, host := h }) ∧
    (s.wave.ready = true → ∀ o : RegOffset, o = 0x200#10 ∨ o = 0x204#10 ∨ o = 0x208#10 →
      regAccess (.write .word o v) s = .next (s.raise .hostProtocol)) ∧
    (∀ o : RegOffset, o = 0x004#10 ∨ o = 0x11C#10 ∨ o = 0x210#10 ∨ o = 0x014#10 ∨ o = 0x118#10 ∨ o = 0x20C#10 ∨ o = 0x214#10 →
      regAccess (.write .word o v) s = .next { s with host := h })

/-- 10_state R31, R32, R34 to R38, R42 to R45, R48, R49, R51, R53: the reads without a side effect. Each changes nothing but
what the host holds (its program is log 4, the delivery of the word log 25), and every bit of the word it returns is given
(XF_STATUS's in `StatusWordBits`); after reset SEQ_PC reads 0. -/
def Obligations.PlainReadLayouts : Prop :=
  (∀ s : State,
    (∃ v, regAccess (.read .word 0x000#10) s = .next (s.completeRead v) ∧ v.getLsbD 0 = s.seq.en ∧
      v.getLsbD 2 = s.seq.claimed ∧ ∀ k, k ≠ 0 → k ≠ 2 → v.getLsbD k = false) ∧
    (∃ v, regAccess (.read .word 0x008#10) s = .next (s.completeRead v) ∧ v.extractLsb' 16 16 = s.seq.clkInt ∧
      v.extractLsb' 8 8 = s.seq.clkFrac ∧ v.extractLsb' 0 8 = 0) ∧
    (∃ v, regAccess (.read .word 0x00C#10) s = .next (s.completeRead v) ∧ v.extractLsb' 0 5 = s.seq.wrapBottom ∧
      v.extractLsb' 8 5 = s.seq.wrapTop ∧ v.extractLsb' 16 5 = s.seq.entry ∧ v.extractLsb' 24 6 = s.seq.thresh ∧
      v &&& 0xC0E0E0E0#32 = 0) ∧
    (∃ v, regAccess (.read .word 0x010#10) s = .next (s.completeRead v) ∧ v.extractLsb' 0 5 = s.seq.dataPin ∧
      v.extractLsb' 8 5 = s.seq.bclkPin ∧ v.extractLsb' 16 5 = s.seq.lrclkPin ∧ v &&& 0xFFE0E0E0#32 = 0) ∧
    (∃ v, regAccess (.read .word 0x014#10) s = .next (s.completeRead v) ∧ v.setWidth 5 = s.seq.pc ∧
      v.getLsbD 8 = s.seq.data ∧ v.getLsbD 9 = s.seq.bclk ∧ v.getLsbD 10 = s.seq.lrclk ∧
      ∀ k, (5 ≤ k ∧ k ≤ 7) ∨ 11 ≤ k → v.getLsbD k = false) ∧
    (∀ i : SlotIdx, regAccess (.read .word (Reg.imemWin i).offset) s = .next (s.completeRead 0)) ∧
    regAccess (.read .word 0x100#10) s = .next (s.completeRead s.xfer.len) ∧
    regAccess (.read .word 0x104#10) s = .next (s.completeRead (s.xfer.buf .zero).addr) ∧
    regAccess (.read .word 0x108#10) s = .next (s.completeRead (s.xfer.buf .zero).len) ∧
    regAccess (.read .word 0x10C#10) s = .next (s.completeRead (s.xfer.buf .one).addr) ∧
    regAccess (.read .word 0x110#10) s = .next (s.completeRead (s.xfer.buf .one).len) ∧
    regAccess (.read .word 0x114#10) s = .next (s.completeRead 0) ∧
    regAccess (.read .word 0x118#10) s = .next (s.completeRead s.xfer.statusWord) ∧
    (∃ v, regAccess (.read .word 0x200#10) s = .next (s.completeRead v) ∧ v.setWidth 2 = s.wave.shape ∧
      v.getLsbD 2 = s.wave.rep ∧ ∀ k, 3 ≤ k → v.getLsbD k = false) ∧
    regAccess (.read .word 0x204#10) s = .next (s.completeRead s.wave.freq) ∧
    regAccess (.read .word 0x208#10) s = .next (s.completeRead s.wave.rate) ∧
    regAccess (.read .word 0x20C#10) s = .next (s.completeRead s.wave.phase) ∧
    (∃ v, regAccess (.read .word 0x214#10) s = .next (s.completeRead v) ∧ v.getLsbD 0 = s.wave.ready ∧
      ∀ k, 1 ≤ k → v.getLsbD k = false)) ∧
  State.reset.regValue .seqPc = 0

/-- 10_state R31: an access of another width, misaligned, or to an unlisted offset raises BAD_ACCESS, whatever it asks. -/
def Obligations.BadAccessRefused : Prop :=
  ∀ (width : Width) (o : RegOffset) (v : Word) (s : State),
    (width ≠ .word ∨ o.toNat % 4 ≠ 0 ∨ ∀ r : Reg, r.offset ≠ o) →
    regAccess (.read width o) s = .next (s.raise .badAccess) ∧
    regAccess (.write width o v) s = .next (s.raise .badAccess)

/-- 42_sequencer R161: CONFIGURE's checks in their order, and the divisor it writes while EN = 0 (the host's own
program is log 4, one step log 24). -/
def Obligations.ConfigureOutcomes : Prop :=
  ∀ (sysHz sr bd cpb d : Nat) (s : State), d = sysHz / (sr * 2 * bd * cpb) →
    ((bd < 2 ∨ 32 < bd) → configure sysHz sr bd cpb s = .next (s.raise .cfgParam)) ∧
    (2 ≤ bd → bd ≤ 32 → (cpb < 3 ∨ 10 < cpb) → configure sysHz sr bd cpb s = .next (s.raise .cfgParam)) ∧
    (2 ≤ bd → bd ≤ 32 → 3 ≤ cpb → cpb ≤ 10 →
      (sr = 0 → configure sysHz sr bd cpb s = .next (s.raise .cfgSampleRate)) ∧
      (0 < sr → d = 0 ∨ 65535 < d → configure sysHz sr bd cpb s = .next (s.raise .cfgDivisor)) ∧
      (0 < sr → 1 ≤ d → d ≤ 65535 →
        (s.seq.en = true → configure sysHz sr bd cpb s = .next (s.raise .hostProtocol)) ∧
        (s.seq.en = false → configure sysHz sr bd cpb s = .next { s with
          seq := { s.seq with clkInt := BitVec.ofNat 16 d, clkFrac := 0 }
          host := ⟨s.hostRest s.host.result, s.host.result⟩ })))

/-! ### Memory and the host -/

/-- 20_memory R78, points 2 and 3, and 00_scope R11: a host write that touches an engine-owned byte is a breach; any other stores
byte k of its value at the address plus k, modulo 2^32 (the model's choice, log 12), and leaves every other byte alone. A
host read is allowed in either ownership state: it returns the bytes, zero extended (log 12), and changes nothing but what
the host holds (log 4, log 25). Outside the register window (log 13) the host's memory accesses are these. -/
def Obligations.HostMemoryAccessOutcomes : Prop :=
  ∀ (width : Width) (a v : Word) (s : State),
    (Memory.wf s.mem = true →
      ((∃ k < Width.bytes width, s.xfer.guards (addrAt a k) = true) →
        hostMemWrite width a v s = .next (s.raise .hostProtocol)) ∧
      ((∀ k < Width.bytes width, s.xfer.guards (addrAt a k) = false) → ∃ t, hostMemWrite width a v s = .next t ∧
        t = { s with mem := t.mem, host := ⟨s.hostRest s.host.result, s.host.result⟩ } ∧
        (∀ k < Width.bytes width, Memory.read t.mem (addrAt a k) = v.extractLsb' (8 * k) 8) ∧
        (∀ i, (∀ k < Width.bytes width, i ≠ addrAt a k) → Memory.read t.mem i = Memory.read s.mem i))) ∧
    (∃ w : Word, hostMemRead width a s = .next { s with host := ⟨s.hostRest w, w⟩ } ∧
      (∀ k < Width.bytes width, w.extractLsb' (8 * k) 8 = Memory.read s.mem (addrAt a k)) ∧
      ∀ j, 8 * Width.bytes width ≤ j → w.getLsbD j = false) ∧
    (a.toNat < s.params.blockBase.toNat ∨ s.params.blockBase.toNat + 0x400 ≤ a.toNat →
      hostAccess (.memWrite width a v) s = hostMemWrite width a v s ∧
      hostAccess (.memRead width a) s = hostMemRead width a s)

/-- 20_memory R71: a word read back is the word stored, and a word read is the little-endian assembly of its bytes
(addresses modulo 2^32 are the model's choice, log 12). -/
def Obligations.WordsAreLittleEndian : Prop :=
  (∀ (m : Memory) (a v : Word), Memory.wf m = true → Memory.load (Memory.store m .word a v) .word a = v) ∧
  (∀ (m : Memory) (a : Word) (k : Nat), k < 4 →
    (Memory.load m .word a).extractLsb' (8 * k) 8 = Memory.read m (addrAt a k))

/-- 41_waveform R145: a FILL of one more word is a NEXT_SAMPLE, after which the host stores that sample at BUFADDRb + 4
* first and goes on at first + stride (one access a step, log 24). -/
def Obligations.FillStoresEachSample : Prop :=
  ∀ (s t : State) (b : BufId) (first stride n : Nat) (rest : List HostItem), s.turn = .host → s.fault = none →
    s.host.prog = .fill b first stride (n + 1) :: rest → step s = .next t → t.fault = none →
    exec .nextSample s.tick = .next t ∧ s.wave.sample = some t.host.result ∧
    t.host.prog =
      .access (.memWrite .word ((s.xfer.buf b).addr + BitVec.ofNat 32 (4 * first)) t.host.result) ::
        .fill b (first + stride) stride n :: rest

/-! ### Invariants and whole-machine rules -/

/-- Every step keeps memory in its canonical form. -/
def Obligations.StepKeepsMemoryForm : Prop :=
  ∀ s t : State, Memory.wf s.mem = true → step s = .next t → Memory.wf t.mem = true

/-- Every step keeps SEQ's invariant (10_state R24, R28, R32; 42_sequencer R160; the kept length is log 26). -/
def Obligations.StepKeepsSeqInvariant : Prop :=
  ∀ s t : State, s.seq.Inv → step s = .next t → t.seq.Inv

/-- Every step keeps XFER's invariant: distinct submitted buffers, each as SUBMIT_CHECK left it and not overlapping, drained
in order, and a queue within its capacity (10_state R41, R50; 43_transfer_engine R229, R234). -/
def Obligations.StepKeepsXferInvariant : Prop :=
  ∀ s t : State, s.XferInv → step s = .next t → t.XferInv

/-- Every step keeps WAVE's invariant (41_waveform R131, R139). -/
def Obligations.StepKeepsWaveInvariant : Prop :=
  ∀ s t : State, s.wave.Inv → step s = .next t → t.wave.Inv

/-- The invariants hold right after reset. -/
def Obligations.InvariantsHoldAtReset : Prop :=
  Memory.wf State.reset.mem = true ∧ State.reset.seq.Inv ∧ State.reset.XferInv ∧ State.reset.wave.Inv

/-- No step refuses, from any state that meets WAVE's invariant: the one refusal of the model is out of reach (log 16). -/
def Obligations.NoStepRefuses : Prop :=
  ∀ (s : State) (r : Refusal), s.wave.Inv → step s ≠ .refused r

/-- 70_reset R364, point 3: in a quiescent state the turns of the untimed reading change nothing but the schedule (the
schedule and the turn with no step are the model's choices, log 2 and log 3). -/
def Obligations.QuiescentStateStays : Prop :=
  ∀ s : State, s.quiescent → s.fault = none → s.turn = .seq ∨ s.turn = .xfer ∨ s.turn = .host → step s = .next s.tick
end

