-- ==== Sys2Proof/Laws/Decode.lean ====
section
/-! SUPPORT. What the decoders can answer. -/

namespace Sys2Proof

/-- A slot's word decodes to a SEQ instruction or to nothing. -/
theorem decodeSlot_isSeq {w : SlotWord} {i : Instr} (h : decodeSlot w = .ok i) : i.isSeq = true := by
  unfold decodeSlot at h
  repeat' split at h
  all_goals first
    | (cases h; rfl)
    | (cases h)

theorem decodeCommand_cases {v : Word} {i : Instr} (h : decodeCommand v = .ok i) :
    ∃ b, i = .start b ∨ i = .readNext b := by
  unfold decodeCommand at h
  repeat' split at h
  all_goals first
    | (cases h; exact ⟨_, .inl rfl⟩)
    | (cases h; exact ⟨_, .inr rfl⟩)
    | (cases h)

theorem decodeWrite_op {v : Word} {r : Reg} {i : Instr} (h : decodeWrite v r = .ok (.op i)) : i.isSeq = false := by
  cases r <;> simp only [decodeWrite, Except.ok.injEq, reduceCtorEq] at h
  case xfCmd =>
    cases hc : decodeCommand v with
    | error e => simp [hc, Except.map] at h
    | ok j =>
      simp only [hc, Except.map, Except.ok.injEq, HostAction.op.injEq] at h
      subst h
      obtain ⟨b, rfl | rfl⟩ := decodeCommand_cases hc <;> rfl
  case wvCtrl =>
    split at h
    · cases h; rfl
    · cases h

theorem decodeRead_op {r : Reg} {i : Instr} (h : decodeRead r = .op i) : i.isSeq = false := by
  cases r <;> simp only [decodeRead, HostAction.op.injEq, reduceCtorEq] at h <;> subst h <;> rfl

/-- A register access is never a SEQ instruction. -/
theorem decodeRegAccess_op {a : RegAccess} {i : Instr} (h : decodeRegAccess a = .ok (.op i)) : i.isSeq = false := by
  cases a with
  | read width o =>
    unfold decodeRegAccess at h
    cases ho : decodeOffset width o with
    | error e => simp [ho, Except.map] at h
    | ok r =>
      simp only [ho, Except.map, Except.ok.injEq] at h
      exact decodeRead_op h
  | write width o v =>
    unfold decodeRegAccess at h
    cases ho : decodeOffset width o with
    | error e => simp [ho, Except.bind] at h
    | ok r =>
      simp only [ho, Except.bind] at h
      exact decodeWrite_op h

end Sys2Proof
end

