-- ==== Sys2Proof/Laws/State.lean ====
section
/-! SUPPORT. One lemma per field per update of the state: what each named operation leaves and what it writes. -/

namespace Sys2Proof.Machine

variable (s : State)

/-! ### `State.raise` -/

@[simp] theorem State.raise_seq (c : FaultCode) : (s.raise c).seq = s.seq := by
  unfold State.raise; split <;> rfl

@[simp] theorem State.raise_queue (c : FaultCode) : (s.raise c).queue = s.queue := by
  unfold State.raise; split <;> rfl

@[simp] theorem State.raise_xfer (c : FaultCode) : (s.raise c).xfer = s.xfer := by
  unfold State.raise; split <;> rfl

@[simp] theorem State.raise_wave (c : FaultCode) : (s.raise c).wave = s.wave := by
  unfold State.raise; split <;> rfl

@[simp] theorem State.raise_mem (c : FaultCode) : (s.raise c).mem = s.mem := by
  unfold State.raise; split <;> rfl

@[simp] theorem State.raise_host (c : FaultCode) : (s.raise c).host = s.host := by
  unfold State.raise; split <;> rfl

@[simp] theorem State.raise_params (c : FaultCode) : (s.raise c).params = s.params := by
  unfold State.raise; split <;> rfl

@[simp] theorem State.raise_turns (c : FaultCode) : (s.raise c).turns = s.turns := by
  unfold State.raise; split <;> rfl

@[simp] theorem State.raise_draws (c : FaultCode) : (s.raise c).draws = s.draws := by
  unfold State.raise; split <;> rfl

@[simp] theorem State.raise_fault (c : FaultCode) : (s.raise c).fault = some (s.fault.getD c) := by
  unfold State.raise; split <;> simp_all

theorem State.raise_of_none (c : FaultCode) (h : s.fault = none) : s.raise c = { s with fault := some c } := by
  simp [State.raise, h]

theorem State.raise_of_some (c d : FaultCode) (h : s.fault = some d) : s.raise c = s := by
  simp [State.raise, h]

@[simp] theorem raise_eq (c : FaultCode) : raise c s = .next (s.raise c) := rfl

@[simp] theorem stall_eq : stall s = .next s := rfl

/-! ### `State.complete` -/

@[simp] theorem State.complete_queue (side : Side) (d : BitVec 3) (p : SlotIdx) : (s.complete side d p).queue = s.queue := rfl

@[simp] theorem State.complete_xfer (side : Side) (d : BitVec 3) (p : SlotIdx) : (s.complete side d p).xfer = s.xfer := rfl

@[simp] theorem State.complete_wave (side : Side) (d : BitVec 3) (p : SlotIdx) : (s.complete side d p).wave = s.wave := rfl

@[simp] theorem State.complete_mem (side : Side) (d : BitVec 3) (p : SlotIdx) : (s.complete side d p).mem = s.mem := rfl

@[simp] theorem State.complete_fault (side : Side) (d : BitVec 3) (p : SlotIdx) : (s.complete side d p).fault = s.fault := rfl

@[simp] theorem State.complete_host (side : Side) (d : BitVec 3) (p : SlotIdx) : (s.complete side d p).host = s.host := rfl

@[simp] theorem State.complete_params (side : Side) (d : BitVec 3) (p : SlotIdx) : (s.complete side d p).params = s.params := rfl

@[simp] theorem State.complete_turns (side : Side) (d : BitVec 3) (p : SlotIdx) : (s.complete side d p).turns = s.turns := rfl

@[simp] theorem State.complete_draws (side : Side) (d : BitVec 3) (p : SlotIdx) : (s.complete side d p).draws = s.draws := rfl

@[simp] theorem State.complete_seq_pc (side : Side) (d : BitVec 3) (p : SlotIdx) :
    (s.complete side d p).seq.pc = p := rfl

@[simp] theorem State.complete_seq_x (side : Side) (d : BitVec 3) (p : SlotIdx) :
    (s.complete side d p).seq.x = s.seq.x := rfl

@[simp] theorem State.complete_seq_osr (side : Side) (d : BitVec 3) (p : SlotIdx) :
    (s.complete side d p).seq.osr = s.seq.osr := rfl

@[simp] theorem State.complete_seq_osc (side : Side) (d : BitVec 3) (p : SlotIdx) :
    (s.complete side d p).seq.osc = s.seq.osc := rfl

@[simp] theorem State.complete_seq_dly (side : Side) (d : BitVec 3) (p : SlotIdx) :
    (s.complete side d p).seq.dly = d := rfl

@[simp] theorem State.complete_seq_data (side : Side) (d : BitVec 3) (p : SlotIdx) :
    (s.complete side d p).seq.data = s.seq.data := rfl

@[simp] theorem State.complete_seq_bclk (side : Side) (d : BitVec 3) (p : SlotIdx) :
    (s.complete side d p).seq.bclk = side.bclk := rfl

@[simp] theorem State.complete_seq_lrclk (side : Side) (d : BitVec 3) (p : SlotIdx) :
    (s.complete side d p).seq.lrclk = side.lr := rfl

@[simp] theorem State.complete_seq_imem (side : Side) (d : BitVec 3) (p : SlotIdx) :
    (s.complete side d p).seq.imem = s.seq.imem := rfl

@[simp] theorem State.complete_seq_divCnt (side : Side) (d : BitVec 3) (p : SlotIdx) :
    (s.complete side d p).seq.divCnt = s.seq.divCnt := rfl

@[simp] theorem State.complete_seq_fracAcc (side : Side) (d : BitVec 3) (p : SlotIdx) :
    (s.complete side d p).seq.fracAcc = s.seq.fracAcc := rfl

@[simp] theorem State.complete_seq_cycleLen (side : Side) (d : BitVec 3) (p : SlotIdx) :
    (s.complete side d p).seq.cycleLen = s.seq.cycleLen := rfl

@[simp] theorem State.complete_seq_en (side : Side) (d : BitVec 3) (p : SlotIdx) :
    (s.complete side d p).seq.en = s.seq.en := rfl

@[simp] theorem State.complete_seq_claimed (side : Side) (d : BitVec 3) (p : SlotIdx) :
    (s.complete side d p).seq.claimed = s.seq.claimed := rfl

@[simp] theorem State.complete_seq_clkInt (side : Side) (d : BitVec 3) (p : SlotIdx) :
    (s.complete side d p).seq.clkInt = s.seq.clkInt := rfl

@[simp] theorem State.complete_seq_clkFrac (side : Side) (d : BitVec 3) (p : SlotIdx) :
    (s.complete side d p).seq.clkFrac = s.seq.clkFrac := rfl

@[simp] theorem State.complete_seq_wrapBottom (side : Side) (d : BitVec 3) (p : SlotIdx) :
    (s.complete side d p).seq.wrapBottom = s.seq.wrapBottom := rfl

@[simp] theorem State.complete_seq_wrapTop (side : Side) (d : BitVec 3) (p : SlotIdx) :
    (s.complete side d p).seq.wrapTop = s.seq.wrapTop := rfl

@[simp] theorem State.complete_seq_entry (side : Side) (d : BitVec 3) (p : SlotIdx) :
    (s.complete side d p).seq.entry = s.seq.entry := rfl

@[simp] theorem State.complete_seq_thresh (side : Side) (d : BitVec 3) (p : SlotIdx) :
    (s.complete side d p).seq.thresh = s.seq.thresh := rfl

@[simp] theorem State.complete_seq_dataPin (side : Side) (d : BitVec 3) (p : SlotIdx) :
    (s.complete side d p).seq.dataPin = s.seq.dataPin := rfl

@[simp] theorem State.complete_seq_bclkPin (side : Side) (d : BitVec 3) (p : SlotIdx) :
    (s.complete side d p).seq.bclkPin = s.seq.bclkPin := rfl

@[simp] theorem State.complete_seq_lrclkPin (side : Side) (d : BitVec 3) (p : SlotIdx) :
    (s.complete side d p).seq.lrclkPin = s.seq.lrclkPin := rfl

/-! ### `State.completeRead` and `State.completeWrite` -/

@[simp] theorem State.completeRead_seq (v : Word) : (s.completeRead v).seq = s.seq := rfl

@[simp] theorem State.completeRead_queue (v : Word) : (s.completeRead v).queue = s.queue := rfl

@[simp] theorem State.completeRead_xfer (v : Word) : (s.completeRead v).xfer = s.xfer := rfl

@[simp] theorem State.completeRead_wave (v : Word) : (s.completeRead v).wave = s.wave := rfl

@[simp] theorem State.completeRead_mem (v : Word) : (s.completeRead v).mem = s.mem := rfl

@[simp] theorem State.completeRead_fault (v : Word) : (s.completeRead v).fault = s.fault := rfl

@[simp] theorem State.completeRead_params (v : Word) : (s.completeRead v).params = s.params := rfl

@[simp] theorem State.completeRead_turns (v : Word) : (s.completeRead v).turns = s.turns := rfl

@[simp] theorem State.completeRead_draws (v : Word) : (s.completeRead v).draws = s.draws := rfl

@[simp] theorem State.completeRead_result (v : Word) : (s.completeRead v).host.result = v := rfl

@[simp] theorem State.completeRead_prog (v : Word) : (s.completeRead v).host.prog = s.hostRest v := rfl

@[simp] theorem State.completeWrite_seq : s.completeWrite.seq = s.seq := rfl

@[simp] theorem State.completeWrite_queue : s.completeWrite.queue = s.queue := rfl

@[simp] theorem State.completeWrite_xfer : s.completeWrite.xfer = s.xfer := rfl

@[simp] theorem State.completeWrite_wave : s.completeWrite.wave = s.wave := rfl

@[simp] theorem State.completeWrite_mem : s.completeWrite.mem = s.mem := rfl

@[simp] theorem State.completeWrite_fault : s.completeWrite.fault = s.fault := rfl

@[simp] theorem State.completeWrite_params : s.completeWrite.params = s.params := rfl

@[simp] theorem State.completeWrite_turns : s.completeWrite.turns = s.turns := rfl

@[simp] theorem State.completeWrite_draws : s.completeWrite.draws = s.draws := rfl

@[simp] theorem State.completeWrite_result : s.completeWrite.host.result = s.host.result := rfl

@[simp] theorem State.completeWrite_prog : s.completeWrite.host.prog = s.hostRest s.host.result := rfl

/-! ### `State.tick` -/

@[simp] theorem State.tick_seq : s.tick.seq = s.seq := by
  unfold State.tick; split <;> rfl

@[simp] theorem State.tick_queue : s.tick.queue = s.queue := by
  unfold State.tick; split <;> rfl

@[simp] theorem State.tick_xfer : s.tick.xfer = s.xfer := by
  unfold State.tick; split <;> rfl

@[simp] theorem State.tick_wave : s.tick.wave = s.wave := by
  unfold State.tick; split <;> rfl

@[simp] theorem State.tick_mem : s.tick.mem = s.mem := by
  unfold State.tick; split <;> rfl

@[simp] theorem State.tick_fault : s.tick.fault = s.fault := by
  unfold State.tick; split <;> rfl

@[simp] theorem State.tick_host : s.tick.host = s.host := by
  unfold State.tick; split <;> rfl

@[simp] theorem State.tick_params : s.tick.params = s.params := by
  unfold State.tick; split <;> rfl

/-! ### `State.powerOnReset` -/

@[simp] theorem State.powerOnReset_seq : s.powerOnReset.seq = SeqState.reset := rfl

@[simp] theorem State.powerOnReset_queue : s.powerOnReset.queue = [] := rfl

@[simp] theorem State.powerOnReset_xfer : s.powerOnReset.xfer = XferState.reset := rfl

@[simp] theorem State.powerOnReset_wave : s.powerOnReset.wave = WaveState.reset := rfl

@[simp] theorem State.powerOnReset_mem : s.powerOnReset.mem = s.mem := rfl

@[simp] theorem State.powerOnReset_fault : s.powerOnReset.fault = none := rfl

@[simp] theorem State.powerOnReset_host : s.powerOnReset.host = s.host := rfl

@[simp] theorem State.powerOnReset_params : s.powerOnReset.params = s.params := rfl

@[simp] theorem State.powerOnReset_turns : s.powerOnReset.turns = s.turns := rfl

@[simp] theorem State.powerOnReset_draws : s.powerOnReset.draws = s.draws := rfl

/-! ### Buffers -/

variable (x : XferState) (b : BufId) (v : Buffer)

@[simp] theorem XferState.setBuf_sub : (x.setBuf b v).sub = x.sub := by cases b <;> rfl

@[simp] theorem XferState.setBuf_stranded : (x.setBuf b v).stranded = x.stranded := by cases b <;> rfl

@[simp] theorem XferState.setBuf_len : (x.setBuf b v).len = x.len := by cases b <;> rfl

@[simp] theorem XferState.buf_setBuf_same : (x.setBuf b v).buf b = v := by cases b <;> rfl

theorem XferState.buf_setBuf_of_ne {c : BufId} (h : c ≠ b) : (x.setBuf b v).buf c = x.buf c := by
  cases b <;> cases c <;> first | rfl | exact absurd rfl h

@[simp] theorem BufId.other_other : BufId.other (BufId.other b) = b := by cases b <;> rfl

theorem BufId.other_ne : BufId.other b ≠ b := by cases b <;> decide

theorem BufId.eq_other_of_ne {c : BufId} (h : c ≠ b) : c = BufId.other b := by
  cases b <;> cases c <;> first | rfl | exact absurd rfl h

@[simp] theorem XferState.submit_sub : (x.submit b).sub = x.sub ++ [b] := rfl

@[simp] theorem XferState.submit_stranded : (x.submit b).stranded = x.stranded := by cases b <;> rfl

@[simp] theorem XferState.submit_len : (x.submit b).len = x.len := by cases b <;> rfl

@[simp] theorem XferState.submit_buf_same : (x.submit b).buf b = { x.buf b with moved := 0 } := by cases b <;> rfl

theorem XferState.submit_buf_of_ne {c : BufId} (h : c ≠ b) : (x.submit b).buf c = x.buf c := by
  cases b <;> cases c <;> first | rfl | exact absurd rfl h

end Sys2Proof.Machine
end

