-- ==== Sys2Proof/Laws/Exec.lean ====
section
/-! SUPPORT. What each meaning, each host access and each turn can do, said once: every case in which it answers a next
state. Later proofs take these cases instead of unfolding the meanings. -/

namespace Sys2Proof.Machine

variable {s t : State}

/-! ### SEQ -/

theorem execJmp_next {side : Side} {d : BitVec 3} {a : SlotIdx} (h : execJmp side d a s = .next t) :
    t = s.complete side d a := by cases h; rfl

theorem execJmpXdec_next {side : Side} {d : BitVec 3} {a : SlotIdx} (h : execJmpXdec side d a s = .next t) :
    t = { s with seq := { s.seq with x := s.seq.x - 1 } }.complete side d
      (if s.seq.x ≠ 0 then a else s.seq.nextPc s.seq.pc) := by cases h; rfl

theorem execSetX_next {side : Side} {d : BitVec 3} {imm : BitVec 5} (h : execSetX side d imm s = .next t) :
    t = { s with seq := { s.seq with x := immValue imm } }.complete side d (s.seq.nextPc s.seq.pc) := by cases h; rfl

/-- The three cases of step 1 and step 2 of OUT_PINS. -/
theorem State.autopull_cases (s : State) :
    (s.seq.thresh ≤ s.seq.osc ∧ s.queue = [] ∧ s.autopull = none) ∨
    (s.seq.thresh ≤ s.seq.osc ∧ ∃ w rest, s.queue = w :: rest ∧ s.autopull = some (w, 0, rest)) ∨
    (¬ s.seq.thresh ≤ s.seq.osc ∧ s.autopull = some (s.seq.osr, s.seq.osc, s.queue)) := by
  unfold State.autopull
  by_cases h : s.seq.thresh ≤ s.seq.osc
  · cases hq : s.queue with
    | nil => exact .inl ⟨h, rfl, by simp [h]⟩
    | cons w rest => exact .inr (.inl ⟨h, w, rest, rfl, by simp [h]⟩)
  · exact .inr (.inr ⟨h, by simp [h]⟩)

theorem execOutPins_next {side : Side} {d : BitVec 3} (h : execOutPins side d s = .next t) :
    (s.autopull = none ∧ t = s) ∨
    ∃ osr osc queue, s.autopull = some (osr, osc, queue) ∧
      t = { s with queue := queue
                   seq := { s.seq with data := osr.getLsbD 31, osr := osr <<< 1, osc := osc + 1 } }.complete side d
            (s.seq.nextPc s.seq.pc) := by
  unfold execOutPins at h
  split at h
  · cases h; exact .inl ⟨‹_›, rfl⟩
  · cases h; exact .inr ⟨_, _, _, ‹_›, rfl⟩

/-! ### XFER -/

theorem execStart_next {b : BufId} (h : execStart b s = .next t) :
    (∃ c, t = s.raise c) ∨
    (s.xfer.sub = [] ∧ s.xfer.submitCheck b = none ∧ t = { s with xfer := s.xfer.submit b }.completeWrite) := by
  unfold execStart at h
  split at h
  · cases h; exact .inl ⟨_, rfl⟩
  · have hs : s.xfer.sub = [] := not_not.mp ‹_›
    split at h
    · cases h; exact .inl ⟨_, rfl⟩
    · cases h; exact .inr ⟨hs, ‹_›, rfl⟩

theorem execReadNext_next {b : BufId} (h : execReadNext b s = .next t) :
    (∃ c, t = s.raise c) ∨
    ∃ a, s.xfer.sub = [a] ∧ a ≠ b ∧ s.xfer.submitCheck b = none ∧
      t = { s with xfer := { s.xfer.submit b with
              stranded := s.xfer.stranded || (s.xfer.finished a && decide (s.params.lateSubmit = Config.LateSubmit.strand)) } }.completeWrite := by
  unfold execReadNext at h
  split at h
  · rename_i a hsub
    split at h
    · cases h; exact .inl ⟨_, rfl⟩
    · split at h
      · cases h; exact .inl ⟨_, rfl⟩
      · cases h; exact .inr ⟨a, hsub, ‹_›, ‹_›, rfl⟩
  · cases h; exact .inl ⟨_, rfl⟩

theorem execIsDone_next (h : execIsDone s = .next t) : t = s.completeRead s.xfer.statusWord := by cases h; rfl

theorem execWait_next (h : execWait s = .next t) :
    (∃ c, t = s.raise c) ∨ t = s ∨
    ∃ a rest, s.xfer.sub = a :: rest ∧ s.xfer.finished a = true ∧
      t = { s with xfer := { s.xfer with sub := rest } }.completeRead (waitWord a) := by
  unfold execWait at h
  split at h
  · cases h; exact .inl ⟨_, rfl⟩
  · split at h
    · cases h; exact .inr (.inr ⟨_, _, ‹_›, ‹_›, rfl⟩)
    · cases h; exact .inr (.inl rfl)

theorem XferState.active_some {x : XferState} {b : BufId} (h : x.active = some b) :
    x.stranded = false ∧ b ∈ x.sub ∧ (x.buf b).moved < x.len.toNat := by
  unfold XferState.active at h
  split at h
  · cases h
  · exact ⟨Bool.eq_false_of_not_eq_true ‹_›, List.mem_of_find?_eq_some h, by simpa using List.find?_some h⟩

theorem xferTurn_next (h : xferTurn s = .next t) :
    t = s ∨ ∃ b, s.xfer.active = some b ∧ s.queue.length < s.params.qDepth ∧
      t = { s with
        queue := s.queue ++ [Memory.load s.mem .word (s.xfer.buf b).nextAddr]
        xfer := s.xfer.setBuf b { s.xfer.buf b with moved := (s.xfer.buf b).moved + 1 } } := by
  unfold xferTurn at h
  split at h
  · cases h; exact .inl rfl
  · split at h
    · cases h; exact .inr ⟨_, ‹_›, ‹_›, rfl⟩
    · cases h; exact .inl rfl

/-! ### WAVE and the claim -/

theorem execConstruct_next {shape : BitVec 2} {rep : Bool} (h : execConstruct shape rep s = .next t) :
    (∃ c, t = s.raise c) ∨
    (s.wave.ready = false ∧ s.wave.rate ≠ 0 ∧ shape ≠ 3 ∧
      t = { s with wave := { s.wave with shape := shape, rep := rep, phase := 0, ready := true } }.completeWrite) := by
  unfold execConstruct at h
  repeat' split at h
  all_goals cases h
  · exact .inl ⟨_, rfl⟩
  · exact .inl ⟨_, rfl⟩
  · exact .inl ⟨_, rfl⟩
  · exact .inr ⟨by simpa using ‹¬ s.wave.ready = true›, ‹_›, ‹_›, rfl⟩

theorem execNextSample_next (h : execNextSample s = .next t) :
    (∃ c, t = s.raise c) ∨
    (s.wave.ready = true ∧ s.wave.rate ≠ 0 ∧ ∃ v p, s.wave.sample = some v ∧
      s.wave.nextPhase s.params.sineOverflow = some p ∧
      t = { s with wave := { s.wave with phase := p } }.completeRead v) := by
  unfold execNextSample at h
  repeat' split at h
  all_goals cases h
  · exact .inl ⟨_, rfl⟩
  · exact .inl ⟨_, rfl⟩
  · exact .inr ⟨by simpa using ‹¬ s.wave.ready = false›, ‹_›, _, _, ‹_›, ‹_›, rfl⟩

/-- The reserved shape is the only one with no sample. -/
theorem WaveState.sample_eq_none {w : WaveState} : w.sample = none ↔ w.shape = 3 := by
  unfold WaveState.sample
  have h : w.shape = 0 ∨ w.shape = 1 ∨ w.shape = 2 ∨ w.shape = 3 := by
    generalize w.shape = x
    revert x
    decide
  rcases h with h | h | h | h <;> simp [h]

theorem execClaim_next (h : execClaim s = .next t) :
    (∃ c, t = s.raise c) ∨
    (s.seq.claimed = false ∧ t = { s with seq := { s.seq with claimed := true } }.completeRead 1) := by
  unfold execClaim at h
  split at h
  · cases h; exact .inl ⟨_, rfl⟩
  · cases h; exact .inr ⟨by simpa using ‹¬ s.seq.claimed = true›, rfl⟩

/-! ### Plain register writes -/

theorem writeSeqCtrl_next {v : Word} (h : writeSeqCtrl v s = .next t) :
    (∃ c, t = s.raise c) ∨
    ((s.seq.en = true → v.getLsbD 1 = false) ∧ (s.seq.en = false → v.getLsbD 0 = true → s.seq.enableCheck = none) ∧
      t = { s with seq := { (if v.getLsbD 1 then s.seq.restart else s.seq) with en := v.getLsbD 0 } }.completeWrite) := by
  unfold writeSeqCtrl at h
  split at h
  · cases h; exact .inl ⟨_, rfl⟩
  · rename_i h1
    split at h
    · cases h; exact .inl ⟨_, rfl⟩
    · rename_i h2
      cases h
      refine .inr ⟨fun he => by simpa [he] using h1, fun he hv => by simpa [he, hv] using h2, rfl⟩

theorem writeSeqConfig_next {q : SeqState} (h : writeSeqConfig q s = .next t) :
    (∃ c, t = s.raise c) ∨ (s.seq.en = false ∧ t = { s with seq := q }.completeWrite) := by
  unfold writeSeqConfig at h
  split at h <;> cases h
  · exact .inl ⟨_, rfl⟩
  · exact .inr ⟨Bool.eq_false_of_not_eq_true ‹_›, rfl⟩

theorem writeBuffer_next {b : BufId} {u : Buffer} (h : writeBuffer b u s = .next t) :
    (∃ c, t = s.raise c) ∨ (s.xfer.owns b = false ∧ t = { s with xfer := s.xfer.setBuf b u }.completeWrite) := by
  unfold writeBuffer at h
  split at h <;> cases h
  · exact .inl ⟨_, rfl⟩
  · exact .inr ⟨Bool.eq_false_of_not_eq_true ‹_›, rfl⟩

theorem writeWaveConfig_next {w : WaveState} (h : writeWaveConfig w s = .next t) :
    (∃ c, t = s.raise c) ∨ (s.wave.ready = false ∧ t = { s with wave := w }.completeWrite) := by
  unfold writeWaveConfig at h
  split at h <;> cases h
  · exact .inl ⟨_, rfl⟩
  · exact .inr ⟨Bool.eq_false_of_not_eq_true ‹_›, rfl⟩

/-- What a plain register write does, with the condition under which it is allowed. -/
inductive PlainWriteEffect (s : State) (v : Word) : State → Prop where
  | fault (c : FaultCode) : PlainWriteEffect s v (s.raise c)
  | seqCtrl (h : s.seq.en = true → v.getLsbD 1 = false)
      (check : s.seq.en = false → v.getLsbD 0 = true → s.seq.enableCheck = none) :
      PlainWriteEffect s v
        { s with seq := { (if v.getLsbD 1 then s.seq.restart else s.seq) with en := v.getLsbD 0 } }.completeWrite
  | seqConfig (h : s.seq.en = false) (q : SeqState)
      (hq : q = s.seq.withClkDiv v ∨ q = s.seq.withCfg v ∨ q = s.seq.withPins v ∨
        ∃ i, q = s.seq.setSlot i (v.extractLsb' 0 16)) :
      PlainWriteEffect s v { s with seq := q }.completeWrite
  | xfLen (h : s.xfer.sub = []) : PlainWriteEffect s v { s with xfer := { s.xfer with len := v } }.completeWrite
  | buffer (b : BufId) (u : Buffer) (h : s.xfer.owns b = false) (hu : u.moved = (s.xfer.buf b).moved) :
      PlainWriteEffect s v { s with xfer := s.xfer.setBuf b u }.completeWrite
  | waveConfig (w : WaveState) (h : s.wave.ready = false) (hw : w.ready = false) (hp : w.phase = s.wave.phase) :
      PlainWriteEffect s v { s with wave := w }.completeWrite
  | ignored : PlainWriteEffect s v s.completeWrite

/-- The register writes that are no operation of the table. -/
theorem writeReg_next {r : PlainWrite} {v : Word} (h : writeReg r v s = .next t) : PlainWriteEffect s v t := by
  have seqCfg : ∀ q, (q = s.seq.withClkDiv v ∨ q = s.seq.withCfg v ∨ q = s.seq.withPins v ∨
      ∃ i, q = s.seq.setSlot i (v.extractLsb' 0 16)) → writeSeqConfig q s = .next t → PlainWriteEffect s v t := by
    intro q hq h
    obtain ⟨c, rfl⟩ | ⟨he, rfl⟩ := writeSeqConfig_next h
    · exact .fault c
    · exact .seqConfig he q hq
  have buf : ∀ b u, u.moved = (s.xfer.buf b).moved → writeBuffer b u s = .next t → PlainWriteEffect s v t := by
    intro b u hu h
    obtain ⟨c, rfl⟩ | ⟨ho, rfl⟩ := writeBuffer_next h
    · exact .fault c
    · exact .buffer b u ho hu
  have wave : ∀ w, w.ready = s.wave.ready → w.phase = s.wave.phase → writeWaveConfig w s = .next t →
      PlainWriteEffect s v t := by
    intro w hr hp h
    obtain ⟨c, rfl⟩ | ⟨ho, rfl⟩ := writeWaveConfig_next h
    · exact .fault c
    · exact .waveConfig w ho (hr.trans ho) hp
  cases r with
  | seqCtrl =>
    obtain ⟨c, rfl⟩ | ⟨h1, h2, rfl⟩ := writeSeqCtrl_next h
    · exact .fault c
    · exact .seqCtrl h1 h2
  | seqClkDiv => exact seqCfg _ (.inl rfl) h
  | seqCfg => exact seqCfg _ (.inr (.inl rfl)) h
  | seqPins => exact seqCfg _ (.inr (.inr (.inl rfl))) h
  | imemWin i => exact seqCfg _ (.inr (.inr (.inr ⟨i, rfl⟩))) h
  | xfLen =>
    simp only [writeReg] at h
    split at h <;> cases h
    · exact .fault _
    · exact .xfLen (not_not.mp ‹_›)
  | xfBufAddr b => exact buf b { s.xfer.buf b with addr := v } rfl h
  | xfBufLen b => exact buf b { s.xfer.buf b with len := v } rfl h
  | wvCtrl => exact wave { s.wave with shape := v.extractLsb' 0 2, rep := v.getLsbD 2 } rfl rfl h
  | wvFreq => exact wave { s.wave with freq := v } rfl rfl h
  | wvRate => exact wave { s.wave with rate := v } rfl rfl h
  | readOnly => cases h; exact .ignored

/-! ### The host -/

/-- What the host's program becomes depends on the host and on where the buffers lie alone. -/
theorem State.hostRest_congr {u : State} (v : Word) (h : u.host = s.host)
    (ha : ∀ b, (u.xfer.buf b).addr = (s.xfer.buf b).addr) : u.hostRest v = s.hostRest v := by
  have after : ∀ item, u.hostAfter v item = s.hostAfter v item := by
    intro item
    cases item with
    | fill b first stride n => cases n <;> simp [State.hostAfter, ha]
    | access | configure | refill | loop | environment => rfl
  simp [State.hostRest, h, after]

/-- What a host operation of the opcode table does when it answers a next state. -/
inductive HostOpEffect (s : State) : Instr → State → Prop where
  | fault (i : Instr) (c : FaultCode) : HostOpEffect s i (s.raise c)
  | blocked : HostOpEffect s .wait s
  | start (b : BufId) (h : s.xfer.sub = []) (check : s.xfer.submitCheck b = none) :
      HostOpEffect s (.start b) { s with xfer := s.xfer.submit b }.completeWrite
  | readNext (b a : BufId) (h : s.xfer.sub = [a]) (ne : a ≠ b) (check : s.xfer.submitCheck b = none) :
      HostOpEffect s (.readNext b) { s with xfer := { s.xfer.submit b with
        stranded := s.xfer.stranded || (s.xfer.finished a && decide (s.params.lateSubmit = Config.LateSubmit.strand)) }
        }.completeWrite
  | isDone : HostOpEffect s .isDone (s.completeRead s.xfer.statusWord)
  | reclaim (a : BufId) (rest : List BufId) (h : s.xfer.sub = a :: rest) (done : s.xfer.finished a = true) :
      HostOpEffect s .wait ({ s with xfer := { s.xfer with sub := rest } }.completeRead (waitWord a))
  | nextSample (v p : Word) (ready : s.wave.ready = true) (rate : s.wave.rate ≠ 0) (hv : s.wave.sample = some v)
      (hp : s.wave.nextPhase s.params.sineOverflow = some p) :
      HostOpEffect s .nextSample ({ s with wave := { s.wave with phase := p } }.completeRead v)
  | construct (shape : BitVec 2) (rep : Bool) (ready : s.wave.ready = false) (rate : s.wave.rate ≠ 0) (hs : shape ≠ 3) :
      HostOpEffect s (.construct shape rep)
        { s with wave := { s.wave with shape := shape, rep := rep, phase := 0, ready := true } }.completeWrite
  | claim (h : s.seq.claimed = false) :
      HostOpEffect s .claim ({ s with seq := { s.seq with claimed := true } }.completeRead 1)

theorem exec_hostOp_next {i : Instr} (hi : i.isSeq = false) (h : exec i s = .next t) : HostOpEffect s i t := by
  cases i with
  | jmp | jmpXdec | outPins | setX => cases hi
  | start b =>
    obtain ⟨c, rfl⟩ | ⟨h1, h2, rfl⟩ := execStart_next h
    · exact .fault _ c
    · exact .start b h1 h2
  | readNext b =>
    obtain ⟨c, rfl⟩ | ⟨a, h1, h2, h3, rfl⟩ := execReadNext_next h
    · exact .fault _ c
    · exact .readNext b a h1 h2 h3
  | isDone =>
    obtain rfl := execIsDone_next h
    exact .isDone
  | wait =>
    obtain ⟨c, rfl⟩ | rfl | ⟨a, rest, h1, h2, rfl⟩ := execWait_next h
    · exact .fault _ c
    · exact .blocked
    · exact .reclaim a rest h1 h2
  | nextSample =>
    obtain ⟨c, rfl⟩ | ⟨h1, h2, v, p, h3, h4, rfl⟩ := execNextSample_next h
    · exact .fault _ c
    · exact .nextSample v p h1 h2 h3 h4
  | construct shape rep =>
    obtain ⟨c, rfl⟩ | ⟨h1, h2, h3, rfl⟩ := execConstruct_next h
    · exact .fault _ c
    · exact .construct shape rep h1 h2 h3
  | claim =>
    obtain ⟨c, rfl⟩ | ⟨h1, rfl⟩ := execClaim_next h
    · exact .fault _ c
    · exact .claim h1

/-- The memory write of the host: refused as a breach, or done where no byte is guarded. -/
theorem hostMemWrite_next {width : Width} {a v : Word} (h : hostMemWrite width a v s = .next t) :
    (∃ c, t = s.raise c) ∨
    ((∀ k < Width.bytes width, s.xfer.guards (addrAt a k) = false) ∧
      t = { s with mem := Memory.store s.mem width a v }.completeWrite) := by
  unfold hostMemWrite at h
  split at h
  · cases h; exact .inl ⟨_, rfl⟩
  · rename_i hn
    cases h
    refine .inr ⟨fun k hk => ?_, rfl⟩
    by_contra hg
    exact hn (List.any_eq_true.mpr ⟨addrAt a k, List.mem_map.mpr ⟨k, List.mem_range.mpr hk, rfl⟩, by simpa using hg⟩)

/-- Everything the host's turn can do when it answers a next state. -/
inductive HostEffect (s : State) : State → Prop where
  | idle : HostEffect s s
  | fault (c : FaultCode) : HostEffect s (s.raise c)
  | read (v : Word) : HostEffect s (s.completeRead v)
  | write : HostEffect s s.completeWrite
  | op (i : Instr) (t : State) (hi : i.isSeq = false) (h : exec i s = .next t) : HostEffect s t
  | plainWrite (v : Word) (t : State) (h : PlainWriteEffect s v t) : HostEffect s t
  | memWrite (width : Width) (a v : Word) (free : ∀ k < Width.bytes width, s.xfer.guards (addrAt a k) = false) :
      HostEffect s { s with mem := Memory.store s.mem width a v }.completeWrite

theorem regAccess_next {a : RegAccess} (h : regAccess a s = .next t) : HostEffect s t := by
  unfold regAccess at h
  split at h
  · cases h; exact .fault _
  · exact .op _ t (decodeRegAccess_op ‹_›) h
  · cases h; exact .read _
  · exact .plainWrite _ t (writeReg_next h)

theorem hostAccess_next {a : Access} (h : hostAccess a s = .next t) : HostEffect s t := by
  unfold hostAccess at h
  split at h
  · exact regAccess_next h
  · cases h; exact .read _
  · obtain ⟨c, rfl⟩ | ⟨hg, rfl⟩ := hostMemWrite_next h
    · exact .fault c
    · exact .memWrite _ _ _ hg

theorem configure_next {sysHz sr bd cpb : Nat} (h : configure sysHz sr bd cpb s = .next t) : HostEffect s t := by
  unfold configure at h
  split at h
  · cases h; exact .fault _
  · exact .plainWrite _ t (writeReg_next h)

theorem hostTurn_next (h : hostTurn s = .next t) : HostEffect s t := by
  unfold hostTurn at h
  split at h
  · cases h; exact .idle
  · unfold hostItem at h
    split at h
    · exact configure_next h
    · split at h
      · exact hostAccess_next h
      · cases h; exact .write

/-! ### SEQ's cycle and the clock -/

theorem seqCycle_next (h : seqCycle s = .next t) :
    (s.seq.dly ≠ 0 ∧ t = { s with seq := { s.seq with dly := s.seq.dly - 1 } }) ∨
    (s.seq.dly = 0 ∧ ∃ c, t = s.raise c) ∨
    (s.seq.dly = 0 ∧ ∃ w i, s.seq.slot s.seq.pc = some w ∧ decodeSlot w = .ok i ∧ i.isSeq = true ∧ exec i s = .next t) := by
  unfold seqCycle at h
  split at h
  · cases h; exact .inl ⟨‹_›, rfl⟩
  · have hd : s.seq.dly = 0 := not_not.mp ‹_›
    split at h
    · cases h; exact .inr (.inl ⟨hd, _, rfl⟩)
    · split at h
      · cases h; exact .inr (.inl ⟨hd, _, rfl⟩)
      · exact .inr (.inr ⟨hd, _, _, ‹_›, ‹_›, decodeSlot_isSeq ‹_›, h⟩)

theorem seqTurn_next (h : seqTurn s = .next t) : (s.seq.en = false ∧ t = s) ∨ (s.seq.en = true ∧ seqCycle s = .next t) := by
  unfold seqTurn at h
  split at h
  · exact .inr ⟨‹_›, h⟩
  · cases h; exact .inl ⟨Bool.eq_false_of_not_eq_true ‹_›, rfl⟩

theorem clockTurn_next (h : clockTurn s = .next t) :
    (s.seq.en = false ∧ t = s) ∨
    (s.seq.en = true ∧ s.seq.divCnt ≠ 0 ∧ t = { s with seq := s.seq.countCycle }) ∨
    (s.seq.en = true ∧ s.seq.divCnt = 0 ∧ ∃ u, seqCycle s = .next u ∧
      ((u.fault = s.fault ∧ t = { u with seq := u.seq.startCycle.countCycle }) ∨ (u.fault ≠ s.fault ∧ t = u))) := by
  unfold clockTurn at h
  split at h
  · cases h; exact .inl ⟨‹_›, rfl⟩
  · have he : s.seq.en = true := by simpa using ‹¬ s.seq.en = false›
    split at h
    · cases h; exact .inr (.inl ⟨he, ‹_›, rfl⟩)
    · have hd : s.seq.divCnt = 0 := not_not.mp ‹_›
      split at h
      · rename_i u hu
        split at h <;> cases h
        · exact .inr (.inr ⟨he, hd, u, hu, .inl ⟨‹_›, rfl⟩⟩)
        · exact .inr (.inr ⟨he, hd, t, hu, .inr ⟨‹_›, rfl⟩⟩)
      · cases h
      · cases h

/-! ### The step -/

/-- A step that answers a next state is a reset or a turn taken with no fault recorded. -/
theorem step_next (h : step s = .next t) :
    (s.turn = .reset ∧ t = s.tick.powerOnReset) ∨ (s.turn ≠ .reset ∧ s.fault = none ∧ agentTurn s.turn s.tick = .next t) := by
  unfold step at h
  split at h
  · cases h; exact .inl ⟨‹_›, rfl⟩
  · split at h
    · cases h
    · exact .inr ⟨‹_›, ‹_›, h⟩

end Sys2Proof.Machine
end

