-- ==== Sys2Proof/Laws/Memory.lean ====
section
/-! SUPPORT. System memory: the canonical form is kept, a read after a write gives the byte written, and a write leaves
every other byte alone. -/

namespace Sys2Proof.Machine

theorem Memory.wfFrom_cons {lo a : Nat} {v : Byte} {m : Memory} :
    Memory.wfFrom lo ((a, v) :: m) = true ↔
      lo ≤ a ∧ a < 2 ^ 32 ∧ v ≠ Memory.unlisted ∧ Memory.wfFrom (a + 1) m = true := by
  simp [Memory.wfFrom, and_assoc]

theorem Memory.wfFrom_mono {m : Memory} {lo hi : Nat} (h : lo ≤ hi) (w : Memory.wfFrom hi m = true) :
    Memory.wfFrom lo m = true := by
  cases m with
  | nil => rfl
  | cons c m =>
    obtain ⟨a, v⟩ := c
    rw [Memory.wfFrom_cons] at w ⊢
    exact ⟨le_trans h w.1, w.2⟩

/-- Below the first listed address every byte reads as unlisted. -/
theorem Memory.read_of_lt {m : Memory} {lo a : Nat} (w : Memory.wfFrom lo m = true) (h : a < lo) :
    Memory.read m a = Memory.unlisted := by
  induction m generalizing lo with
  | nil => rfl
  | cons c m ih =>
    obtain ⟨b, v⟩ := c
    rw [Memory.wfFrom_cons] at w
    have hb : a ≠ b := by omega
    simp only [Memory.read, if_neg hb]
    exact ih w.2.2.2 (by omega)

theorem Memory.wfFrom_write {m : Memory} {lo a : Nat} {v : Byte} (hl : lo ≤ a) (ha : a < 2 ^ 32)
    (w : Memory.wfFrom lo m = true) : Memory.wfFrom lo (Memory.write m a v) = true := by
  induction m generalizing lo with
  | nil =>
    unfold Memory.write
    split
    · rfl
    · exact Memory.wfFrom_cons.mpr ⟨hl, ha, ‹_›, rfl⟩
  | cons c m ih =>
    obtain ⟨b, x⟩ := c
    have w' := Memory.wfFrom_cons.mp w
    unfold Memory.write
    split
    · split
      · exact w
      · exact Memory.wfFrom_cons.mpr ⟨hl, ha, ‹_›, Memory.wfFrom_cons.mpr ⟨by omega, w'.2⟩⟩
    · split
      · split
        · exact Memory.wfFrom_mono (by omega) w'.2.2.2
        · exact Memory.wfFrom_cons.mpr ⟨hl, ha, ‹_›, by subst b; exact w'.2.2.2⟩
      · exact Memory.wfFrom_cons.mpr ⟨w'.1, w'.2.1, w'.2.2.1, ih (by omega) w'.2.2.2⟩

/-- A write below 2^32 keeps the canonical form. -/
theorem Memory.wf_write {m : Memory} {a : Nat} {v : Byte} (ha : a < 2 ^ 32) (w : Memory.wf m = true) :
    Memory.wf (Memory.write m a v) = true := Memory.wfFrom_write (Nat.zero_le a) ha w

theorem Memory.wfFrom_read_write {m : Memory} {lo a b : Nat} {v : Byte} (w : Memory.wfFrom lo m = true) :
    Memory.read (Memory.write m a v) b = if b = a then v else Memory.read m b := by
  induction m generalizing lo with
  | nil =>
    unfold Memory.write
    split <;> by_cases hb : b = a <;> simp_all [Memory.read]
  | cons c m ih =>
    obtain ⟨k, x⟩ := c
    have w' := Memory.wfFrom_cons.mp w
    unfold Memory.write
    split
    · split
      · by_cases hb : b = a
        · rw [if_pos hb, Memory.read_of_lt (lo := k) (Memory.wfFrom_cons.mpr ⟨le_refl k, w'.2⟩) (by omega)]
          exact Eq.symm ‹_›
        · rw [if_neg hb]
      · rfl
    · split
      · rename_i hk
        subst hk
        split
        · by_cases hb : b = a
          · rw [if_pos hb, Memory.read_of_lt w'.2.2.2 (by omega)]
            exact Eq.symm ‹_›
          · simp [Memory.read, hb]
        · by_cases hb : b = a <;> simp [Memory.read, hb]
      · have hk : ¬ a = k := ‹_›
        simp only [Memory.read]
        by_cases hb : b = k
        · have : ¬ b = a := by omega
          rw [if_pos hb, if_neg this, if_pos hb]
        · simp [hb, ih w'.2.2.2]

/-- A read after a write, at every address. -/
theorem Memory.read_write {m : Memory} {a b : Nat} {v : Byte} (w : Memory.wf m = true) :
    Memory.read (Memory.write m a v) b = if b = a then v else Memory.read m b := Memory.wfFrom_read_write w

theorem addrAt_lt (a : Word) (k : Nat) : addrAt a k < 2 ^ 32 := BitVec.isLt _

theorem Memory.wf_storeBytes {m : Memory} (a v : Word) (n : Nat) (w : Memory.wf m = true) :
    Memory.wf (Memory.storeBytes m a v n) = true := by
  induction n with
  | zero => exact w
  | succ k ih => exact Memory.wf_write (addrAt_lt a k) ih

/-- A host store keeps the canonical form. -/
theorem Memory.wf_store {m : Memory} (width : Width) (a v : Word) (w : Memory.wf m = true) :
    Memory.wf (Memory.store m width a v) = true := Memory.wf_storeBytes a v _ w

/-- A store leaves every byte outside the stored addresses alone. -/
theorem Memory.read_storeBytes_of_notMem {m : Memory} {a v : Word} {n i : Nat} (w : Memory.wf m = true)
    (h : ∀ k < n, i ≠ addrAt a k) : Memory.read (Memory.storeBytes m a v n) i = Memory.read m i := by
  induction n with
  | zero => rfl
  | succ k ih =>
    rw [Memory.storeBytes, Memory.read_write (Memory.wf_storeBytes a v k w), if_neg (h k (Nat.lt_succ_self k))]
    exact ih (fun j hj => h j (Nat.lt_succ_of_lt hj))

theorem addrAt_inj {a : Word} {j k : Nat} (hj : j < 2 ^ 32) (hk : k < 2 ^ 32) (h : addrAt a j = addrAt a k) : j = k := by
  have h1 : a + BitVec.ofNat 32 j = a + BitVec.ofNat 32 k := BitVec.eq_of_toNat_eq h
  have h2 : BitVec.ofNat 32 j = BitVec.ofNat 32 k := by simpa using h1
  have h3 := congrArg BitVec.toNat h2
  rwa [BitVec.toNat_ofNat, BitVec.toNat_ofNat, Nat.mod_eq_of_lt hj, Nat.mod_eq_of_lt hk] at h3

/-- A store puts byte `k` of the value at `a + k`. -/
theorem Memory.read_storeBytes {m : Memory} {a v : Word} {n k : Nat} (w : Memory.wf m = true) (hn : n ≤ 2 ^ 32)
    (hk : k < n) : Memory.read (Memory.storeBytes m a v n) (addrAt a k) = v.extractLsb' (8 * k) 8 := by
  induction n with
  | zero => omega
  | succ j ih =>
    rw [Memory.storeBytes, Memory.read_write (Memory.wf_storeBytes a v j w)]
    by_cases h : k = j
    · subst h; simp
    · have : addrAt a k ≠ addrAt a j := fun e => h (addrAt_inj (by omega) (by omega) e)
      rw [if_neg this]
      exact ih (by omega) (by omega)

/-- The reset memory has the canonical form. -/
theorem Memory.wf_reset : Memory.wf State.reset.mem = true := rfl

end Sys2Proof.Machine
end

