-- ==== Sys2Proof/Laws/PerInstr.lean ====
section
/-! SUPPORT. Per instruction: its word fits its own row of spec/opcode_table.json, mask and match. -/

namespace Sys2Proof.Laws.FitsRow

/-- Mask and match of an instruction's row, as spec/opcode_table.json gives them. -/
def row : Instr → Nat × Nat
  | .jmp _ _ _ => (0xE0E0, 0x0000)
  | .jmpXdec _ _ _ => (0xE0E0, 0x0040)
  | .outPins _ _ => (0xE0FF, 0x6001)
  | .setX _ _ _ => (0xE0E0, 0xE020)
  | .start _ => (0xFFFFFFFE, 0x10000000)
  | .readNext _ => (0xFFFFFFFE, 0x20000000)
  | .isDone => (0xFFFFFFFF, 0x118)
  | .wait => (0xFFFFFFFF, 0x11C)
  | .nextSample => (0xFFFFFFFF, 0x210)
  | .construct _ _ => (0xFFFFFFF8, 0x00000008)
  | .claim => (0xFFFFFFFF, 0x004)

/-- The word of `i`, masked by its row's mask, is its row's match. -/
def Statement (i : Instr) : Prop := (tableWord i).2 &&& (row i).1 = (row i).2

theorem jmp (side : Side) (delay : BitVec 3) (addr : SlotIdx) : Statement (.jmp side delay addr) := by
  obtain ⟨lr, bclk⟩ := side
  revert lr bclk delay addr
  unfold Statement
  decide

theorem jmpXdec (side : Side) (delay : BitVec 3) (addr : SlotIdx) : Statement (.jmpXdec side delay addr) := by
  obtain ⟨lr, bclk⟩ := side
  revert lr bclk delay addr
  unfold Statement
  decide

theorem outPins (side : Side) (delay : BitVec 3) : Statement (.outPins side delay) := by
  obtain ⟨lr, bclk⟩ := side
  revert lr bclk delay
  unfold Statement
  decide

theorem setX (side : Side) (delay : BitVec 3) (imm : BitVec 5) : Statement (.setX side delay imm) := by
  obtain ⟨lr, bclk⟩ := side
  revert lr bclk delay imm
  unfold Statement
  decide

theorem start (buf : BufId) : Statement (.start buf) := by cases buf <;> rfl

theorem readNext (buf : BufId) : Statement (.readNext buf) := by cases buf <;> rfl

theorem isDone : Statement .isDone := rfl

theorem wait : Statement .wait := rfl

theorem nextSample : Statement .nextSample := rfl

theorem construct (shape : BitVec 2) (rep : Bool) : Statement (.construct shape rep) := by
  revert shape rep
  unfold Statement
  decide

theorem claim : Statement .claim := rfl

end Sys2Proof.Laws.FitsRow
end

