-- ==== Sys2Proof/Laws/Turns.lean ====
section
/-! SUPPORT. What a step can do, turn by turn: SEQ's turn and the clock's share one effect, and every step that is no
reset is XFER's, the host's, or a sequencer cycle's. -/

namespace Sys2Proof.Machine

variable {s t : State}

/-- What every sequencer cycle keeps of SEQ's registers, and how it moves OSC. -/
structure SeqState.Cycles (p q : SeqState) : Prop where
  imem       : q.imem = p.imem
  en         : q.en = p.en
  claimed    : q.claimed = p.claimed
  clkInt     : q.clkInt = p.clkInt
  clkFrac    : q.clkFrac = p.clkFrac
  wrapBottom : q.wrapBottom = p.wrapBottom
  wrapTop    : q.wrapTop = p.wrapTop
  entry      : q.entry = p.entry
  thresh     : q.thresh = p.thresh
  dataPin    : q.dataPin = p.dataPin
  bclkPin    : q.bclkPin = p.bclkPin
  lrclkPin   : q.lrclkPin = p.lrclkPin
  osc        : q.osc = p.osc ∨ q.osc = 1 ∨ (p.osc < p.thresh ∧ q.osc = p.osc + 1)

/-- A SEQ instruction writes SEQ's registers and may take the head of Q; it raises no fault. -/
theorem exec_seq_next {i : Instr} (hi : i.isSeq = true) (h : exec i s = .next t) :
    ∃ q qu, t = { s with seq := q, queue := qu } ∧ (qu = s.queue ∨ ∃ w, s.queue = w :: qu) ∧ SeqState.Cycles s.seq q ∧
      (q.data ≠ s.seq.data → i.mnemonic = "OUT_PINS") := by
  cases i with
  | start | readNext | isDone | wait | nextSample | construct | claim => cases hi
  | jmp =>
    obtain rfl := execJmp_next h
    exact ⟨_, _, rfl, .inl rfl, by constructor <;> simp, by simp⟩
  | jmpXdec =>
    obtain rfl := execJmpXdec_next h
    exact ⟨_, _, rfl, .inl rfl, by constructor <;> simp, by simp⟩
  | setX =>
    obtain rfl := execSetX_next h
    exact ⟨_, _, rfl, .inl rfl, by constructor <;> simp, by simp⟩
  | outPins =>
    obtain ⟨_, rfl⟩ | ⟨osr, osc, qu, ha, rfl⟩ := execOutPins_next h
    · exact ⟨_, _, rfl, .inl rfl, by constructor <;> simp, fun _ => rfl⟩
    obtain ⟨_, _, h3⟩ | ⟨_, w, rest, h2, h3⟩ | ⟨h1, h3⟩ := s.autopull_cases <;> rw [h3] at ha <;> cases ha
    · exact ⟨_, _, rfl, .inr ⟨_, h2⟩, by constructor <;> simp, fun _ => rfl⟩
    · refine ⟨_, _, rfl, .inl rfl, ?_, fun _ => rfl⟩
      constructor <;> simp
      exact .inr (by simpa [BitVec.le_def, BitVec.lt_def] using h1)

/-- A sequencer cycle raises a fault or keeps everything but SEQ's registers and the head of Q. -/
theorem seqCycle_effect (h : seqCycle s = .next t) :
    (∃ c, t = s.raise c) ∨
    ∃ q qu, t = { s with seq := q, queue := qu } ∧ (qu = s.queue ∨ ∃ w, s.queue = w :: qu) ∧ SeqState.Cycles s.seq q := by
  obtain ⟨_, rfl⟩ | ⟨_, c, rfl⟩ | ⟨_, w, i, _, _, hi, hx⟩ := seqCycle_next h
  · exact .inr ⟨_, _, rfl, .inl rfl, by constructor <;> simp⟩
  · exact .inl ⟨c, rfl⟩
  · obtain ⟨q, qu, h1, h2, h3, _⟩ := exec_seq_next hi hx
    exact .inr ⟨q, qu, h1, h2, h3⟩

/-- SEQ's turn and the clock's: idle, a fault, or the effect of a cycle of a running SEQ. -/
inductive CycleEffect (s : State) : State → Prop where
  | idle : CycleEffect s s
  | fault (c : FaultCode) : CycleEffect s (s.raise c)
  | cycle (q : SeqState) (qu : List Word) (en : s.seq.en = true) (hq : qu = s.queue ∨ ∃ w, s.queue = w :: qu)
      (keep : SeqState.Cycles s.seq q) : CycleEffect s { s with seq := q, queue := qu }

theorem cycleTurn_next (hf : s.fault = none) (h : agentTurn .seq s = .next t ∨ agentTurn .clock s = .next t) :
    CycleEffect s t := by
  obtain h | h := h
  · obtain ⟨_, rfl⟩ | ⟨he, h⟩ := seqTurn_next h
    · exact .idle
    · obtain ⟨c, rfl⟩ | ⟨q, qu, rfl, h2, h3⟩ := seqCycle_effect h
      · exact .fault c
      · exact .cycle q qu he h2 h3
  · obtain ⟨_, rfl⟩ | ⟨he, _, rfl⟩ | ⟨he, _, u, hu, h⟩ := clockTurn_next h
    · exact .idle
    · exact .cycle _ _ he (.inl rfl) (by constructor <;> simp [SeqState.countCycle])
    · obtain ⟨c, rfl⟩ | ⟨q, qu, rfl, h2, h3⟩ := seqCycle_effect hu
      · obtain ⟨h, _⟩ | ⟨_, rfl⟩ := h
        · simp [State.raise, hf] at h
        · exact .fault c
      · obtain ⟨_, rfl⟩ | ⟨h, _⟩ := h
        · exact .cycle _ _ he h2
            ⟨h3.imem, h3.en, h3.claimed, h3.clkInt, h3.clkFrac, h3.wrapBottom, h3.wrapTop, h3.entry, h3.thresh, h3.dataPin,
              h3.bclkPin, h3.lrclkPin, h3.osc⟩
        · exact absurd rfl h

/-- Every step that is no reset: XFER's turn, the host's, or a sequencer cycle's. -/
theorem step_cases (ht : s.turn ≠ .reset) (h : step s = .next t) :
    s.fault = none ∧
      ((s.turn = .xfer ∧ xferTurn s.tick = .next t) ∨
       (s.turn = .host ∧ hostTurn s.tick = .next t) ∨
       ((s.turn = .seq ∨ s.turn = .clock) ∧ agentTurn s.turn s.tick = .next t ∧ CycleEffect s.tick t)) := by
  obtain ⟨h1, _⟩ | ⟨_, hf, h⟩ := step_next h
  · exact absurd h1 ht
  refine ⟨hf, ?_⟩
  cases hh : s.turn with
  | seq => rw [hh] at h; exact .inr (.inr ⟨.inl rfl, h, cycleTurn_next (by simpa using hf) (.inl h)⟩)
  | xfer => rw [hh] at h; exact .inl ⟨rfl, h⟩
  | host => rw [hh] at h; exact .inr (.inl ⟨rfl, h⟩)
  | clock => rw [hh] at h; exact .inr (.inr ⟨.inr rfl, h, cycleTurn_next (by simpa using hf) (.inr h)⟩)
  | reset => exact absurd hh ht

end Sys2Proof.Machine
end

