-- ==== Sys2Proof/Laws/Runs.lean ====
section
/-! SUPPORT. What the completion of a buffer is in a run (43_transfer_engine R229, 70_reset R362). -/

namespace Sys2Proof.Machine

variable {s t : State} {b : BufId}

/-- Whether a buffer is finished depends on its own count and on XF_LEN alone. -/
theorem XferState.finished_congr {x y : XferState} (hb : x.buf b = y.buf b) (hl : x.len = y.len) : x.finished b = y.finished b := by
  simp only [XferState.finished, hb, hl]

/-- A step completes a buffer only as XFER's turn. -/
theorem step_completes (h : step s = .next t) (hd : s.xfer.drains b) (hf : t.xfer.drained b) : s.turn = .xfer := by
  obtain ⟨hm, hu⟩ := hd
  obtain ⟨hm', hu'⟩ := hf
  have ht : s.turn ≠ .reset := fun hr => by
    obtain ⟨_, rfl⟩ | ⟨hn, _⟩ := step_next h
    · simp [XferState.reset] at hm'
    · exact hn hr
  have same : t.xfer.buf b = s.xfer.buf b → t.xfer.len ≠ s.xfer.len := fun hb hl => by
    rw [XferState.finished_congr hb hl, hu] at hu'; cases hu'
  obtain ⟨_, ⟨hx, _⟩ | ⟨_, h⟩ | ⟨_, _, h⟩⟩ := step_cases ht h
  · exact hx
  · exfalso
    cases hostTurn_next h with
    | idle | fault | read | write | memWrite => exact same (by simp) (by simp)
    | op i t hi hx =>
      cases exec_hostOp_next hi hx with
      | fault | blocked | isDone | nextSample | construct | claim => exact same (by simp) (by simp)
      | start _ h0 => simp_all
      | readNext b' a h0 ne =>
        obtain rfl : b = a := by rw [State.tick_xfer] at h0; simpa [h0] using hm
        exact same ((XferState.buf_setBuf_of_ne _ _ _ ne).trans (by simp)) (by simp [XferState.submit])
      | reclaim => exact same (by simp [XferState.buf]) (by simp)
    | plainWrite _ t hw =>
      cases hw with
      | fault | seqCtrl | seqConfig | waveConfig | ignored => exact same (by simp) (by simp)
      | xfLen h0 => simp_all
      | buffer b' u h0 =>
        have ne : b ≠ b' := by rintro rfl; simp [XferState.owns, hm] at h0
        exact same ((XferState.buf_setBuf_of_ne _ _ _ ne).trans (by simp)) (by simp)
  · cases h with
    | idle | fault | cycle => exact absurd (by simp) (same (by simp))

/-- A completion is the effect of an XFER step. -/
theorem Completes.turn {r : Nat → State} {n : Nat} (hr : IsRun r) (h : Completes r b n) : (r (n - 1)).turn = .xfer := by
  obtain ⟨hn, hd, hf⟩ := h
  exact step_completes (by simpa only [Nat.sub_add_cancel hn] using hr (n - 1)) hd hf

/-- The head's completion is where DONE rises. -/
theorem Completes.doneRises {r : Nat → State} {n : Nat} (h : Completes r b n) (h0 : (r (n - 1)).xfer.sub.head? = some b)
    (h1 : (r n).xfer.sub.head? = some b) : DoneRises r n := by
  obtain ⟨hn, ⟨_, hu⟩, ⟨_, hf⟩⟩ := h
  have done : ∀ x : XferState, x.sub.head? = some b → x.done = x.finished b := by
    intro x hx
    obtain ⟨rest, hs⟩ := List.head?_eq_some_iff.mp hx
    simp [XferState.done, hs]
  exact ⟨hn, (done _ h0).trans hu, (done _ h1).trans hf⟩

end Sys2Proof.Machine
end

