-- ==== Sys2Proof/Machine/Program.lean ====
section
/-! DEFINITION. The canonical program (42_sequencer R180), its closed state table (R190), its timeline and rates (R187, R189;
70_reset R361, R362), the host's startup sequence (44_control_loop R263) and the reference host (R264). -/

namespace Sys2Proof.Machine

/-- The side-set 0bLB of 30_encoding R109. -/
def sideLB (l b : Bool) : Side := ⟨l, b⟩

/-- The eight instructions of the canonical program, slot 0 first (42_sequencer R180), with n = BD - 2 and h = CPB - 3. -/
def canonicalProgram (bd cpb : Nat) : List Instr :=
  let n := BitVec.ofNat 5 (bd - 2)
  let h := BitVec.ofNat 3 (cpb - 3)
  [.setX (sideLB true true) h n, .outPins (sideLB false false) 1, .jmpXdec (sideLB false true) h 1,
   .outPins (sideLB false false) 1, .setX (sideLB false true) h n, .outPins (sideLB true false) 1,
   .jmpXdec (sideLB true true) h 5, .outPins (sideLB true false) 1]

/-- A host write of a register. -/
def writeItem (r : Reg) (v : Word) : HostItem := .access (.reg (.write .word r.offset v))

/-- The host's write of a SEQ instruction into an IMEM slot. -/
def loadItem (slot : SlotIdx) (i : Instr) : HostItem :=
  match encode i with
  | .slot w => writeItem (.imemWin slot) (w.setWidth 32)
  | .reg a => .access (.reg a)

/-- The value of SEQ_CFG for the canonical program (42_sequencer R182). -/
def canonicalCfg (bd : Nat) : Word :=
  SeqState.cfgWord { SeqState.reset with wrapBottom := 0, wrapTop := 7, entry := 0, thresh := BitVec.ofNat 6 bd }

/-- PROGRAM(BD, CPB) (30_encoding R112). -/
def programItems (bd cpb : Nat) : List HostItem :=
  (canonicalProgram bd cpb).zipIdx.map (fun p => loadItem (BitVec.ofNat 5 p.2) p.1) ++ [writeItem .seqCfg (canonicalCfg bd)]

/-- Step 7 of 44_control_loop R263: 0 to `count` words from `base` on (R261). -/
def clearItems (base : Word) (count : Nat) : List HostItem :=
  (List.range count).map (fun k => .access (.memWrite .word (base + BitVec.ofNat 32 (4 * k)) 0))

/-- What the host chooses besides 00_scope R6: the producer, the pins and where the two buffers lie. -/
structure HostChoice where
  freq  : Word
  shape : BitVec 2
  rep   : Bool
  pins  : Word
  addr0 : Word
  addr1 : Word
  deriving DecidableEq, Repr

/-- The startup sequence of 44_control_loop R263, its ten steps in order. -/
def startupItems (c : StreamConfig) (h : HostChoice) : List HostItem :=
  let words := BitVec.ofNat 32 (2 * c.n)
  [.access (.reg (.read .word Reg.seqClaim.offset)), .configure c.sysHz c.sr c.bd c.cpb, writeItem .seqPins h.pins] ++
    programItems c.bd c.cpb ++
    [writeItem .wvFreq h.freq, writeItem .wvRate (BitVec.ofNat 32 c.sr), writeItem .wvCtrl (packConstruct h.shape h.rep),
     writeItem .xfLen words, writeItem (.xfBufAddr .zero) h.addr0, writeItem (.xfBufLen .zero) words,
     writeItem (.xfBufAddr .one) h.addr1, writeItem (.xfBufLen .one) words] ++
    clearItems h.addr0 (2 * c.n) ++ clearItems h.addr1 (2 * c.n) ++
    [.fill .zero 0 2 c.n, .fill .one 0 2 c.n, writeItem .xfCmd (packCommand 0x1#4 .zero),
     writeItem .xfCmd (packCommand 0x2#4 .one), writeItem .seqCtrl 3]

/-- The reference host: startup, then the loop of 44_control_loop R264. -/
def referenceHost (c : StreamConfig) (h : HostChoice) : List HostItem := startupItems c h ++ [.loop c.n]

/-! ### The closed state table (42_sequencer R190) -/

/-- The states of R190; the argument is the loop count c. -/
inductive FsmState where
  | frameStart
  | leftData (c : Nat)
  | leftClk (c : Nat)
  | leftLsb
  | rightFrameStart
  | rightData (c : Nat)
  | rightClk (c : Nat)
  | rightLsb
  deriving DecidableEq, Repr

/-- The slot a state runs. -/
def FsmState.slot : FsmState → Nat
  | .frameStart => 0
  | .leftData _ => 1
  | .leftClk _ => 2
  | .leftLsb => 3
  | .rightFrameStart => 4
  | .rightData _ => 5
  | .rightClk _ => 6
  | .rightLsb => 7

/-- The clock-line levels LRCLK and BCLK of a state. -/
def FsmState.side : FsmState → Side
  | .frameStart => sideLB true true
  | .leftData _ => sideLB false false
  | .leftClk _ => sideLB false true
  | .leftLsb => sideLB false false
  | .rightFrameStart => sideLB false true
  | .rightData _ => sideLB true false
  | .rightClk _ => sideLB true true
  | .rightLsb => sideLB true false

/-- Whether a state sends a data bit; in the others DATA holds. -/
def FsmState.sends : FsmState → Bool
  | .leftData _ | .leftLsb | .rightData _ | .rightLsb => true
  | .frameStart | .leftClk _ | .rightFrameStart | .rightClk _ => false

/-- A state's duration in sequencer cycles, without stalls. -/
def FsmState.duration (cpb : Nat) (f : FsmState) : Nat := if f.sends then 2 else cpb - 2

/-- The next state. -/
def FsmState.next (bd : Nat) : FsmState → FsmState
  | .frameStart => .leftData (bd - 2)
  | .leftData c => .leftClk c
  | .leftClk 0 => .leftLsb
  | .leftClk (c + 1) => .leftData c
  | .leftLsb => .rightFrameStart
  | .rightFrameStart => .rightData (bd - 2)
  | .rightData c => .rightClk c
  | .rightClk 0 => .rightLsb
  | .rightClk (c + 1) => .rightData c
  | .rightLsb => .frameStart

/-! ### The timeline and the rates (42_sequencer R187, R189; 70_reset R361, R362), without stalls -/

/-- P, the sequencer cycles of one frame. -/
def frameCycles (bd cpb : Nat) : Nat := 2 * bd * cpb

/-- The cycle in which bit `i` of a frame's left channel is placed on DATA (0 is the most significant), cycle 0 being the
first step after RESTART. -/
def leftBitCycle (bd cpb frame i : Nat) : Nat := frame * frameCycles bd cpb + (cpb - 2) + i * cpb

/-- The same for the right channel. -/
def rightBitCycle (bd cpb frame i : Nat) : Nat := leftBitCycle bd cpb frame (bd + i)

/-- The cycle in which BCLK rises after a bit is placed. -/
def bclkRise (placed : Nat) : Nat := placed + 2

/-- DIV (42_sequencer R160). -/
def SeqState.divisor (q : SeqState) : ℚ := q.clkInt.toNat + q.clkFrac.toNat / 256

/-- f_seq, the sequencer-cycle rate. -/
def SeqState.cycleRate (q : SeqState) (sysHz : Nat) : ℚ := sysHz / q.divisor

/-- The serial bit rate. -/
def SeqState.bitRate (q : SeqState) (sysHz cpb : Nat) : ℚ := q.cycleRate sysHz / cpb

/-- The frame rate. -/
def SeqState.frameRate (q : SeqState) (sysHz bd cpb : Nat) : ℚ := q.cycleRate sysHz / frameCycles bd cpb

/-- The sequencer cycles in which a buffer of n frames drains while XFER keeps Q filled. -/
def drainCycles (n bd cpb : Nat) : Nat := n * frameCycles bd cpb

/-- The bound on the host's refill time, in sequencer cycles, under which no submission is late. -/
def refillBudget (n bd cpb : Nat) : Nat := (2 * n - 1) * (bd * cpb)

/-- The most slack that Q adds under LATE_SUBMIT = RESUME, where a late submission causes no stall as long as it comes before Q
drains: one word time for each of its words. -/
def lateSlack (qDepth bd cpb : Nat) : Nat := qDepth * (bd * cpb)

/-- The refill budget with all of that slack. -/
def resumeBudget (qDepth n bd cpb : Nat) : Nat := refillBudget n bd cpb + lateSlack qDepth bd cpb

end Sys2Proof.Machine
end

