-- ==== Sys2Proof/Tests/Slice0.lean ====
section
/-! SUPPORT. Tests of one word, one check or one step each, with results from the spec's vectors (95_test_vectors) and
worked by hand from its rules; and, for every obligation with hypotheses, a witness that they can be met. -/

namespace Sys2Proof.Tests

open Sys2Proof Sys2Proof.Machine

/-! ### Small states -/

/-- The answer is a next state with the property. -/
def nextHas (p : State → Bool) (r : Result) : Bool :=
  match r with
  | .next t => p t
  | .fault _ => false
  | .refused _ => false

theorem of_nextHas {p : State → Bool} {r : Result} (h : nextHas p r = true) : ∃ t, r = .next t ∧ p t = true := by
  cases r with
  | next t => exact ⟨t, rfl, h⟩
  | fault | refused => cases h

/-- After reset, a SEQ word placed as what the next step runs, with the given PC, X, shift register, count, threshold and
queue. -/
def seqAt (pc : SlotIdx) (w : SlotWord) (x osr : Word) (osc thresh : BitVec 6) (queue : List Word) : State :=
  State.place (.slot w)
    { State.reset with seq := { SeqState.reset with pc := pc, x := x, osr := osr, osc := osc, thresh := thresh }, queue := queue }

/-- The same with WRAP_TOP = 7 and WRAP_BOTTOM = 4 (V3, V8). -/
def seqWrap (w : SlotWord) (x : Word) : State :=
  State.place (.slot w)
    { State.reset with seq := { SeqState.reset with pc := 7, x := x, wrapTop := 7, wrapBottom := 4 } }

/-- The setup of 95_test_vectors 2.5, with SUB, the two counts and STRANDED. -/
def xferOf (sub : List BufId) (m0 m1 : Nat) (stranded : Bool) : XferState :=
  ⟨sub, ⟨0x20000000#32, 2, m0⟩, ⟨0x20000008#32, 2, m1⟩, stranded, 2⟩

def xferAt (sub : List BufId) (m0 m1 : Nat) : State := { State.reset with xfer := xferOf sub m0 m1 false }

/-- The same under LATE_SUBMIT = STRAND. -/
def strandAt (sub : List BufId) (m0 m1 : Nat) (stranded : Bool) : State :=
  { State.reset with
    xfer := xferOf sub m0 m1 stranded
    params := { Config.Params.reference with lateSubmit := .strand } }

/-- A producer: constructed if `ready`. -/
def waveAt (shape : BitVec 2) (rep : Bool) (freq rate phase : Word) (ready : Bool) : State :=
  { State.reset with wave := ⟨shape, rep, freq, rate, phase, ready⟩ }

/-- A claimed SEQ with EN as given. -/
def claimedAt (en : Bool) : State := { State.reset with seq := { SeqState.reset with claimed := true, en := en } }

/-- DIVCNT and the kept length after one system cycle of a SEQ that runs JMP 0. -/
def clockAt (q : SeqState) : Option (BitVec 16 × Nat) :=
  match step { State.place (.slot 0) { State.reset with seq := q } with turns := [.clock] } with
  | .next t => some (t.seq.divCnt, t.seq.cycleLen)
  | .fault _ => none
  | .refused _ => none

/-- The state with one turn fixed. -/
def withTurn (t : Config.Turn) (s : State) : State := { s with turns := [t] }

/-- The state with a host program, in the host's turn. -/
def withHost (prog : List HostItem) (s : State) : State := { s with host := ⟨prog, 0⟩, turns := [.host] }

def faultIs (c : FaultCode) : Result → Bool := nextHas (fun t => decide (t.fault = some c))
def resultIs (v : Word) : Result → Bool := nextHas (fun t => decide (t.host.result = v ∧ t.fault = none))

/-- Four bytes in an engine-owned buffer. -/
def ownedBytes : State := { xferAt [.zero] 1 0 with
  mem := [(0x20000004, 0x11#8), (0x20000005, 0x22#8), (0x20000006, 0x33#8), (0x20000007, 0x44#8)] }

/-! ### Decoding (95_test_vectors 2.1; 30_encoding R100 to R110) -/

/-- OPC 000, SIDE 1 0, DELAY 000, COND 000, ADDR 00011. -/
theorem test_decode_jmp : decodeSlot 0b0001000000000011#16 = .ok (.jmp ⟨true, false⟩ 0 3) := by rfl
/-- OPC 000, SIDE 0 1, DELAY 010, COND 010, ADDR 00001. -/
theorem test_decode_jmpXdec : decodeSlot 0b0000101001000001#16 = .ok (.jmpXdec ⟨false, true⟩ 2 1) := by rfl
/-- OPC 011, SIDE 0 0, DELAY 001, DEST 000, BITCOUNT 00001. -/
theorem test_decode_outPins : decodeSlot 0b0110000100000001#16 = .ok (.outPins ⟨false, false⟩ 1) := by rfl
/-- OPC 111, SIDE 1 1, DELAY 010, DEST 001, IMM 11110. -/
theorem test_decode_setX : decodeSlot 0b1111101000111110#16 = .ok (.setX ⟨true, true⟩ 2 30) := by rfl
/-- OP 0001, BUF 1; OP 0010, BUF 0 (R110). -/
theorem test_decode_start : decodeCommand 0b00010000000000000000000000000001#32 = .ok (.start .one) := by rfl
theorem test_decode_readNext : decodeCommand 0b00100000000000000000000000000000#32 = .ok (.readNext .zero) := by rfl
/-- Offsets 0x118, 0x11C, 0x210 and 0x004; bit 3 of a WV_CTRL value with REP 1 and SHAPE 10 (R111). -/
theorem test_decode_isDone : decode (.reg (.read .word 0b0100011000#10)) = .ok .isDone := by rfl
theorem test_decode_wait : decode (.reg (.read .word 0b0100011100#10)) = .ok .wait := by rfl
theorem test_decode_nextSample : decode (.reg (.read .word 0b1000010000#10)) = .ok .nextSample := by rfl
theorem test_decode_claim : decode (.reg (.read .word 0b0000000100#10)) = .ok .claim := by rfl
theorem test_decode_construct : decode (.reg (.write .word 0x200#10 0b1110#32)) = .ok (.construct 2 true) := by rfl
/-- The illegal words of 95_test_vectors 2.1, each rejected by the field that is wrong. -/
theorem test_decode_illegal :
    [0x0020#16, 0x00E0#16].map decodeSlot = List.replicate 2 (.error .jmpCondition) ∧
    [0x2020#16, 0x4001#16, 0x8080#16, 0xA042#16, 0xC000#16].map decodeSlot = List.replicate 5 (.error .opcode) ∧
    [0x6000#16, 0x6002#16, 0x6021#16].map decodeSlot = List.replicate 3 (.error .outForm) ∧
    [0xE000#16, 0xE040#16, 0xFFFF#16].map decodeSlot = List.replicate 3 (.error .setDestination) := by
  exact ⟨rfl, rfl, rfl, rfl⟩
theorem test_decode_table : decodeTableWord 32 0x118 = some .isDone ∧ decodeTableWord 32 0x004 = some .claim ∧
    decodeTableWord 32 0x0000000F = some (.construct 3 true) ∧ decodeTableWord 16 0x6101 = some (.outPins ⟨false, false⟩ 1) := by
  decide

/-! ### WellFormed (92_eei_decisions, 00_scope R6): one ill-formed term for each check -/

theorem test_wellFormed_params : Config.Params.reference.wellFormed = true := by decide
theorem test_illFormed_qDepth : { Config.Params.reference with qDepth := 0 }.wellFormed = false := by decide
theorem test_illFormed_base : { Config.Params.reference with blockBase := 0x40000002#32 }.wellFormed = false := by decide
theorem test_illFormed_window : { Config.Params.reference with blockBase := 0xFFFFFC04#32 }.wellFormed = false := by decide
theorem test_wellFormed_stream : (StreamConfig.mk 125000000 48000 32 5 480).wellFormed = true := by decide
theorem test_illFormed_sysHz : (StreamConfig.mk (2 ^ 32) 48000 32 5 480).wellFormed = false := by decide
theorem test_illFormed_sr : (StreamConfig.mk 125000000 0 32 5 480).wellFormed = false := by decide
theorem test_illFormed_bd : (StreamConfig.mk 125000000 48000 33 5 480).wellFormed = false := by decide
theorem test_illFormed_cpb : (StreamConfig.mk 125000000 48000 32 11 480).wellFormed = false := by decide
theorem test_illFormed_n : (StreamConfig.mk 125000000 48000 32 5 0).wellFormed = false := by decide

/-! ### SEQ (95_test_vectors 2.2) -/

/-- V3: a jump from WRAP_TOP goes to its target. -/
theorem test_jmp_from_wrapTop : nextHas (fun t => decide (t.seq.pc = 0 ∧ t.seq.x = 7)) (step (seqWrap 0x0000#16 7)) = true := by
  decide
/-- V6: X = 0 falls through and wraps around. -/
theorem test_jmpXdec_zero : nextHas (fun t => decide (t.seq.pc = 3 ∧ t.seq.x = 0xFFFFFFFF#32))
    (step (seqAt 2 0x0041#16 0 0 32 32 [])) = true := by decide
/-- V8: the fall-through takes the wrap. -/
theorem test_jmpXdec_wraps : nextHas (fun t => decide (t.seq.pc = 4 ∧ t.seq.x = 0xFFFFFFFF#32)) (step (seqWrap 0x0041#16 0)) = true := by
  decide
/-- V4: taken; side-set and delay. -/
theorem test_jmpXdec_taken : nextHas (fun t => decide (t.seq.pc = 1 ∧ t.seq.x = 29 ∧ t.seq.bclk = true ∧ t.seq.lrclk = false ∧
    t.seq.dly = 2)) (exec (.jmpXdec ⟨false, true⟩ 2 1) (seqAt 2 0x0A41#16 30 0 32 32 [])) = true := by decide
/-- V13: a pull discards the rest of the old word. -/
theorem test_outPins_pull : nextHas (fun t => decide (t.seq.data = false ∧ t.seq.osr = 0x2468ACF0#32 ∧ t.seq.osc = 1 ∧ t.queue = []))
    (step (seqAt 1 0x6101#16 0 0x0000ABCD#32 16 16 [0x12345678#32])) = true := by decide
/-- V14: one bit below the threshold, no pull is due. -/
theorem test_outPins_noPull : nextHas (fun t => decide (t.seq.data = true ∧ t.seq.osr = 0 ∧ t.seq.osc = 16 ∧ t.seq.pc = 2 ∧ t.seq.dly = 1))
    (step (seqAt 1 0x6101#16 0 0x80000000#32 15 16 [])) = true := by decide
/-- V15: SET_X with side-set and delay. -/
theorem test_setX : nextHas (fun t => decide (t.seq.x = 30 ∧ t.seq.lrclk = true ∧ t.seq.bclk = true ∧ t.seq.dly = 2 ∧ t.seq.pc = 1))
    (step (seqAt 0 0xFA3E#16 0xDEADBEEF#32 0 32 32 [])) = true := by decide
/-- 42_sequencer R160: INT 8 and FRAC 0x80, so that every second cycle lasts 9 system cycles; the divider restarts at 0. -/
theorem test_clock_carry : ({ SeqState.reset with clkInt := 8, clkFrac := 0x80#8, fracAcc := 0x80#8 }).cycleLength = 9 ∧
    ({ SeqState.reset with clkInt := 8, clkFrac := 0x80#8 }).cycleLength = 8 := by decide
theorem test_clock_step : nextHas (fun t => decide (t.seq.x = 30 ∧ t.seq.divCnt = 1))
    (step { seqAt 0 0xFA3E#16 0 0 32 32 [] with
      seq := { (seqAt 0 0xFA3E#16 0 0 32 32 []).seq with clkInt := 8 }, turns := [.clock] }) = true := by decide

/-- R160: a cycle of 8 system cycles stays so when INT was rewritten to 2 after five of them (log 26), and the next is of 2. -/
theorem test_clock_keepsLength :
    [5#16, 7#16].map (fun n => clockAt { SeqState.reset with clkInt := 2, divCnt := n, cycleLen := 8 }) = [some (6, 8), some (0, 8)] ∧
    clockAt { SeqState.reset with clkInt := 2, divCnt := 0, cycleLen := 8 } = some (1, 2) := by decide

/-! ### The divisor and the canonical program (95_test_vectors 2.3, 2.4; 42_sequencer R161, R180, R190) -/

theorem test_divisor : (deriveDivisor 125000000 48000 32 5).toOption = some 0x00080000#32 ∧
    (deriveDivisor 125000000 44100 16 4).toOption = some 0x00160000#32 ∧
    (deriveDivisor 786420 1 2 3).toOption = some 0xFFFF0000#32 := by decide
theorem test_divisor_faults : deriveDivisor 786432 1 2 3 = .error .cfgDivisor ∧ deriveDivisor 1000000 48000 32 5 = .error .cfgDivisor ∧
    deriveDivisor 125000000 0 32 5 = .error .cfgSampleRate ∧ deriveDivisor 125000000 0 1 5 = .error .cfgParam ∧
    deriveDivisor 125000000 48000 32 11 = .error .cfgParam := by exact ⟨rfl, rfl, rfl, rfl, rfl⟩
theorem test_canonical_words : (canonicalProgram 32 5).map encode =
      [0xFA3E#16, 0x6101#16, 0x0A41#16, 0x6101#16, 0xEA3E#16, 0x7101#16, 0x1A45#16, 0x7101#16].map Code.slot ∧
    (canonicalProgram 24 6).map encode =
      [0xFB36#16, 0x6101#16, 0x0B41#16, 0x6101#16, 0xEB36#16, 0x7101#16, 0x1B45#16, 0x7101#16].map Code.slot := by decide
theorem test_canonical_cfg : canonicalCfg 32 = 0x20000700#32 ∧ canonicalCfg 2 = 0x02000700#32 := by decide
/-- The canonical program's words, slot by slot, have the levels and durations of the state table for BD 16, CPB 4: JMP_XDEC
at states whose count is 0 falls through. -/
theorem test_canonical_table :
    [FsmState.frameStart, .leftData 14, .leftClk 14, .leftLsb, .rightFrameStart, .rightData 14, .rightClk 14, .rightLsb].map
      (fun f => ((canonicalProgram 16 4)[f.slot]?, f.duration 4)) =
    [(some (Instr.setX ⟨true, true⟩ 1 14), 2), (some (.outPins ⟨false, false⟩ 1), 2), (some (.jmpXdec ⟨false, true⟩ 1 1), 2),
     (some (.outPins ⟨false, false⟩ 1), 2), (some (.setX ⟨false, true⟩ 1 14), 2), (some (.outPins ⟨true, false⟩ 1), 2),
     (some (.jmpXdec ⟨true, true⟩ 1 5), 2), (some (.outPins ⟨true, false⟩ 1), 2)] := by decide
theorem test_table_next : FsmState.next 16 (.leftClk 0) = .leftLsb ∧ FsmState.next 16 (.leftClk 3) = .leftData 2 ∧
    FsmState.next 16 .rightLsb = .frameStart := by decide

/-- 42_sequencer R187 and 70_reset R361: the cycles of BD 32, CPB 5, and the drain of 64 frames. -/
theorem test_timeline : frameCycles 32 5 = 320 ∧ leftBitCycle 32 5 0 0 = 3 ∧ rightBitCycle 32 5 0 0 = 163 ∧
    rightBitCycle 32 5 0 31 = 318 ∧ bclkRise 3 = 5 ∧ drainCycles 64 32 5 = 20480 := by decide
/-- 70_reset R362: L = 128, W = 160 and QDEPTH = 4. -/
theorem test_refillBudgets : refillBudget 64 32 5 = 127 * 160 ∧ resumeBudget 4 64 32 5 = 131 * 160 := by decide
/-- 42_sequencer R189: 48 828.125 frames a second for D = 8. -/
theorem test_frameRate : ({ SeqState.reset with clkInt := 8 }).frameRate 125000000 32 5 = 48828125 / 1000 := by
  norm_num [SeqState.frameRate, SeqState.cycleRate, SeqState.divisor, SeqState.reset, frameCycles, show (8 : BitVec 16).toNat = 8 from rfl]

/-! ### XFER (95_test_vectors 2.5) -/

theorem test_status_words : (xferOf [.zero] 0 0 false).statusWord = 0x2A#32 ∧ (xferOf [.zero, .one] 0 0 false).statusWord = 0x6E#32 ∧
    (xferOf [.zero, .one] 2 0 false).statusWord = 0x6F#32 ∧ (xferOf [.zero, .one] 2 2 false).statusWord = 0x6D#32 ∧
    (xferOf [.one] 2 2 false).statusWord = 0x59#32 ∧ (xferOf [.one] 2 0 true).statusWord = 0xD8#32 := by decide
/-- X2 and X3. -/
theorem test_start : nextHas (fun t => decide (t.xfer.sub = [.zero] ∧ t.xfer.statusWord = 0x2A#32)) (exec (.start .zero) (xferAt [] 2 2)) = true := by
  decide
theorem test_readNext : nextHas (fun t => decide (t.xfer.sub = [.zero, .one] ∧ t.xfer.buf1.moved = 0)) (exec (.readNext .one) (xferAt [.zero] 1 2)) = true := by
  decide
/-- X10: a late submission under STRAND. -/
theorem test_readNext_strands : nextHas (fun t => decide (t.xfer.statusWord = 0xED#32)) (exec (.readNext .one) (strandAt [.zero] 2 0 false)) = true := by
  decide
/-- X6. -/
theorem test_wait : nextHas (fun t => decide (t.host.result = 0x80000000#32 ∧ t.xfer.sub = [.one])) (exec .wait (xferAt [.zero, .one] 2 2)) = true := by
  decide
/-- X2 and X4 through IS_DONE. -/
theorem test_isDone : resultIs 0x2A#32 (exec .isDone (xferAt [.zero] 0 0)) = true ∧
    resultIs 0x6F#32 (exec .isDone (xferAt [.zero, .one] 2 0)) = true := by decide
/-- X17 to X22: the submission check. -/
theorem test_submitCheck :
    ({ xferOf [] 0 0 false with len := 0 }).submitCheck .zero = some .cfgBuflen ∧
    ({ xferOf [] 0 0 false with buf0 := ⟨0x20000000#32, 3, 0⟩ }).submitCheck .zero = some .cfgBuflen ∧
    ({ xferOf [] 0 0 false with buf0 := ⟨0x20000002#32, 2, 0⟩ }).submitCheck .zero = some .bufPlacement ∧
    ({ xferOf [] 0 0 false with buf0 := ⟨0xFFFFFFFC#32, 2, 0⟩ }).submitCheck .zero = some .bufPlacement ∧
    ({ xferOf [] 0 0 false with buf1 := ⟨0x20000004#32, 2, 0⟩ }).submitCheck .zero = some .bufPlacement ∧
    (XferState.mk [] ⟨0xFFFFFFFC#32, 1, 0⟩ ⟨0, 0, 0⟩ false 1).submitCheck .zero = none := by decide
/-- XFER takes a little-endian word. -/
theorem test_xfer_word : nextHas (fun t => decide (t.queue = [0x44332211#32] ∧ t.xfer.buf0.moved = 2))
    (xferTurn ownedBytes) = true := by decide
/-- X27: the host writes a byte of an engine-owned buffer; and one just past it. -/
theorem test_owned_write : faultIs .hostProtocol (hostMemWrite .byte 0x20000007#32 1 (xferAt [.zero] 0 0)) = true ∧
    faultIs .hostProtocol (hostMemWrite .byte 0x20000008#32 1 (xferAt [.zero] 0 0)) = false := by decide

/-! ### WAVE (95_test_vectors 2.6) -/

/-- W3 and W4: the quarter points of Sine. -/
theorem test_sine : resultIs 0xBF800000#32 (exec .nextSample (waveAt 0 false 1 4 2 true)) = true ∧
    resultIs 0x7FFFFFFF#32 (exec .nextSample (waveAt 0 true 1 4 3 true)) = true ∧
    resultIs 0xFFFFFFFF#32 (exec .nextSample (waveAt 0 true 1 4 0 true)) = true := by decide
/-- W2, W5, W7, W14 and W15: Sawtooth. -/
theorem test_sawtooth : sawtoothFixed 4 16 = 0x3FFFFFFF#32 ∧ sawtoothFloat 1 4 = 0xBF000000#32 ∧ sawtoothFloat 2 4 = 0x00000000#32 ∧
    sawtoothFloat 3 4 = 0x3F000000#32 ∧ sawtoothFloat 0 4 = 0xBF800000#32 ∧ sawtoothFloat (2 ^ 30 - 1) (2 ^ 30) = 0x3F800000#32 := by
  decide
/-- W1 and W8: Square. -/
theorem test_square : squareSample false 2 4 = 0xBF800000#32 ∧ squareSample true 1 4 = 0xFFFFFFFF#32 ∧ squareSample true 2 4 = 0 := by
  decide
/-- S4: the phase of Sawtooth wraps at RATE; W13: the two outcomes of the Sine overflow. -/
theorem test_nextSample_wraps : nextHas (fun t => decide (t.wave.phase = 0 ∧ t.host.result = 0x00000000#32))
    (exec .nextSample (waveAt 1 false 2 4 3 true)) = true := by decide
theorem test_sine_overflow : faultIs .phaseOverflow (exec .nextSample (waveAt 0 false 1 4 0xFFFFFFFF#32 true)) = true ∧
    nextHas (fun t => decide (t.wave.phase = 0 ∧ t.host.result = 0x00000000#32)) (exec .nextSample { waveAt 0 false 1 4 0xFFFFFFFF#32 true with
      params := { Config.Params.reference with sineOverflow := .wrap } }) = true := by decide
/-- W9, W10: what CONSTRUCT refuses. -/
theorem test_construct_faults : faultIs .cfgSampleRate (exec (.construct 3 false) (waveAt 0 false 0 0 0 false)) = true ∧
    faultIs .cfgParam (exec (.construct 3 false) (waveAt 0 false 0 4 0 false)) = true := by decide
theorem test_construct : nextHas (fun t => decide (t.wave.ready = true ∧ t.wave.shape = 2 ∧ t.wave.rep = true))
    (exec (.construct 2 true) (waveAt 0 false 4 16 0 false)) = true := by decide

/-! ### Registers (95_test_vectors 2.7) -/

/-- G1, G2. -/
theorem test_claim : resultIs 1 (exec .claim State.reset) = true ∧ (claimedAt false).seq.ctrlWord = 4 := by decide
theorem test_claim_again : faultIs .cfgNoUnit (exec .claim (claimedAt false)) = true := by decide
/-- G3, G7: SEQ_CTRL. -/
theorem test_ctrl_faults : faultIs .hostProtocol (regAccess (.write .word 0x000#10 1) State.reset) = true ∧
    faultIs .hostProtocol (regAccess (.write .word 0x000#10 3) (claimedAt true)) = true := by decide
/-- G9 to G13: widths, alignment, unlisted offsets, the write-only slot and the reset values. -/
theorem test_bad_access : faultIs .badAccess (regAccess (.read .half 0x000#10) State.reset) = true ∧
    faultIs .badAccess (regAccess (.read .word 0x002#10) State.reset) = true ∧
    faultIs .badAccess (regAccess (.read .word 0x300#10) State.reset) = true := by decide
theorem test_reset_reads : resultIs 0 (regAccess (.read .word 0x080#10) State.reset) = true ∧
    resultIs 0x20001F00#32 (regAccess (.read .word 0x00C#10) State.reset) = true ∧
    resultIs 0x00010000#32 (regAccess (.read .word 0x008#10) State.reset) = true := by decide

/-! ### The host's program -/

/-- One pass of FILL stores the sample little-endian at BUFADDR0 (P4). -/
theorem test_fill_step : nextHas (fun t => decide (t.host.prog =
      [.access (.memWrite .word 0x20000000#32 0xFFFFFFFF#32), .fill .zero 1 1 4] ∧ t.wave.phase = 1))
    (step (withHost [.fill .zero 0 1 5] { waveAt 2 true 4 16 0 true with xfer := xferOf [] 0 0 false })) = true := by decide
/-- A REFILL of buffer 1 after WAIT (44_control_loop R264). -/
theorem test_refill_step : nextHas (fun t => decide (t.host.prog =
      [.fill .one 0 2 3, .access (.reg (.write .word 0x114#10 0x20000001#32))]))
    (step (withHost [.refill 3] (xferAt [.one, .zero] 0 2))) = true := by decide
/-- The arbitrary environment makes its next access, and goes on (log 4). -/
theorem test_environment : HostItem.access? (.environment 4) = some (Config.freeAccess 4) ∧
    State.reset.hostAfter 0 (.environment 4) = [.environment 5] := ⟨rfl, rfl⟩
/-- A memory access into the register window is a register access (10_state R31, log 13). -/
theorem test_window : resolveAccess 0x40000000#32 (.memWrite .word 0x40000114#32 0x10000000#32) =
      .reg (.write .word 0x114#10 0x10000000#32) ∧
    resolveAccess 0x40000000#32 (.memRead .word 0x40000400#32) = .memRead .word 0x40000400#32 := by decide

/-! ### Witnesses: the hypotheses of each obligation can be met -/

theorem test_witness_decoderAdmits : decodeSlot 0x1003#16 = .ok (.jmp ⟨true, false⟩ 0 3) ∧
    (∀ i, decodeSlot 0xA042#16 ≠ .ok i) ∧
    ((seqAt 0 0xA042#16 0 0 32 32 []).turn = .seq ∧ (seqAt 0 0xA042#16 0 0 32 32 []).fault = none ∧
      (seqAt 0 0xA042#16 0 0 32 32 []).seq.en = true ∧ (seqAt 0 0xA042#16 0 0 32 32 []).seq.dly = 0 ∧
      (seqAt 0 0xA042#16 0 0 32 32 []).seq.slot 0 = some 0xA042#16) :=
  ⟨rfl, fun _ h => (by rw [show decodeSlot 0xA042#16 = .error .opcode from rfl] at h; cases h), by decide⟩
theorem test_witness_encodeDecode : decodeSlot 0xFF3F#16 = .ok (.setX ⟨true, true⟩ 7 31) ∧
    decodeSlot 0x7F01#16 = .ok (.outPins ⟨true, true⟩ 7) := by exact ⟨rfl, rfl⟩
/-- The value next to the last legal command word. -/
theorem test_witness_commandWords : decodeCommand 0x20000001#32 = .ok (.readNext .one) ∧
    0x20000002#32 ≠ 0x10000000#32 ∧ 0x20000002#32 ≠ 0x10000001#32 ∧ 0x20000002#32 ≠ 0x20000000#32 ∧ 0x20000002#32 ≠ 0x20000001#32 := by
  refine ⟨rfl, ?_⟩
  decide
theorem test_witness_registerOffsets : (0x214#10 : RegOffset).toNat % 4 = 0 ∧ Reg.ofOffset 0x214#10 = some .wvStatus ∧
    Reg.ofOffset 0x0FC#10 = some (.imemWin 31) ∧ (0xFFFFFFF8#32).getLsbD 3 = true := by decide
theorem test_witness_launch :
    State.launch Config.Params.reference [(0, 1#8)] ⟨[.loop 1], 5⟩ [.seq] 3 =
      State.launch Config.Params.reference [(0, 1#8)] ⟨[.loop 1], 5⟩ [.seq] 3 := rfl
/-- A reset of a faulted state. -/
theorem test_witness_reset : (withTurn .reset { State.reset with fault := some .badAccess }).turn = .reset := by decide
theorem test_witness_stepRunsSlot : (seqAt 7 0x1003#16 0 0 32 32 []).turn = .seq ∧ (seqAt 7 0x1003#16 0 0 32 32 []).fault = none ∧
    (seqAt 7 0x1003#16 0 0 32 32 []).seq.en = true ∧ (seqAt 7 0x1003#16 0 0 32 32 []).seq.dly = 0 ∧
    (seqAt 7 0x1003#16 0 0 32 32 []).seq.slot 7 = some 0x1003#16 := by decide
theorem test_witness_stepRunsHost : (withHost [.refill 1] State.reset).turn = .host ∧ (withHost [.refill 1] State.reset).fault = none ∧
    HostItem.access? (.refill 1) = some (.reg (.read .word 0x11C#10)) ∧
    (decodeRegAccess (.read .word 0x11C#10)).toOption = some (.op .wait) := by decide
/-- A host with no program, a plain access, CONFIGURE, and a FILL of no words; the first and last offsets of the window. -/
theorem test_witness_hostTurn : (withHost [] State.reset).host.prog = [] ∧
    HostItem.access? (.access (.memRead .byte 7)) = some (.memRead .byte 7) ∧
    HostItem.access? (.configure 125000000 48000 32 5) = none ∧ HostItem.access? (.fill .zero 0 1 0) = none ∧
    (0x40000000#32).toNat = State.reset.params.blockBase.toNat + (0#10 : RegOffset).toNat ∧
    (0x400003FF#32).toNat = State.reset.params.blockBase.toNat + (0x3FF#10 : RegOffset).toNat := by decide
/-- A step of the host that writes a plain register, one that stores a byte, and one that is CONFIGURE. -/
theorem test_hostTurn :
    nextHas (fun t => decide (t.wave.freq = 9)) (step (withHost [.access (.memWrite .word 0x40000204#32 9)] State.reset)) = true ∧
    nextHas (fun t => decide (t.mem = [(7, 5#8)])) (step (withHost [.access (.memWrite .byte 7 5)] State.reset)) = true ∧
    nextHas (fun t => decide (t.seq.clkInt = 8)) (step (withHost [.configure 125000000 48000 32 5] State.reset)) = true := by decide
/-- 10_state R46, R52: writes of XF_WAIT and WV_SAMPLE are ignored. -/
theorem test_ignoredWrites : nextHas (fun t => decide (t.xfer = xferOf [.zero] 2 0 false)) (regAccess (.write .word 0x11C#10 1) (xferAt [.zero] 2 0)) = true ∧
    nextHas (fun t => decide (t.wave.phase = 3)) (regAccess (.write .word 0x210#10 1) (waveAt 1 false 2 4 3 true)) = true := by decide
theorem test_witness_delay : (withTurn .seq { claimedAt true with seq := { (claimedAt true).seq with dly := 7 } }).turn = .seq ∧
    (withTurn .seq { claimedAt true with seq := { (claimedAt true).seq with dly := 7 } }).seq.dly ≠ 0 := by decide
theorem test_witness_unwritten : (withTurn .seq (claimedAt true)).turn = .seq ∧ (withTurn .seq (claimedAt true)).fault = none ∧
    (withTurn .seq (claimedAt true)).seq.en = true ∧ (withTurn .seq (claimedAt true)).seq.dly = 0 ∧
    (withTurn .seq (claimedAt true)).seq.slot 0 = none := by decide
/-- A fault of SEQ, one of SEQ under the clock, and one of the host. -/
theorem test_witness_faultingStep :
    (∃ t, step (withTurn .seq (claimedAt true)) = .next t ∧ decide (t.fault = some .unwrittenImem) = true) ∧
    (∃ t, step (withTurn .clock (claimedAt true)) = .next t ∧ decide (t.fault = some .unwrittenImem) = true) ∧
    (∃ t, step (withHost [.refill 1] State.reset) = .next t ∧ decide (t.fault = some .hostProtocol) = true) :=
  ⟨of_nextHas (by decide), of_nextHas (by decide), of_nextHas (by decide)⟩
theorem test_witness_recorded : (withTurn .seq { State.reset with fault := some .badAccess }).turn ≠ .reset ∧
    (withTurn .seq { State.reset with fault := some .badAccess }).fault = some .badAccess := by decide
theorem test_witness_successor : (31 : SlotIdx) = SeqState.reset.wrapTop ∧ (30 : SlotIdx) ≠ SeqState.reset.wrapTop := by decide
theorem test_witness_jmpXdec : (seqAt 2 0x0041#16 1 0 32 32 []).seq.x ≠ 0 ∧ (seqAt 2 0x0041#16 0 0 32 32 []).seq.x = 0 := by decide
/-- OSC at THRESH with a word and without, and one below it. -/
theorem test_witness_outPins :
    ((seqAt 1 0x6101#16 0 0 32 32 [9]).seq.thresh.toNat ≤ (seqAt 1 0x6101#16 0 0 32 32 [9]).seq.osc.toNat ∧
      (seqAt 1 0x6101#16 0 0 32 32 [9]).queue = [9]) ∧
    ((seqAt 1 0x6101#16 0 0 32 32 []).seq.thresh.toNat ≤ (seqAt 1 0x6101#16 0 0 32 32 []).seq.osc.toNat ∧
      (seqAt 1 0x6101#16 0 0 32 32 []).queue = []) ∧
    (seqAt 1 0x6101#16 0 0 31 32 []).seq.osc.toNat < (seqAt 1 0x6101#16 0 0 31 32 []).seq.thresh.toNat := by decide
theorem test_witness_seqFrame : ∃ t, exec (.setX ⟨true, true⟩ 2 30) State.reset = .next t ∧ decide (t.seq.x = 30) = true :=
  of_nextHas (by decide)
/-- A completed OUT_PINS changes DATA, and a JMP the clock lines. -/
theorem test_witness_lines :
    (∃ t, step (seqAt 1 0x6101#16 0 0x80000000#32 0 32 []) = .next t ∧ decide (t.seq.data ≠ false) = true) ∧
    (∃ t, step (seqAt 1 0x1003#16 0 0 0 32 []) = .next t ∧ decide (t.seq.lrclk ≠ false) = true) ∧
    (∃ t, step (withTurn .clock (seqAt 1 0x1003#16 0 0 0 32 [])) = .next t ∧ decide (t.seq.lrclk ≠ false) = true) ∧
    (seqAt 1 0x6101#16 0 0x80000000#32 0 32 []).turn ≠ .reset ∧ (seqAt 1 0x1003#16 0 0 0 32 []).turn ≠ .reset :=
  ⟨of_nextHas (by decide), of_nextHas (by decide), of_nextHas (by decide), by decide⟩
/-- The two sides of the carry: 255 and 256. -/
theorem test_witness_cycleLength : ∃ p q : SeqState, p.fracAcc.toNat + p.clkFrac.toNat = 255 ∧ q.fracAcc.toNat + q.clkFrac.toNat = 256 :=
  ⟨{ SeqState.reset with fracAcc := 254#8, clkFrac := 1#8 }, { SeqState.reset with fracAcc := 255#8, clkFrac := 1#8 }, by decide⟩
/-- A system cycle with EN = 0, one within a sequencer cycle, and one that starts a sequencer cycle, with and without a fault. -/
theorem test_witness_clock :
    ((withTurn .clock (claimedAt false)).turn = .clock ∧ (withTurn .clock (claimedAt false)).seq.en = false) ∧
    ((withTurn .clock (claimedAt true)).seq.en = true ∧ (withTurn .clock (claimedAt true)).seq.divCnt = 0 ∧
      (withTurn .clock (claimedAt true)).fault = none) ∧
    ({ (claimedAt true).seq with divCnt := 7#16 }.divCnt ≠ 0) ∧
    (∃ u, seqCycle (withTurn .clock (claimedAt true)).tick = .next u ∧ decide (u.fault ≠ none) = true) ∧
    (∃ u, seqCycle (withTurn .clock (seqAt 1 0x1003#16 0 0 0 32 [])).tick = .next u ∧ decide (u.fault = none) = true) :=
  ⟨by decide, by decide, by decide, of_nextHas (by decide), of_nextHas (by decide)⟩
/-- The largest address that fits, and one word more; two buffers that touch, and two that share a word. -/
theorem test_witness_submitCheck :
    (XferState.mk [] ⟨0xFFFFFFF8#32, 2, 0⟩ ⟨0xFFFFFFF0#32, 2, 0⟩ false 2).submitCheck .zero = none ∧
    (XferState.mk [] ⟨0xFFFFFFFC#32, 2, 0⟩ ⟨0, 0, 0⟩ false 2).submitCheck .zero = some .bufPlacement ∧
    (Buffer.holds ⟨0xFFFFFFF0#32, 3, 0⟩ 0xFFFFFFF8 = true ∧ Buffer.holds ⟨0xFFFFFFF8#32, 2, 0⟩ 0xFFFFFFF8 = true) ∧
    (XferState.mk [] ⟨0xFFFFFFF8#32, 2, 0⟩ ⟨0xFFFFFFF0#32, 3, 0⟩ false 2).submitCheck .zero = some .bufPlacement := by decide
/-- No two buffers that touch share a byte: the hypotheses of the accepting clause. -/
theorem test_witness_submitAccepts : ¬ ∃ i, Buffer.holds (xferOf [] 0 0 false).buf0 i = true ∧ Buffer.holds (xferOf [] 0 0 false).buf1 i = true := by
  rintro ⟨i, h0, h1⟩
  simp only [Buffer.holds, xferOf, decide_eq_true_eq, BitVec.toNat_ofNat, show (2 : BitVec 32).toNat = 2 from rfl] at h0 h1
  omega
theorem test_witness_start : (xferAt [.one] 0 0).xfer.sub ≠ [] ∧ (xferAt [] 0 0).xfer.submitCheck .one = none ∧
    { (xferAt [] 0 0) with xfer := { xferOf [] 0 0 false with len := 3 } }.xfer.submitCheck .one = some .cfgBuflen := by decide
theorem test_witness_readNext : (xferAt [] 0 0).xfer.sub.length ≠ 1 ∧ (xferAt [.one] 0 2).xfer.sub = [.one] ∧
    (xferAt [.one] 0 2).xfer.submitCheck .zero = none ∧ (xferAt [.one] 0 2).xfer.buf1.moved = (xferAt [.one] 0 2).xfer.len.toNat ∧
    (strandAt [.one] 0 2 false).params.lateSubmit = .strand ∧
    { xferOf [.one] 0 2 false with buf0 := ⟨0x20000000#32, 3, 0⟩ }.submitCheck .zero = some .cfgBuflen := by decide
theorem test_witness_wait : (xferAt [] 0 0).xfer.sub = [] ∧ (xferAt [.zero] 1 0).xfer.buf0.moved ≠ (xferAt [.zero] 1 0).xfer.len.toNat ∧
    (xferAt [.zero] 2 0).xfer.buf0.moved = (xferAt [.zero] 2 0).xfer.len.toNat := by decide
/-- A word to move with one place left in Q, and none left; a finished and a stranded engine. -/
theorem test_witness_xferMoves : (withTurn .xfer (xferAt [.zero, .one] 2 1)).turn = .xfer ∧ (xferAt [.zero, .one] 2 1).xfer.buf1.moved < 2 ∧
    (xferAt [.zero, .one] 2 1).xfer.len = 2 ∧ (xferAt [.zero, .one] 2 1).queue.length < (xferAt [.zero, .one] 2 1).params.qDepth ∧
    (∀ b ∈ (xferAt [.zero, .one] 2 2).xfer.sub, (xferAt [.zero, .one] 2 2).xfer.len.toNat ≤ ((xferAt [.zero, .one] 2 2).xfer.buf b).moved) ∧
    (strandAt [.zero, .one] 2 0 true).xfer.stranded = true ∧ Config.Params.reference.qDepth ≤ [1#32, 2#32, 3#32, 4#32].length := by decide
theorem test_witness_hostFrame :
    (∃ t, exec .claim State.reset = .next t ∧ decide (t.seq ≠ State.reset.seq) = true) ∧
    (∃ t, exec (.start .zero) (xferAt [] 0 0) = .next t ∧ decide (t.xfer ≠ xferOf [] 0 0 false) = true) ∧
    (∃ t, exec (.construct 2 true) (waveAt 0 false 4 16 0 false) = .next t ∧ decide (t.wave.ready = true) = true) ∧
    (∃ t, exec .wait State.reset = .next t ∧ decide (t.fault ≠ none) = true) :=
  ⟨of_nextHas (by decide), of_nextHas (by decide), of_nextHas (by decide), of_nextHas (by decide)⟩
/-- Ownership given by START and by READ_NEXT, and taken back by WAIT. -/
theorem test_witness_ownership :
    (∃ t, step (withHost [.access (.reg (.write .word 0x114#10 0x10000000#32))] (xferAt [] 0 0)) = .next t ∧
      decide (t.xfer.sub ≠ []) = true) ∧
    (∃ t, step (withHost [.access (.reg (.write .word 0x114#10 0x20000001#32))] (xferAt [.zero] 0 0)) = .next t ∧
      decide (t.xfer.sub ≠ [.zero]) = true) ∧
    (∃ t, step (withHost [.refill 1] (xferAt [.zero] 2 0)) = .next t ∧ decide (t.xfer.sub ≠ [.zero]) = true) :=
  ⟨of_nextHas (by decide), of_nextHas (by decide), of_nextHas (by decide)⟩
theorem test_witness_engineOwned : (∃ t, step (withHost [.access (.memWrite .byte 0x20000008#32 7)] (xferAt [.zero] 0 0)) = .next t ∧
      decide (Memory.read t.mem 0x20000008 = 7#8) = true) ∧
    (xferAt [.zero] 0 0).xfer.guards 0x20000007 = true ∧ (xferAt [.zero] 0 0).xfer.guards 0x20000008 = false ∧
    Memory.wf (xferAt [.zero] 0 0).mem = true :=
  ⟨of_nextHas (by decide), by decide⟩
/-- Q loses its head to SEQ, and gains a word from XFER. -/
theorem test_witness_queue : (∃ t, step (seqAt 1 0x6101#16 0 0 32 32 [8, 9]) = .next t ∧ decide (t.queue = [9]) = true) ∧
    (∃ t, step (withTurn .xfer (xferAt [.zero] 0 0)) = .next t ∧ decide (t.queue = [0]) = true) :=
  ⟨of_nextHas (by decide), of_nextHas (by decide)⟩
/-- DONE holds over a READ_NEXT behind the head. -/
theorem test_witness_doneStays : (xferAt [.zero] 2 0).xfer.done = true ∧
    ∃ t, step (withHost [.access (.reg (.write .word 0x114#10 0x20000001#32))] (xferAt [.zero] 2 0)) = .next t ∧
      decide (t.xfer.sub.head? = some .zero) = true := ⟨by decide, of_nextHas (by decide)⟩
theorem test_witness_stranded : (strandAt [.zero, .one] 2 0 true).xfer.stranded = true ∧
    ∃ t, step (withTurn .xfer (strandAt [.zero, .one] 2 0 true)) = .next t ∧ decide (t.queue = []) = true :=
  ⟨by decide, of_nextHas (by decide)⟩
theorem test_witness_construct : (waveAt 0 false 4 16 0 true).wave.ready = true ∧ (waveAt 0 false 4 0 0 false).wave.rate = 0 ∧
    (waveAt 0 false 4 1 0 false).wave.rate ≠ 0 ∧ (waveAt 0 false 4 1 0 false).wave.ready = false := by decide
/-- The last phase before the wrap, and the state that is refused. -/
theorem test_witness_nextSample :
    ((waveAt 1 false 2 4 3 true).wave.phase.toNat + 1 = (waveAt 1 false 2 4 3 true).wave.rate.toNat ∧ (waveAt 1 false 2 4 3 true).wave.shape ≠ 3) ∧
    ((waveAt 0 false 1 4 0xFFFFFFFE#32 true).wave.phase ≠ 0xFFFFFFFF#32 ∧ (waveAt 0 false 1 4 0xFFFFFFFF#32 true).wave.phase = 0xFFFFFFFF#32) ∧
    ((waveAt 3 false 1 4 0 true).wave.shape = 3 ∧ (waveAt 0 false 1 4 0 false).wave.ready = false) := by decide
/-- r just below and at RATE / 2, and a fixed-point Sine of either sign. -/
theorem test_witness_sample : (waveAt 1 false 1 4 1 true).wave.ratio = 1 ∧ (waveAt 1 false 1 4 2 true).wave.ratio = 2 ∧
    (waveAt 1 false 1 4 1 true).wave.rate ≠ 0 ∧ (cosF32 2 4).getLsbD 31 = true ∧ (cosF32 1 4).getLsbD 31 = false := by decide
/-- A tie, resolved to even: 2^25 + 1 over 2^26 lies midway between two values. -/
theorem test_witness_round : roundF32 false (2 ^ 25 + 2) (2 ^ 26) = 0x3F000000#32 ∧
    (f32Units 0x3F000000#32 * 2 ^ 26 + f32Units 0x3F000001#32 * 2 ^ 26 = 2 * ((2 ^ 25 + 2) * 2 ^ 149)) := by decide
theorem test_witness_cosine : (0 : Word).toNat < (4 : Word).toNat ∧ 2 * (2 : Word).toNat = (4 : Word).toNat ∧
    4 * (1 : Word).toNat = (4 : Word).toNat ∧ 4 * (3 : Word).toNat = 3 * (4 : Word).toNat := by decide
/-- A constructed producer whose phase moves, and one whose configuration a write would change. -/
theorem test_witness_producer :
    (∃ t, step (withHost [.fill .zero 0 1 1] (waveAt 2 true 4 16 0 true)) = .next t ∧ decide (t.wave.phase ≠ 0) = true) ∧
    (∃ t, step (withHost [.access (.reg (.write .word 0x204#10 9))] (waveAt 2 true 4 16 0 true)) = .next t ∧
      decide (t.fault = some .hostProtocol) = true) :=
  ⟨of_nextHas (by decide), of_nextHas (by decide)⟩
theorem test_witness_claim : State.reset.seq.claimed = false ∧ (claimedAt false).seq.claimed = true ∧
    ∃ t, step (withHost [.access (.reg (.write .word 0x000#10 3))] (claimedAt false)) = .next t ∧ decide (t.seq.en = true) = true :=
  ⟨by decide, by decide, of_nextHas (by decide)⟩
/-- The thresholds 0, 1, 32 and 33, and the divisors 0 and 1. -/
theorem test_witness_seqCtrl : [0, 1, 32, 33].map (fun k => { (claimedAt false).seq with thresh := k }.enableCheck) =
      [some .cfgParam, none, none, some .cfgParam] ∧
    { (claimedAt false).seq with clkInt := 0 }.enableCheck = some .cfgDivisor ∧ State.reset.seq.enableCheck = some .hostProtocol ∧
    (claimedAt true).seq.en = true ∧ (3 : Word).getLsbD 1 = true := by decide
theorem test_witness_locked : (claimedAt true).seq.en = true ∧
    ∃ t, step (withHost [.access (.reg (.write .word 0x008#10 0x00050000#32))] (claimedAt true)) = .next t ∧
      decide (t.seq.clkInt = 1) = true := ⟨by decide, of_nextHas (by decide)⟩
theorem test_witness_readsBack : (claimedAt false).seq.en = false ∧ (claimedAt true).seq.en = true ∧
    (Reg.imemWin 31).offset = 0x0FC#10 ∧ (30 : SlotIdx) ≠ 31 := by decide
/-- XF_LEN with no buffer submitted and with one, the registers of an owned buffer and of the other, WAVE before and after. -/
theorem test_witness_configWrites : (xferAt [] 0 0).xfer.sub = [] ∧ (xferAt [.one] 0 0).xfer.sub ≠ [] ∧
    (xferAt [.one] 0 0).xfer.owns .zero = false ∧ (xferAt [.one] 0 0).xfer.owns .one = true ∧
    (waveAt 1 false 2 4 3 false).wave.ready = false ∧ (waveAt 1 false 2 4 3 true).wave.ready = true ∧
    (0xFFFFFFF7#32).getLsbD 3 = false := by decide
/-- R42, R43, R48 and R49 on the largest value, and what a read of each gives back. -/
theorem test_configWrites :
    nextHas (fun t => decide (t.regValue .xfLen = 0xFFFFFFFF#32)) (regAccess (.write .word 0x100#10 0xFFFFFFFF#32) (xferAt [] 0 0)) = true ∧
    nextHas (fun t => decide (t.regValue (.xfBufLen .one) = 9)) (regAccess (.write .word 0x110#10 9) (xferAt [.zero] 0 0)) = true ∧
    faultIs .hostProtocol (regAccess (.write .word 0x104#10 9) (xferAt [.zero] 0 0)) = true ∧
    nextHas (fun t => decide (t.regValue .wvCtrl = 7)) (regAccess (.write .word 0x200#10 0xFFFFFFF7#32) State.reset) = true := by decide
/-- A half-word access, a misaligned one, and the offset past the last register of each block. -/
theorem test_witness_badAccess : Width.half ≠ .word ∧ (0x002#10 : RegOffset).toNat % 4 ≠ 0 ∧
    [0x018#10, 0x07C#10, 0x120#10, 0x1FC#10, 0x218#10, 0x3FC#10].map Reg.ofOffset = List.replicate 6 none := by decide
/-- The ends of each range: BD 2 and 32, CPB 3 and 10, D 1, 65535 and 65536. -/
theorem test_witness_configure : 12 / (1 * 2 * 2 * 3) = 1 ∧ 786420 / (1 * 2 * 2 * 3) = 65535 ∧ 786432 / (1 * 2 * 2 * 3) = 65536 ∧
    nextHas (fun t => decide (t.seq.clkInt = 65535)) (configure 786420 1 2 3 State.reset) = true ∧
    nextHas (fun t => decide (t.seq.clkInt = 1)) (configure 640 1 32 10 State.reset) = true := by decide
/-- A word write over the last bytes before an owned buffer, and one byte into it. -/
theorem test_witness_memWrite : (∀ k < Width.bytes .word, (xferAt [.one] 0 0).xfer.guards (addrAt 0x20000004#32 k) = false) ∧
    (∃ k < Width.bytes .word, (xferAt [.one] 0 0).xfer.guards (addrAt 0x20000005#32 k) = true) ∧ Memory.wf State.reset.mem = true := by
  decide
/-- The byte just below the register window, its first byte, its last, and the byte just past it. -/
theorem test_witness_outsideWindow :
    (0x3FFFFFFF#32).toNat < State.reset.params.blockBase.toNat ∧ State.reset.params.blockBase.toNat + 0x400 ≤ (0x40000400#32).toNat ∧
    [0x3FFFFFFF#32, 0x40000000#32, 0x400003FF#32, 0x40000400#32].map (windowOffset State.reset.params.blockBase) =
      [none, some 0, some 0x3FF#10, none] := by decide
/-- R78, point 3: the host reads a byte and a word of an engine-owned buffer. -/
theorem test_owned_read : resultIs 0x11#32 (hostMemRead .byte 0x20000004#32 ownedBytes) = true ∧
    resultIs 0x44332211#32 (hostMemRead .word 0x20000004#32 ownedBytes) = true ∧ ownedBytes.xfer.guards 0x20000004 = true := by decide
theorem test_witness_words : Memory.wf [(0x20000000, 0x78#8), (0x20000003, 0x12#8)] = true ∧
    Memory.store [] .word 0x20000000#32 0x12000078#32 = [(0x20000000, 0x78#8), (0x20000003, 0x12#8)] := by decide
theorem test_witness_fill : ∃ t, step (withHost [.fill .zero 0 1 5] (waveAt 2 true 4 16 0 true)) = .next t ∧ decide (t.fault = none) = true :=
  of_nextHas (by decide)
/-- 70_reset R362: the head completes, and so does a buffer behind a head that is not reclaimed. -/
theorem test_witness_completes : Completes (fun n => xferAt [.zero] (n + 1) 0) .zero 1 ∧
    Completes (fun n => xferAt [.zero, .one] 2 (n + 1)) .one 1 ∧ ¬ Completes (fun n => xferAt [.zero] (n + 1) 0) .one 1 :=
  ⟨⟨by decide, ⟨by decide, by decide⟩, by decide, by decide⟩, ⟨by decide, ⟨by decide, by decide⟩, by decide, by decide⟩,
    fun h => absurd h.2.2.1 (by decide)⟩
/-- A READ_NEXT of buffer 1 that is in time, and one that is late. -/
theorem test_witness_submitsNext :
    (∃ t, exec (.readNext .one) (xferAt [.zero] 1 0) = .next t ∧ decide (t.fault = none ∧ t.xfer.done = false) = true) ∧
    (∃ t, exec (.readNext .one) (xferAt [.zero] 2 0) = .next t ∧ decide (t.fault = none ∧ t.xfer.done = true) = true) :=
  ⟨of_nextHas (by decide), of_nextHas (by decide)⟩
/-- The invariants hold in a running state, with two buffers submitted and a producer constructed. -/
theorem test_witness_seqInv : (claimedAt true).seq.Inv := ⟨by decide, by decide, by decide, by decide, by decide, by decide⟩
theorem test_witness_waveInv : (waveAt 1 false 2 4 3 true).wave.Inv := ⟨by decide, by decide, by decide, by decide⟩
theorem test_witness_xferInv : (strandAt [.zero, .one] 2 0 true).XferInv where
  nodup := by decide
  lenNe := by decide
  submitted := by
    intro b _
    cases b <;> exact ⟨by decide, by decide, by decide, by decide⟩
  disjoint := by
    intro a b h i
    have hab : a = .zero ∧ b = .one := by
      simp only [strandAt, xferOf, List.cons.injEq, and_true] at h
      exact ⟨h.1.symm, h.2.symm⟩
    obtain ⟨rfl, rfl⟩ := hab
    rintro ⟨h0, h1⟩
    simp only [XferState.buf, Buffer.holds, strandAt, xferOf, decide_eq_true_eq, BitVec.toNat_ofNat, show (2 : BitVec 32).toNat = 2 from rfl] at h0 h1
    omega
  inOrder := by
    intro a b h _
    have : a = .zero := by
      simp only [strandAt, xferOf, List.cons.injEq] at h
      exact h.1.symm
    subst this
    decide
  queueLe := by decide
  stranded := by decide
/-- Which agents have a step after reset, with SEQ enabled, with a word to move and with none. -/
theorem test_enabled : ¬ State.reset.enabled .seq ∧ (claimedAt true).enabled .seq ∧ (xferAt [.zero] 0 0).enabled .xfer ∧
    ¬ (xferAt [.zero] 2 0).enabled .xfer :=
  ⟨fun h => absurd h.2 (by decide), ⟨rfl, rfl⟩, ⟨rfl, by decide, by decide⟩, fun h => absurd h.2.1 (by decide)⟩
/-- A quiescent state with SEQ stopped, and one with SEQ stalled. -/
theorem test_witness_quiescent : (withTurn .xfer (xferAt [.zero] 2 0)).quiescent ∧ (seqAt 1 0x6101#16 0 0 32 32 []).quiescent :=
  ⟨⟨.inl rfl, by decide, rfl⟩, ⟨.inr ⟨by decide, ⟨⟨false, false⟩, 1, by decide⟩, by decide, rfl⟩, by decide, rfl⟩⟩

end Sys2Proof.Tests
end

/-! binary32 rounding (00_scope R13). The encodings below infinity list the finite magnitudes in increasing order
(`magnitudeUnits_strictMono`), and `num / den` lies between the values of two neighbouring encodings, of which
`roundF32` answers one. The nearest encoding is therefore one of these two, and a tie is a tie between them. -/

namespace Sys2Proof.Machine

/-- `f32Units` on the encoding as a number: exponent field `m / 2^23`, fraction field `m % 2^23`. -/
def magnitudeUnits (m : Nat) : Nat :=
  if m / 2 ^ 23 = 0 then m % 2 ^ 23 else (2 ^ 23 + m % 2 ^ 23) * 2 ^ (m / 2 ^ 23 - 1)

theorem f32Units_eq_magnitudeUnits {c : Word} (h : c.toNat < 2 ^ 31) : f32Units c = magnitudeUnits c.toNat := by
  have hexp : c.toNat / 2 ^ 23 % 2 ^ 8 = c.toNat / 2 ^ 23 := Nat.mod_eq_of_lt (by omega)
  simp only [f32Units, magnitudeUnits, BitVec.extractLsb'_toNat, Nat.shiftRight_eq_div_pow, hexp, pow_zero, Nat.div_one]

/-- A significand that is normal for its exponent, or any at the least exponent; 2^24 carries into the exponent field. -/
theorem magnitudeUnits_of_significand {e s : Nat} (hs : s ≤ 2 ^ 24) (hnormal : e = 0 ∨ 2 ^ 23 ≤ s) :
    magnitudeUnits (e * 2 ^ 23 + s) = s * 2 ^ e := by
  unfold magnitudeUnits
  obtain hlt | hle := Nat.lt_or_ge s (2 ^ 23)
  · obtain rfl : e = 0 := by omega
    rw [if_pos (by omega)]
    omega
  obtain hlt | rfl := Nat.lt_or_eq_of_le hs
  · have hdiv : (e * 2 ^ 23 + s) / 2 ^ 23 = e + 1 := by omega
    have hmod : 2 ^ 23 + (e * 2 ^ 23 + s) % 2 ^ 23 = s := by omega
    rw [hdiv, hmod, if_neg (by omega), Nat.add_sub_cancel]
  · have hdiv : (e * 2 ^ 23 + 2 ^ 24) / 2 ^ 23 = e + 2 := by omega
    have hmod : (e * 2 ^ 23 + 2 ^ 24) % 2 ^ 23 = 0 := by omega
    rw [hdiv, hmod, if_neg (by omega), Nat.add_sub_assoc one_le_two, pow_add]
    ring

theorem exists_significand (m : Nat) :
    ∃ e s, m = e * 2 ^ 23 + s ∧ s < 2 ^ 24 ∧ (e = 0 ∨ 2 ^ 23 ≤ s) :=
  ⟨m / 2 ^ 23 - 1, m - (m / 2 ^ 23 - 1) * 2 ^ 23, by omega, by omega, by omega⟩

theorem magnitudeUnits_strictMono : StrictMono magnitudeUnits := by
  refine strictMono_nat_of_lt_succ fun m => ?_
  obtain ⟨e, s, rfl, hs, hnormal⟩ := exists_significand m
  rw [magnitudeUnits_of_significand hs.le hnormal, Nat.add_assoc, magnitudeUnits_of_significand hs (by omega)]
  exact Nat.mul_lt_mul_of_pos_right s.lt_succ_self (by positivity)

/-- Rounding answers the neighbour on whose side of the midpoint `num` lies. -/
theorem roundNearestEven_cases (num den : Nat) :
    (roundNearestEven num den = num / den ∧ 2 * num ≤ num / den * den + (num / den + 1) * den) ∨
    (roundNearestEven num den = num / den + 1 ∧ num / den * den + (num / den + 1) * den ≤ 2 * num) := by
  have hnum := Nat.div_add_mod' num den
  rw [Nat.add_one_mul (num / den)]
  unfold roundNearestEven
  dsimp only
  split
  · exact .inr ⟨rfl, by omega⟩
  · exact .inl ⟨rfl, by omega⟩

theorem roundNearestEven_even_of_tie {num den : Nat}
    (htie : 2 * num = num / den * den + (num / den + 1) * den) : roundNearestEven num den % 2 = 0 := by
  have hnum := Nat.div_add_mod' num den
  rw [Nat.add_one_mul (num / den)] at htie
  unfold roundNearestEven
  dsimp only
  split <;> omega

/-- The exponent scales the quotient to a significand of at most 24 bits, normal unless the exponent is the least. -/
theorem f32Exponent_scales (num den : Nat) :
    num * 2 ^ 149 / (den * 2 ^ f32Exponent num den) < 2 ^ 24 ∧
    (f32Exponent num den = 0 ∨ 2 ^ 23 ≤ num * 2 ^ 149 / (den * 2 ^ f32Exponent num den)) := by
  rw [← Nat.div_div_eq_div_mul]
  unfold f32Exponent
  generalize num * 2 ^ 149 / den = units
  constructor
  · rw [Nat.div_lt_iff_lt_mul (by positivity), ← pow_add]
    exact Nat.lt_log2_self.trans_le (Nat.pow_le_pow_right two_pos (by omega))
  · refine or_iff_not_imp_left.2 fun hpos => ?_
    rw [Nat.le_div_iff_mul_le (by positivity), ← pow_add, Nat.add_sub_cancel' (by omega)]
    exact Nat.log2_self_le (by rintro rfl; simp at hpos)

theorem f32Exponent_le {num den : Nat} (hle : num ≤ den) : f32Exponent num den ≤ 126 := by
  have hunits : num * 2 ^ 149 / den ≤ 2 ^ 149 :=
    Nat.div_le_of_le_mul (Nat.mul_le_mul_right _ hle)
  have hlog : Nat.log2 (num * 2 ^ 149 / den) ≤ 149 := by
    rw [Nat.log2_eq_log_two]
    exact (Nat.log_mono_right hunits).trans_eq (Nat.log_pow one_lt_two 149)
  unfold f32Exponent
  omega

/-- The encoding less its sign that `roundF32` answers while it does not overflow. -/
def f32Magnitude (num den : Nat) : Nat :=
  f32Exponent num den * 2 ^ 23 + roundNearestEven (num * 2 ^ 149) (den * 2 ^ f32Exponent num den)

/-- The encoding of the greatest value that is at most `num / den`. -/
def f32Floor (num den : Nat) : Nat :=
  f32Exponent num den * 2 ^ 23 + num * 2 ^ 149 / (den * 2 ^ f32Exponent num den)

theorem magnitudeUnits_f32Floor (num den : Nat) : magnitudeUnits (f32Floor num den) =
    num * 2 ^ 149 / (den * 2 ^ f32Exponent num den) * 2 ^ f32Exponent num den := by
  obtain ⟨hlt, hnormal⟩ := f32Exponent_scales num den
  exact magnitudeUnits_of_significand hlt.le hnormal

theorem magnitudeUnits_f32Floor_succ (num den : Nat) : magnitudeUnits (f32Floor num den + 1) =
    (num * 2 ^ 149 / (den * 2 ^ f32Exponent num den) + 1) * 2 ^ f32Exponent num den := by
  obtain ⟨hlt, hnormal⟩ := f32Exponent_scales num den
  rw [f32Floor, Nat.add_assoc]
  exact magnitudeUnits_of_significand hlt (by omega)

/-- The value of the encoding `m`, scaled by `2^149 * den` so that it compares with `num * 2^149` for `num / den`. -/
def scaledValue (den m : Nat) : Nat := magnitudeUnits m * den

theorem scaledValue_strictMono {den : Nat} (hden : 0 < den) : StrictMono (scaledValue den) :=
  magnitudeUnits_strictMono.mul_const hden

theorem scaledValue_f32Floor (num den : Nat) : scaledValue den (f32Floor num den) =
    num * 2 ^ 149 / (den * 2 ^ f32Exponent num den) * (den * 2 ^ f32Exponent num den) := by
  rw [scaledValue, magnitudeUnits_f32Floor]
  ring

theorem scaledValue_f32Floor_succ (num den : Nat) : scaledValue den (f32Floor num den + 1) =
    (num * 2 ^ 149 / (den * 2 ^ f32Exponent num den) + 1) * (den * 2 ^ f32Exponent num den) := by
  rw [scaledValue, magnitudeUnits_f32Floor_succ]
  ring

theorem scaledValue_f32Floor_le (num den : Nat) : scaledValue den (f32Floor num den) ≤ num * 2 ^ 149 :=
  (scaledValue_f32Floor num den).trans_le (Nat.div_mul_le_self _ _)

theorem lt_scaledValue_f32Floor_succ (num : Nat) {den : Nat} (hden : 0 < den) :
    num * 2 ^ 149 < scaledValue den (f32Floor num den + 1) := by
  rw [scaledValue_f32Floor_succ]
  exact Nat.lt_mul_of_div_lt (Nat.lt_succ_self _) (by positivity)

theorem f32Magnitude_cases (num den : Nat) :
    (f32Magnitude num den = f32Floor num den ∧
      2 * (num * 2 ^ 149) ≤ scaledValue den (f32Floor num den) + scaledValue den (f32Floor num den + 1)) ∨
    (f32Magnitude num den = f32Floor num den + 1 ∧
      scaledValue den (f32Floor num den) + scaledValue den (f32Floor num den + 1) ≤ 2 * (num * 2 ^ 149)) := by
  rw [scaledValue_f32Floor, scaledValue_f32Floor_succ]
  obtain ⟨hround, hside⟩ | ⟨hround, hside⟩ :=
    roundNearestEven_cases (num * 2 ^ 149) (den * 2 ^ f32Exponent num den)
  · exact .inl ⟨by rw [f32Magnitude, hround, f32Floor], hside⟩
  · exact .inr ⟨by rw [f32Magnitude, hround, f32Floor, Nat.add_assoc], hside⟩

theorem f32Magnitude_even_of_tie {num den : Nat}
    (htie : 2 * (num * 2 ^ 149) = scaledValue den (f32Floor num den) + scaledValue den (f32Floor num den + 1)) :
    f32Magnitude num den % 2 = 0 := by
  rw [scaledValue_f32Floor, scaledValue_f32Floor_succ] at htie
  have heven := roundNearestEven_even_of_tie htie
  unfold f32Magnitude
  omega

/-- Of a strictly increasing list of values, the two around `x` are the nearest to it: the one on `x`'s side of their
midpoint is as near as any, and another is as near only where `x` is the midpoint. -/
theorem nearest_of_neighbours {value : Nat → Nat} (hmono : StrictMono value) {x m best : Nat}
    (hle : value m ≤ x) (hlt : x < value (m + 1))
    (hbest : (best = m ∧ 2 * x ≤ value m + value (m + 1)) ∨ (best = m + 1 ∧ value m + value (m + 1) ≤ 2 * x)) (c : Nat) :
    |(value best : Int) - x| ≤ |(value c : Int) - x| ∧
    (|(value best : Int) - x| = |(value c : Int) - x| → c ≠ best → 2 * x = value m + value (m + 1)) := by
  have hside : c < m ∧ value c < value m ∨ c = m ∨ c = m + 1 ∨ m + 1 < c ∧ value (m + 1) < value c := by
    obtain h | h | h | h : c < m ∨ c = m ∨ c = m + 1 ∨ m + 1 < c := by omega
    · exact .inl ⟨h, hmono h⟩
    · exact .inr (.inl h)
    · exact .inr (.inr (.inl h))
    · exact .inr (.inr (.inr ⟨h, hmono h⟩))
  simp only [abs_eq_max_neg]
  obtain ⟨rfl, hmid⟩ | ⟨rfl, hmid⟩ := hbest
  · obtain ⟨hc, hv⟩ | rfl | rfl | ⟨hc, hv⟩ := hside <;> omega
  · obtain ⟨hc, hv⟩ | rfl | rfl | ⟨hc, hv⟩ := hside <;> omega

theorem f32Magnitude_lt {num den : Nat} (hle : num ≤ den) : f32Magnitude num den < 0x7F800000 := by
  have hexp := f32Exponent_le hle
  obtain ⟨hlt, -⟩ := f32Exponent_scales num den
  have hcases := f32Magnitude_cases num den
  unfold f32Floor at hcases
  omega

theorem roundF32_zero (neg : Bool) (den : Nat) : roundF32 neg 0 den = 0 := rfl

theorem roundF32_eq_append {num den : Nat} (neg : Bool) (hnum : 0 < num) (hle : num ≤ den) :
    roundF32 neg num den = (BitVec.ofBool neg ++ BitVec.ofNat 31 (f32Magnitude num den) : BitVec (1 + 31)) := by
  have hmin : min (f32Magnitude num den) 0x7F800000 = f32Magnitude num den :=
    min_eq_left (f32Magnitude_lt hle).le
  unfold roundF32
  rw [if_neg (by omega)]
  dsimp only
  rw [← f32Magnitude, hmin]

theorem roundF32_toNat {num den : Nat} (hnum : 0 < num) (hle : num ≤ den) :
    (roundF32 false num den).toNat = f32Magnitude num den := by
  have hlt := f32Magnitude_lt hle
  rw [roundF32_eq_append false hnum hle]
  have h31 : f32Magnitude num den < 2 ^ 31 := by omega
  rw [BitVec.toNat_append, BitVec.toNat_ofNat, Nat.mod_eq_of_lt h31]
  exact Nat.zero_or _

/-- The sign is bit 31 and nothing else. -/
theorem roundF32_true_eq_or {num den : Nat} (hnum : 0 < num) (hle : num ≤ den) :
    roundF32 true num den = roundF32 false num den ||| 0x80000000#32 := by
  rw [roundF32_eq_append true hnum hle, roundF32_eq_append false hnum hle]
  have hsign : (0x80000000#32 : BitVec (1 + 31)) = BitVec.ofBool true ++ 0#31 := rfl
  rw [hsign, BitVec.or_append]
  simp

/-- The nearest among the encodings with sign bit 0, in the terms of `f32Units`. -/
theorem roundF32_nearest {num den : Nat} (hnum : 0 < num) (hle : num ≤ den) {c : Word} (hc : c.toNat < 0x7F800000) :
    |(f32Units (roundF32 false num den) * den : Int) - num * 2 ^ 149| ≤ |(f32Units c * den : Int) - num * 2 ^ 149| ∧
    (|(f32Units (roundF32 false num den) * den : Int) - num * 2 ^ 149| = |(f32Units c * den : Int) - num * 2 ^ 149| →
      c ≠ roundF32 false num den → (roundF32 false num den).getLsbD 0 = false) := by
  have hden : 0 < den := by omega
  have hround := roundF32_toNat hnum hle
  have hlt := f32Magnitude_lt hle
  obtain ⟨hnear, htie⟩ := nearest_of_neighbours (scaledValue_strictMono hden) (scaledValue_f32Floor_le num den)
    (lt_scaledValue_f32Floor_succ num hden) (f32Magnitude_cases num den) c.toNat
  rw [f32Units_eq_magnitudeUnits (c := c) (by omega), f32Units_eq_magnitudeUnits (by omega), hround]
  simp only [scaledValue, Nat.cast_mul, Nat.cast_pow, Nat.cast_ofNat] at hnear htie
  refine ⟨hnear, fun heq hne => ?_⟩
  have heven := f32Magnitude_even_of_tie (htie heq fun h => hne (BitVec.eq_of_toNat_eq (h.trans hround.symm)))
  simpa [BitVec.getLsbD, hround, Nat.testBit_zero] using heven

/-- Settles O40: `roundF32` answers one of the two encodings around `num / den`, on the side the midpoint decides. -/
theorem roundF32IsNearestEven : Obligations.RoundF32IsNearestEven := by
  refine ⟨roundF32_zero, fun num den hnum hle => ⟨?_, roundF32_true_eq_or hnum hle, fun c hc => roundF32_nearest hnum hle hc⟩⟩
  have hlt := f32Magnitude_lt hle
  exact Nat.testBit_lt_two_pow ((roundF32_toNat hnum hle).trans_lt (by omega))

end Sys2Proof.Machine

/-! What the host can do to each unit of the block, and the invariants that every step keeps (10_state R24 to R55). A
step that is no reset is the host's turn, XFER's, or a sequencer cycle's (`step_cases`), so a rule about one unit is a
rule about the few effects that reach it. -/

namespace Sys2Proof.Machine

variable {s t : State}

/-! ### System memory -/

/-- The host's memory write is the one effect of its turn that reaches system memory. -/
theorem HostEffect.mem_cases (h : HostEffect s t) :
    t.mem = s.mem ∨ ∃ width a v, t.mem = Memory.store s.mem width a v := by
  cases h with
  | idle | fault | read | write => exact .inl (by simp)
  | memWrite width a v => exact .inr ⟨width, a, v, rfl⟩
  | op i t hi hx => cases exec_hostOp_next hi hx <;> exact .inl (by simp)
  | plainWrite v t hw => cases hw <;> exact .inl (by simp)

/-- A step leaves system memory alone or makes one host store. -/
theorem step_mem_cases (h : step s = .next t) :
    t.mem = s.mem ∨ ∃ width a v, t.mem = Memory.store s.mem width a v := by
  obtain ⟨_, rfl⟩ | ⟨ht, _⟩ := step_next h
  · exact .inl (by simp)
  obtain ⟨_, ⟨_, hx⟩ | ⟨_, hx⟩ | ⟨_, _, hx⟩⟩ := step_cases ht h
  · obtain rfl | ⟨_, _, _, rfl⟩ := xferTurn_next hx <;> exact .inl (by simp)
  · simpa using (hostTurn_next hx).mem_cases
  · cases hx <;> exact .inl (by simp)

/-- Settles O54: the one store that a step can make keeps the canonical form. -/
theorem stepKeepsMemoryForm : Obligations.StepKeepsMemoryForm := by
  intro s t hwf h
  obtain hm | ⟨width, a, v, hm⟩ := step_mem_cases h <;> rw [hm]
  · exact hwf
  · exact Memory.wf_store width a v hwf

/-! ### SEQ -/

/-- What the host's turn can do to SEQ: acquire it, write SEQ_CTRL, or write its configuration while it is stopped. -/
inductive HostSeqEffect (q : SeqState) : SeqState → Prop where
  | same : HostSeqEffect q q
  | claim : HostSeqEffect q { q with claimed := true }
  | ctrl (v : Word) (check : q.en = false → v.getLsbD 0 = true → q.enableCheck = none) (r : SeqState)
      (hr : r = q ∨ q.en = false ∧ r = q.restart) : HostSeqEffect q { r with en := v.getLsbD 0 }
  | clkDiv (v : Word) (stopped : q.en = false) : HostSeqEffect q (q.withClkDiv v)
  | cfg (v : Word) (stopped : q.en = false) : HostSeqEffect q (q.withCfg v)
  | pins (v : Word) (stopped : q.en = false) : HostSeqEffect q (q.withPins v)
  | slot (i : SlotIdx) (w : SlotWord) (stopped : q.en = false) : HostSeqEffect q (q.setSlot i w)

theorem PlainWriteEffect.seqEffect {v : Word} (h : PlainWriteEffect s v t) : HostSeqEffect s.seq t.seq := by
  cases h with
  | fault | xfLen | buffer | waveConfig | ignored => simpa using HostSeqEffect.same
  | seqCtrl running check =>
    refine .ctrl v check _ ?_
    cases hv : v.getLsbD 1
    · exact .inl (by simp)
    · exact .inr ⟨Bool.eq_false_iff.mpr fun he => absurd (hv.symm.trans (running he)) (by decide), by simp⟩
  | seqConfig stopped q hq =>
    obtain rfl | rfl | rfl | ⟨i, rfl⟩ := hq
    · exact .clkDiv v stopped
    · exact .cfg v stopped
    · exact .pins v stopped
    · exact .slot i _ stopped

theorem HostEffect.seqEffect (h : HostEffect s t) : HostSeqEffect s.seq t.seq := by
  cases h with
  | idle | fault | read | write | memWrite => simpa using HostSeqEffect.same
  | plainWrite v t hw => exact hw.seqEffect
  | op i t hi hx =>
    cases exec_hostOp_next hi hx with
    | claim => exact .claim
    | fault | blocked | start | readNext | isDone | reclaim | nextSample | construct => simpa using HostSeqEffect.same

/-- Every step that is no reset leaves SEQ alone, runs one of its cycles, or is the host's. -/
theorem step_seq_cases (ht : s.turn ≠ .reset) (h : step s = .next t) :
    HostSeqEffect s.seq t.seq ∨ (s.seq.en = true ∧ SeqState.Cycles s.seq t.seq) := by
  obtain ⟨_, ⟨_, hx⟩ | ⟨_, hx⟩ | ⟨_, _, hx⟩⟩ := step_cases ht h
  · obtain rfl | ⟨_, _, _, rfl⟩ := xferTurn_next hx <;> exact .inl (by simpa using HostSeqEffect.same)
  · exact .inl (by simpa using (hostTurn_next hx).seqEffect)
  · cases hx with
    | idle | fault => exact .inl (by simpa using HostSeqEffect.same)
    | cycle q qu en hq keep => exact .inr ⟨by simpa using en, by simpa using keep⟩

/-- Settles O44: neither a cycle nor any effect of the host clears CLAIMED. -/
theorem claimLastsUntilReset : Obligations.ClaimLastsUntilReset := by
  intro s t ht h hc
  obtain hx | ⟨_, keep⟩ := step_seq_cases ht h
  · generalize t.seq = q at hx
    cases hx with
    | same | clkDiv | cfg | pins | slot => exact hc
    | claim => rfl
    | ctrl v check r hr => obtain rfl | ⟨_, rfl⟩ := hr <;> exact hc
  · exact keep.claimed.trans hc

/-- Settles O46: a cycle keeps the program and the configuration, and with EN = 1 the host can only claim or stop SEQ. -/
theorem seqConfigLockedWhileRunning : Obligations.SeqConfigLockedWhileRunning := by
  intro s t ht h he
  obtain hx | ⟨_, k⟩ := step_seq_cases ht h
  · generalize t.seq = q at hx
    cases hx with
    | same | claim => simp
    | clkDiv _ stopped | cfg _ stopped | pins _ stopped | slot _ _ stopped => simp [he] at stopped
    | ctrl v check r hr =>
      obtain rfl | ⟨stopped, _⟩ := hr
      · simp
      · simp [he] at stopped
  · exact ⟨k.imem, k.clkInt, k.clkFrac, k.wrapBottom, k.wrapTop, k.entry, k.thresh, k.dataPin, k.bclkPin, k.lrclkPin⟩

/-- Only the clock turn moves DIVCNT and the kept length: a SEQ instruction leaves both alone. -/
theorem exec_seq_divider {i : Instr} (hi : i.isSeq = true) (h : exec i s = .next t) :
    t.seq.divCnt = s.seq.divCnt ∧ t.seq.cycleLen = s.seq.cycleLen := by
  cases i with
  | start | readNext | isDone | wait | nextSample | construct | claim => cases hi
  | jmp => obtain rfl := execJmp_next h; simp
  | jmpXdec => obtain rfl := execJmpXdec_next h; simp
  | setX => obtain rfl := execSetX_next h; simp
  | outPins => obtain ⟨_, rfl⟩ | ⟨_, _, _, _, rfl⟩ := execOutPins_next h <;> simp

theorem seqCycle_divider (h : seqCycle s = .next t) :
    t.seq.divCnt = s.seq.divCnt ∧ t.seq.cycleLen = s.seq.cycleLen := by
  obtain ⟨_, rfl⟩ | ⟨_, c, rfl⟩ | ⟨_, _, _, _, _, hi, hx⟩ := seqCycle_next h
  · simp
  · simp
  · exact exec_seq_divider hi hx

/-- OSC grows only below THRESH, which is at most 32 while SEQ runs. -/
theorem SeqState.Cycles.osc_le {p q : SeqState} (keep : SeqState.Cycles p q) (hp : p.Inv) (en : p.en = true) :
    q.osc.toNat ≤ 32 := by
  have hosc := hp.oscLe
  have hthresh := (hp.enThreshold en).2
  obtain h | h | ⟨hlt, h⟩ := keep.osc <;> rw [h]
  · exact hosc
  · decide
  · bv_omega

theorem seqCycle_keeps_seqInv (hs : s.seq.Inv) (en : s.seq.en = true) (h : seqCycle s = .next t) : t.seq.Inv := by
  obtain ⟨hdiv, hlen⟩ := seqCycle_divider h
  obtain ⟨c, rfl⟩ | ⟨q, qu, rfl, _, keep⟩ := seqCycle_effect h
  · simpa using hs
  · exact {
      oscLe := keep.osc_le hs en
      cycleLenLe := hlen ▸ hs.cycleLenLe
      divCntLt := hdiv ▸ hlen ▸ hs.divCntLt
      enClaimed := fun _ => keep.claimed.trans (hs.enClaimed en)
      enDivisor := fun _ => keep.clkInt ▸ hs.enDivisor en
      enThreshold := fun _ => keep.thresh ▸ hs.enThreshold en }

/-- DIVCNT counts up inside the kept length, which fits its 16 bits, and returns to 0 at the end of it. -/
theorem SeqState.Inv.countCycle {q : SeqState} (h : q.Inv) : q.countCycle.Inv where
  oscLe := h.oscLe
  cycleLenLe := h.cycleLenLe
  divCntLt := by
    have hlen := h.cycleLenLe
    simp only [SeqState.countCycle]
    split
    · intro _
      rw [BitVec.toNat_add_of_not_uaddOverflow] <;> simp [BitVec.uaddOverflow] <;> omega
    · simp
  enClaimed := h.enClaimed
  enDivisor := h.enDivisor
  enThreshold := h.enThreshold

theorem SeqState.cycleLength_le (q : SeqState) : q.cycleLength ≤ 65536 := by
  have := q.clkInt.isLt
  unfold SeqState.cycleLength
  split <;> omega

theorem SeqState.Inv.startCycle {q : SeqState} (h : q.Inv) (hd : q.divCnt = 0) : q.startCycle.Inv where
  oscLe := h.oscLe
  cycleLenLe := q.cycleLength_le
  divCntLt := absurd hd
  enClaimed := h.enClaimed
  enDivisor := h.enDivisor
  enThreshold := h.enThreshold

theorem clockTurn_keeps_seqInv (hs : s.seq.Inv) (h : clockTurn s = .next t) : t.seq.Inv := by
  obtain ⟨_, rfl⟩ | ⟨_, _, rfl⟩ | ⟨en, hd, u, hu, h⟩ := clockTurn_next h
  · exact hs
  · exact hs.countCycle
  · have hinv := seqCycle_keeps_seqInv hs en hu
    obtain ⟨_, rfl⟩ | ⟨_, rfl⟩ := h
    · exact (hinv.startCycle ((seqCycle_divider hu).1.trans hd)).countCycle
    · exact hinv

/-- What the write of SEQ_CTRL has checked when it sets EN (10_state R32). -/
theorem SeqState.enableCheck_eq_none {q : SeqState} :
    q.enableCheck = none ↔ q.claimed = true ∧ q.clkInt ≠ 0 ∧ 1 ≤ q.thresh.toNat ∧ q.thresh.toNat ≤ 32 := by
  unfold SeqState.enableCheck
  split_ifs with h1 h2 h3
  · simp [h1]
  · simp [h2]
  · simp; omega
  · simp_all; omega

theorem SeqState.Inv.restart {q : SeqState} (h : q.Inv) : q.restart.Inv where
  oscLe := le_refl 32
  cycleLenLe := h.cycleLenLe
  divCntLt := absurd rfl
  enClaimed := h.enClaimed
  enDivisor := h.enDivisor
  enThreshold := h.enThreshold

/-- EN may be written where the enable checks hold whenever it is set. -/
theorem SeqState.Inv.setEn {q : SeqState} (h : q.Inv) (e : Bool) (check : e = true → q.enableCheck = none) :
    SeqState.Inv { q with en := e } := by
  have passed := fun he => SeqState.enableCheck_eq_none.mp (check he)
  exact {
    oscLe := h.oscLe
    cycleLenLe := h.cycleLenLe
    divCntLt := h.divCntLt
    enClaimed := fun he => (passed he).1
    enDivisor := fun he => (passed he).2.1
    enThreshold := fun he => (passed he).2.2 }

/-- A stopped SEQ may be given any program and configuration. -/
theorem SeqState.Inv.of_stopped {p q : SeqState} (h : p.Inv) (osc : q.osc = p.osc) (len : q.cycleLen = p.cycleLen)
    (div : q.divCnt = p.divCnt) (stopped : q.en = false) : q.Inv where
  oscLe := osc ▸ h.oscLe
  cycleLenLe := len ▸ h.cycleLenLe
  divCntLt := by rw [div, len]; exact h.divCntLt
  enClaimed he := by simp [stopped] at he
  enDivisor he := by simp [stopped] at he
  enThreshold he := by simp [stopped] at he

theorem HostSeqEffect.keeps_inv {p q : SeqState} (h : HostSeqEffect p q) (hp : p.Inv) : q.Inv := by
  cases h with
  | same => exact hp
  | claim => exact ⟨hp.oscLe, hp.cycleLenLe, hp.divCntLt, fun _ => rfl, hp.enDivisor, hp.enThreshold⟩
  | clkDiv _ stopped | cfg _ stopped | pins _ stopped | slot _ _ stopped => exact hp.of_stopped rfl rfl rfl stopped
  | ctrl v check r hr =>
    have checked : v.getLsbD 0 = true → p.enableCheck = none := by
      intro hv
      cases en : p.en
      · exact check en hv
      · exact SeqState.enableCheck_eq_none.mpr ⟨hp.enClaimed en, hp.enDivisor en, hp.enThreshold en⟩
    obtain rfl | ⟨_, rfl⟩ := hr
    · exact hp.setEn _ checked
    · exact hp.restart.setEn _ checked

theorem SeqState.inv_reset : SeqState.reset.Inv := by
  constructor <;> simp [SeqState.reset]

/-- Settles O55: SEQ's invariant holds after a reset, and each turn keeps it. -/
theorem stepKeepsSeqInvariant : Obligations.StepKeepsSeqInvariant := by
  intro s t hs h
  obtain ⟨_, rfl⟩ | ⟨ht, _⟩ := step_next h
  · exact SeqState.inv_reset
  replace hs : s.tick.seq.Inv := by simpa using hs
  obtain ⟨_, ⟨_, hx⟩ | ⟨_, hx⟩ | ⟨hturn, hx, _⟩⟩ := step_cases ht h
  · obtain rfl | ⟨_, _, _, rfl⟩ := xferTurn_next hx <;> exact hs
  · exact (hostTurn_next hx).seqEffect.keeps_inv hs
  · obtain hturn | hturn := hturn <;> rw [hturn] at hx
    · obtain ⟨_, rfl⟩ | ⟨en, hx⟩ := seqTurn_next hx
      · exact hs
      · exact seqCycle_keeps_seqInv hs en hx
    · exact clockTurn_keeps_seqInv hs hx

/-! ### XFER -/

theorem Buffer.holds_iff {b : Buffer} {i : Nat} :
    Buffer.holds b i = true ↔ b.addr.toNat ≤ i ∧ i < b.addr.toNat + 4 * b.len.toNat := by
  simp [Buffer.holds]

theorem Buffer.holds_congr {u v : Buffer} (addr : u.addr = v.addr) (len : u.len = v.len) (i : Nat) :
    Buffer.holds u i = Buffer.holds v i := by
  simp only [Buffer.holds, addr, len]

theorem XferState.Submitted.congr {x y : XferState} {b : BufId} (h : x.Submitted b) (hb : y.buf b = x.buf b)
    (hl : y.len = x.len) : y.Submitted b where
  movedLe := hb ▸ hl ▸ h.movedLe
  lenEq := hb ▸ hl ▸ h.lenEq
  aligned := hb ▸ h.aligned
  noWrap := hb ▸ hl ▸ h.noWrap

/-- What SUBMIT_CHECK accepts (43_transfer_engine R223): a whole, aligned buffer that shares no byte with the other. -/
theorem XferState.submitCheck_eq_none {x : XferState} {b : BufId} (h : x.submitCheck b = none) :
    x.len ≠ 0 ∧ (x.submit b).Submitted b ∧ ((x.buf (BufId.other b)).len ≠ 0 →
      ∀ i, ¬ (Buffer.holds (x.buf b) i = true ∧ Buffer.holds (x.buf (BufId.other b)) i = true)) := by
  unfold XferState.submitCheck at h
  dsimp only at h
  split_ifs at h with hlen hmine haligned hwrap hmeet
  have hmine : (x.buf b).len = x.len := not_not.mp hmine
  refine ⟨hlen, ⟨by simp, by simpa using hmine, ?_, by simpa using hwrap⟩, fun hother i => ?_⟩
  · have := congrArg BitVec.toNat (not_not.mp haligned)
    simpa using this
  · simp only [hother, rangesMeet, ne_eq, not_false_eq_true, true_and, decide_eq_true_eq] at hmeet
    rw [Buffer.holds_iff, Buffer.holds_iff, hmine]
    omega

/-- With two buffers submitted, the second is active only once the first has no words left. -/
theorem XferState.active_second {x : XferState} {a b : BufId} (h : x.active = some b) (hsub : x.sub = [a, b])
    (ne : a ≠ b) : x.len.toNat ≤ (x.buf a).moved := by
  by_contra hlt
  unfold XferState.active at h
  split_ifs at h
  simp [hsub, Nat.lt_of_not_le hlt, ne] at h

theorem BufId.not_nodup_three (a b c : BufId) : ¬ [a, b, c].Nodup := by
  cases a <;> cases b <;> cases c <;> decide

/-- XFER's invariant speaks of the submitted buffers, of the parameters, and of the length of Q alone. -/
theorem State.XferInv.congr (h : s.XferInv) (sub : t.xfer.sub = s.xfer.sub) (len : t.xfer.len = s.xfer.len)
    (stranded : t.xfer.stranded = s.xfer.stranded) (buf : ∀ b ∈ s.xfer.sub, t.xfer.buf b = s.xfer.buf b)
    (params : t.params = s.params) (queue : t.queue.length ≤ s.queue.length) : t.XferInv := by
  have two : ∀ c d, s.xfer.sub = [c, d] → t.xfer.buf c = s.xfer.buf c ∧ t.xfer.buf d = s.xfer.buf d :=
    fun c d hcd => ⟨buf c (by simp [hcd]), buf d (by simp [hcd])⟩
  refine ⟨sub ▸ h.nodup, sub ▸ len ▸ h.lenNe, ?_, ?_, ?_, params ▸ queue.trans h.queueLe, ?_⟩ <;>
    simp only [sub, len, stranded, params]
  · exact fun c hc => (h.submitted c hc).congr (buf c hc) len
  · intro c d hcd
    rw [(two c d hcd).1, (two c d hcd).2]
    exact h.disjoint c d hcd
  · intro c d hcd
    rw [(two c d hcd).2, XferState.finished_congr (two c d hcd).1 len]
    exact h.inOrder c d hcd
  · intro hs
    obtain ⟨policy, c, hc, hlt⟩ := h.stranded hs
    exact ⟨policy, c, hc, by rwa [buf c hc]⟩

theorem State.XferInv.of_xfer_eq (h : s.XferInv) (xfer : t.xfer = s.xfer) (params : t.params = s.params)
    (queue : t.queue.length ≤ s.queue.length) : t.XferInv :=
  h.congr (by rw [xfer]) (by rw [xfer]) (by rw [xfer]) (fun _ _ => by rw [xfer]) params queue

/-- A submission of a buffer that the host owns: START with SUB empty, READ_NEXT behind one other. -/
theorem State.XferInv.submit (h : s.XferInv) {b : BufId} (fresh : b ∉ s.xfer.sub) (check : s.xfer.submitCheck b = none)
    (strands : Bool) (late : strands = true → s.params.lateSubmit = .strand) :
    State.XferInv { s with xfer := { s.xfer.submit b with stranded := strands } } := by
  obtain ⟨hlen, hb, hdisjoint⟩ := XferState.submitCheck_eq_none check
  have ne : ∀ c ∈ s.xfer.sub, c ≠ b := fun c hc hcb => fresh (hcb ▸ hc)
  have keeps : ∀ c ∈ s.xfer.sub, (s.xfer.submit b).buf c = s.xfer.buf c :=
    fun c hc => s.xfer.submit_buf_of_ne b (ne c hc)
  have moved : ((s.xfer.submit b).buf b).moved = 0 := by simp
  have unfinished : ((s.xfer.submit b).buf b).moved < (s.xfer.submit b).len.toNat := by
    simpa [Nat.pos_iff_ne_zero, ← BitVec.toNat_inj] using hlen
  have second : ∀ c d, s.xfer.sub ++ [b] = [c, d] → c ∈ s.xfer.sub ∧ d = b := by
    intro c d hcd
    obtain ⟨hc, hd⟩ := List.append_inj' (s₂ := [c]) (t₂ := [d]) hcd rfl
    exact ⟨by simp [hc], by simpa using hd.symm⟩
  exact {
    nodup := List.nodup_append_comm.mp (List.nodup_cons.mpr ⟨fresh, h.nodup⟩)
    lenNe := fun _ => by simpa using hlen
    submitted := by
      intro c hc
      obtain hc | hc := List.mem_append.mp hc
      · exact (h.submitted c hc).congr (keeps c hc) (by simp)
      · obtain rfl := List.mem_singleton.mp hc
        exact hb.congr rfl rfl
    disjoint := by
      rintro c d hcd i ⟨hci, hdi⟩
      obtain ⟨hc, rfl⟩ := second c d hcd
      obtain rfl := BufId.eq_other_of_ne d (ne c hc)
      have hother : (s.xfer.buf (BufId.other d)).len ≠ 0 := (h.submitted _ hc).lenEq ▸ hlen
      refine hdisjoint hother i ⟨?_, ?_⟩
      · rwa [← Buffer.holds_congr (u := (s.xfer.submit d).buf d) (by simp) (by simp)]
      · rwa [← keeps _ hc]
    inOrder := by
      intro c d hcd hmoved
      obtain ⟨_, rfl⟩ := second c d hcd
      exact absurd moved hmoved.ne'
    queueLe := h.queueLe
    stranded := fun hs => ⟨late hs, b, by simp, unfinished⟩ }

/-- The head's reclaim by WAIT: what is left was behind a finished buffer. -/
theorem State.XferInv.reclaim (h : s.XferInv) {a : BufId} {rest : List BufId} (hsub : s.xfer.sub = a :: rest)
    (done : s.xfer.finished a = true) : State.XferInv { s with xfer := { s.xfer with sub := rest } } := by
  have hnodup := hsub ▸ h.nodup
  have notTwo : ∀ c d, rest ≠ [c, d] := by
    rintro c d rfl
    exact BufId.not_nodup_three a c d hnodup
  have mem : ∀ b ∈ rest, b ∈ s.xfer.sub := fun b hb => hsub ▸ List.mem_cons_of_mem a hb
  exact {
    nodup := hnodup.of_cons
    lenNe := fun _ => h.lenNe (by simp [hsub])
    submitted := fun b hb => (h.submitted b (mem b hb)).congr rfl rfl
    disjoint := fun c d hcd => absurd hcd (notTwo c d)
    inOrder := fun c d hcd => absurd hcd (notTwo c d)
    queueLe := h.queueLe
    stranded := by
      intro hs
      obtain ⟨policy, b, hb, hlt⟩ := h.stranded hs
      refine ⟨policy, b, ?_, hlt⟩
      obtain rfl | hb := List.mem_cons.mp (hsub ▸ hb)
      · simp only [XferState.finished, decide_eq_true_eq] at done
        omega
      · exact hb }

/-- With no buffer submitted, XF_LEN may take any value. -/
theorem State.XferInv.setLen (h : s.XferInv) (hsub : s.xfer.sub = []) (v : Word) :
    State.XferInv { s with xfer := { s.xfer with len := v } } where
  nodup := h.nodup
  lenNe := absurd hsub
  submitted := by simp [hsub]
  disjoint := by simp [hsub]
  inOrder := by simp [hsub]
  queueLe := h.queueLe
  stranded := fun hs => by
    obtain ⟨_, b, hb, _⟩ := h.stranded hs
    simp [hsub] at hb

/-- XFER's invariant does not look at a buffer that the host owns. -/
theorem State.XferInv.setBuf (h : s.XferInv) {b : BufId} (owned : b ∉ s.xfer.sub) (u : Buffer) :
    State.XferInv { s with xfer := s.xfer.setBuf b u } :=
  h.congr (by simp) (by simp) (by simp) (fun _ hc => s.xfer.buf_setBuf_of_ne b u fun hcb => owned (hcb ▸ hc)) rfl le_rfl

/-- The word move of the active buffer: it counts MOVED up to XF_LEN, and the head is finished before its successor. -/
theorem State.XferInv.move (h : s.XferInv) {b : BufId} (active : s.xfer.active = some b) (w : Word)
    (room : s.queue.length < s.params.qDepth) :
    State.XferInv { s with
      queue := s.queue ++ [w]
      xfer := s.xfer.setBuf b { s.xfer.buf b with moved := (s.xfer.buf b).moved + 1 } } := by
  obtain ⟨idle, hb, hlt⟩ := XferState.active_some active
  generalize hx : s.xfer.setBuf b { s.xfer.buf b with moved := (s.xfer.buf b).moved + 1 } = x
  have sub : x.sub = s.xfer.sub := by simp [← hx]
  have len : x.len = s.xfer.len := by simp [← hx]
  have stranded : x.stranded = false := by simpa [← hx] using idle
  have same : x.buf b = { s.xfer.buf b with moved := (s.xfer.buf b).moved + 1 } := by simp [← hx]
  have other : ∀ c, c ≠ b → x.buf c = s.xfer.buf c := fun c hc => by rw [← hx, s.xfer.buf_setBuf_of_ne b _ hc]
  have place : ∀ c i, Buffer.holds (x.buf c) i = Buffer.holds (s.xfer.buf c) i := by
    intro c i
    obtain rfl | hc := eq_or_ne c b
    · exact Buffer.holds_congr (by rw [same]) (by rw [same]) i
    · rw [other c hc]
  refine ⟨sub ▸ h.nodup, sub ▸ len ▸ h.lenNe, fun c hc => ?_, fun c d hcd i => ?_, fun c d hcd hmoved => ?_,
    by simpa using room, by simp [stranded]⟩
  · have hc := h.submitted c (sub ▸ hc)
    obtain rfl | ne := eq_or_ne c b
    · exact ⟨by rw [same, len]; exact hlt, by rw [same, len]; exact hc.lenEq, by rw [same]; exact hc.aligned,
        by rw [same, len]; exact hc.noWrap⟩
    · exact hc.congr (other c ne) len
  · rw [place, place]
    exact h.disjoint c d (sub ▸ hcd) i
  · replace hcd : s.xfer.sub = [c, d] := sub ▸ hcd
    have hcdne : c ≠ d := by simpa [hcd] using h.nodup
    obtain rfl | ne := eq_or_ne d b
    · have hle := (h.submitted c (by simp [hcd])).movedLe
      have hge := XferState.active_second active hcd hcdne
      exact (XferState.finished_congr (other c hcdne) len).trans (decide_eq_true (le_antisymm hle hge))
    · obtain rfl : b = c := by simpa [hcd, ne.symm] using hb
      have hfin := h.inOrder b d hcd (other d ne ▸ hmoved)
      simp only [XferState.finished, decide_eq_true_eq] at hfin
      omega

theorem HostEffect.keeps_xferInv (h : HostEffect s t) (hs : s.XferInv) : t.XferInv := by
  cases h with
  | idle | fault | read | write | memWrite => exact hs.of_xfer_eq (by simp) (by simp) (by simp)
  | op i t hi hx =>
    cases exec_hostOp_next hi hx with
    | fault | blocked | isDone | nextSample | construct | claim => exact hs.of_xfer_eq (by simp) (by simp) (by simp)
    | start b hsub check =>
      have := hs.submit (by simp [hsub]) check s.xfer.stranded fun hst => (hs.stranded hst).1
      exact this.of_xfer_eq (by simp [XferState.submit]) rfl le_rfl
    | readNext b a hsub ne check =>
      refine (hs.submit (by simpa [hsub] using ne.symm) check _ fun hst => ?_).of_xfer_eq rfl rfl le_rfl
      obtain hst | hst := Bool.or_eq_true_iff.mp hst
      · exact (hs.stranded hst).1
      · exact of_decide_eq_true (Bool.and_eq_true_iff.mp hst).2
    | reclaim a rest hsub done => exact (hs.reclaim hsub done).of_xfer_eq rfl rfl le_rfl
  | plainWrite v t hw =>
    cases hw with
    | fault | seqCtrl | seqConfig | waveConfig | ignored => exact hs.of_xfer_eq (by simp) (by simp) (by simp)
    | xfLen hsub => exact (hs.setLen hsub v).of_xfer_eq rfl rfl le_rfl
    | buffer b u owned =>
      exact (hs.setBuf (by simpa [XferState.owns] using owned) u).of_xfer_eq rfl rfl le_rfl

theorem CycleEffect.keeps_xferInv (h : CycleEffect s t) (hs : s.XferInv) : t.XferInv := by
  cases h with
  | idle | fault => exact hs.of_xfer_eq (by simp) (by simp) (by simp)
  | cycle q qu en hq keep =>
    refine hs.of_xfer_eq rfl rfl ?_
    obtain rfl | ⟨w, hw⟩ := hq
    · exact le_rfl
    · simp [hw]

theorem State.xferInv_launch (p : Config.Params) (m : Memory) (h : HostState) (ts : List Config.Turn) (d : Nat) :
    (State.launch p m h ts d).XferInv := by
  constructor <;> simp [State.launch, XferState.reset]

/-- Settles O56: XFER's invariant holds after a reset, and each turn keeps it. -/
theorem stepKeepsXferInvariant : Obligations.StepKeepsXferInvariant := by
  intro s t hs h
  obtain ⟨_, rfl⟩ | ⟨ht, _⟩ := step_next h
  · exact State.xferInv_launch _ _ _ _ _
  replace hs : s.tick.XferInv := hs.of_xfer_eq (by simp) (by simp) (by simp)
  obtain ⟨_, ⟨_, hx⟩ | ⟨_, hx⟩ | ⟨_, _, hx⟩⟩ := step_cases ht h
  · obtain rfl | ⟨b, active, room, rfl⟩ := xferTurn_next hx
    · exact hs
    · exact hs.move active _ room
  · exact (hostTurn_next hx).keeps_xferInv hs
  · exact hx.keeps_xferInv hs

end Sys2Proof.Machine

/-! The register map (10_state R31): the decoder of an offset is the inverse of the table, so an access of a register's
own offset is what `decodeRead` and `decodeWrite` say of that register. -/

namespace Sys2Proof

theorem Reg.ofOffset_offset (r : Reg) : Reg.ofOffset r.offset = some r := by
  cases r with
  | imemWin i => revert i; decide
  | xfBufAddr b | xfBufLen b => cases b <;> rfl
  | _ => rfl

/-- The low two bits of an offset are its remainder by 4. -/
theorem RegOffset.aligned_iff (o : RegOffset) : o.extractLsb' 0 2 = 0b00#2 ↔ o.toNat % 4 = 0 := by
  simp [← BitVec.toNat_inj]

theorem Reg.offset_imemWin (i : SlotIdx) : (Reg.imemWin i).offset.toNat = 0x080 + 4 * i.toNat := by
  revert i; decide

theorem Reg.offset_aligned (r : Reg) : r.offset.toNat % 4 = 0 := by
  cases r with
  | imemWin i => rw [Reg.offset_imemWin]; omega
  | xfBufAddr b | xfBufLen b => cases b <;> rfl
  | _ => rfl

/-- An aligned offset in IMEM_WIN is that of the slot its middle bits name. -/
theorem Reg.offset_imemWin_of_bits {o : RegOffset} (top : o.extractLsb' 7 3 = 0b001#3) (aligned : o.toNat % 4 = 0) :
    (Reg.imemWin (o.extractLsb' 2 5)).offset = o := by
  apply BitVec.eq_of_toNat_eq
  have htop := congrArg BitVec.toNat top
  simp only [BitVec.extractLsb'_toNat, Nat.shiftRight_eq_div_pow, BitVec.toNat_ofNat] at htop
  rw [Reg.offset_imemWin, BitVec.extractLsb'_toNat, Nat.shiftRight_eq_div_pow]
  omega

/-- One row of the table of `Reg.ofOffset`: it answers here, or a later row does. -/
theorem Reg.row_cases {c : Prop} [Decidable c] {x r : Reg} {later : Option Reg}
    (h : (if c then some x else later) = some r) : c ∧ x = r ∨ later = some r := by
  by_cases hc : c
  · exact .inl ⟨hc, by simpa [hc] using h⟩
  · exact .inr (by simpa [hc] using h)

/-- The table, row by row: six registers of SEQ, IMEM_WIN, then the registers of XFER and WAVE. -/
theorem Reg.offset_of_ofOffset {o : RegOffset} {r : Reg} (aligned : o.toNat % 4 = 0) (h : Reg.ofOffset o = some r) :
    r.offset = o := by
  unfold Reg.ofOffset at h
  iterate 6
    obtain ⟨rfl, rfl⟩ | h := Reg.row_cases h
    · rfl
  obtain ⟨top, rfl⟩ | h := Reg.row_cases h
  · exact Reg.offset_imemWin_of_bits top aligned
  iterate 14
    obtain ⟨rfl, rfl⟩ | h := Reg.row_cases h
    · rfl
  cases h

theorem decodeOffset_offset (r : Reg) : decodeOffset .word r.offset = .ok r := by
  have aligned := (RegOffset.aligned_iff r.offset).mpr r.offset_aligned
  simp [decodeOffset, aligned, Reg.ofOffset_offset]

/-- Every access that reaches no register is a BAD_ACCESS. -/
theorem decodeOffset_badAccess {width : Width} {o : RegOffset}
    (h : width ≠ .word ∨ o.toNat % 4 ≠ 0 ∨ ∀ r : Reg, r.offset ≠ o) :
    ∃ e, decodeOffset width o = .error e ∧ Machine.Reject.code e = .badAccess := by
  unfold decodeOffset
  split
  · exact ⟨_, rfl, rfl⟩
  split
  · exact ⟨_, rfl, rfl⟩
  have hwidth : width = .word := not_not.mp ‹_›
  have aligned := (RegOffset.aligned_iff o).mp (not_not.mp ‹_›)
  split
  · rename_i r hr
    have ho := Reg.offset_of_ofOffset aligned hr
    simp only [hwidth, aligned, ne_eq, not_true_eq_false, false_or] at h
    exact absurd ho (h r)
  · exact ⟨_, rfl, rfl⟩

end Sys2Proof

namespace Sys2Proof.Machine

variable {s t : State} {r : Reg}

/-! ### Accesses of a register by its offset -/

theorem regAccess_read_op {i : Instr} (h : decodeRead r = .op i) (s : State) :
    regAccess (.read .word r.offset) s = exec i s := by
  simp [regAccess, decodeRegAccess, decodeOffset_offset, Except.map, h]

theorem regAccess_read_plain {p : PlainRead} (h : decodeRead r = .readReg p) (s : State) :
    regAccess (.read .word r.offset) s = .next (s.completeRead (s.regValue p)) := by
  simp [regAccess, decodeRegAccess, decodeOffset_offset, Except.map, h, readReg]

theorem regAccess_write_op {v : Word} {i : Instr} (h : decodeWrite v r = .ok (.op i)) (s : State) :
    regAccess (.write .word r.offset v) s = exec i s := by
  simp [regAccess, decodeRegAccess, decodeOffset_offset, Except.bind, h]

theorem regAccess_write_plain {p : PlainWrite} {v : Word} (h : decodeWrite v r = .ok (.writeReg p v)) (s : State) :
    regAccess (.write .word r.offset v) s = writeReg p v s := by
  simp [regAccess, decodeRegAccess, decodeOffset_offset, Except.bind, h]

/-- Settles O49: the width, the alignment and the listing are checked before the register's own rules. -/
theorem badAccessRefused : Obligations.BadAccessRefused := by
  intro width o v s h
  obtain ⟨e, he, hcode⟩ := decodeOffset_badAccess h
  simp [regAccess, decodeRegAccess, he, hcode, Except.map, Except.bind]

theorem decodeWrite_construct {v : Word} (hv : v.getLsbD 3 = true) :
    decodeWrite v .wvCtrl = .ok (.op (.construct (v.setWidth 2) (v.getLsbD 2))) := by
  simp only [decodeWrite, hv, if_true, ← BitVec.setWidth_eq_extractLsb' (show 2 ≤ 32 by decide)]

/-- Settles O6: `Reg.offset` is the table of R31, and `Reg.ofOffset` its inverse on the aligned offsets. -/
theorem registerOffsetsAgree : Obligations.RegisterOffsetsAgree := by
  refine ⟨?_, fun r => ⟨r.ofOffset_offset, r.offset_aligned⟩, fun o r => Reg.offset_of_ofOffset, fun s => ?_⟩
  · exact ⟨rfl, rfl, rfl, rfl, rfl, rfl, Reg.offset_imemWin, rfl, rfl, rfl, rfl, rfl, rfl, rfl, rfl, rfl, rfl, rfl, rfl,
      rfl, rfl⟩
  · exact ⟨regAccess_read_op (r := .seqClaim) rfl s, regAccess_read_op (r := .xfStatus) rfl s,
      regAccess_read_op (r := .xfWait) rfl s, regAccess_read_op (r := .wvSample) rfl s,
      fun v hv => regAccess_write_op (r := .wvCtrl) (decodeWrite_construct hv) s⟩

/-! ### CLAIM and SEQ_CTRL -/

theorem execClaim_of_unclaimed (h : s.seq.claimed = false) : execClaim s =
    .next { s with seq := { s.seq with claimed := true }, host := ⟨s.hostRest 1, 1⟩ } := by
  simp only [execClaim, h, State.completeRead]
  rfl

theorem execClaim_of_claimed (h : s.seq.claimed = true) : execClaim s = .next (s.raise .cfgNoUnit) := by
  simp [execClaim, h]

/-- Settles O43: the read of SEQ_CLAIM is CLAIM, and a write there is a plain write that is ignored. -/
theorem claimOutcomes : Obligations.ClaimOutcomes := fun s =>
  ⟨regAccess_read_op (r := .seqClaim) rfl s, execClaim_of_unclaimed, execClaim_of_claimed,
    fun _ => regAccess_write_plain (r := .seqClaim) rfl s⟩

theorem writeSeqCtrl_restart_running {v : Word} (en : s.seq.en = true) (restart : v.getLsbD 1 = true) :
    writeSeqCtrl v s = .next (s.raise .hostProtocol) := by
  simp only [writeSeqCtrl, en, restart, and_self, if_true, raise_eq]

theorem writeSeqCtrl_refused {v : Word} {c : FaultCode} (en : s.seq.en = false) (set : v.getLsbD 0 = true)
    (check : s.seq.enableCheck = some c) : writeSeqCtrl v s = .next (s.raise c) := by
  simp only [writeSeqCtrl, en, set, check, Bool.false_eq_true, false_and, and_self, if_true, if_false, raise_eq]

theorem writeSeqCtrl_done {v : Word} (running : s.seq.en = true → v.getLsbD 1 = false)
    (check : s.seq.en = false → v.getLsbD 0 = true → s.seq.enableCheck = none) : writeSeqCtrl v s =
    .next { s with
      seq := { (if v.getLsbD 1 then s.seq.restart else s.seq) with en := v.getLsbD 0 }
      host := ⟨s.hostRest s.host.result, s.host.result⟩ } := by
  have allowed : ¬ (s.seq.en = true ∧ v.getLsbD 1 = true) := fun ⟨he, hv⟩ => absurd (hv.symm.trans (running he)) (by decide)
  have passed : (if s.seq.en = false ∧ v.getLsbD 0 = true then s.seq.enableCheck else none) = none := by
    split
    · rename_i h; exact check h.1 h.2
    · rfl
  simp only [writeSeqCtrl, if_neg allowed, passed]
  rfl

theorem SeqState.enableCheck_unclaimed {q : SeqState} (h : q.claimed = false) : q.enableCheck = some .hostProtocol := by
  simp [SeqState.enableCheck, h]

theorem SeqState.enableCheck_divisor {q : SeqState} (claimed : q.claimed = true) (h : q.clkInt = 0) :
    q.enableCheck = some .cfgDivisor := by
  simp [SeqState.enableCheck, claimed, h]

theorem SeqState.enableCheck_threshold {q : SeqState} (claimed : q.claimed = true) (divisor : q.clkInt ≠ 0)
    (h : q.thresh.toNat = 0 ∨ 32 < q.thresh.toNat) : q.enableCheck = some .cfgParam := by
  simp only [SeqState.enableCheck, claimed, divisor, Nat.lt_one_iff, h, if_true, if_false, Bool.true_eq_false]

/-- Settles O45: the breach, the three checks of EN in their order, and the write. -/
theorem seqCtrlWriteOutcomes : Obligations.SeqCtrlWriteOutcomes := by
  rintro v s q rfl
  rw [show regAccess (.write .word 0x000#10 v) s = writeSeqCtrl v s from regAccess_write_plain (r := .seqCtrl) rfl s]
  refine ⟨writeSeqCtrl_restart_running, fun en set => ⟨fun h => ?_, fun h1 h2 => ?_, fun h1 h2 h3 => ?_⟩,
    fun running checks => ?_⟩
  · exact writeSeqCtrl_refused en set (SeqState.enableCheck_unclaimed h)
  · exact writeSeqCtrl_refused en set (SeqState.enableCheck_divisor h1 h2)
  · exact writeSeqCtrl_refused en set (SeqState.enableCheck_threshold h1 h2 h3)
  · exact writeSeqCtrl_done running fun en set => SeqState.enableCheck_eq_none.mpr (checks en set)

/-! ### Register words -/

theorem XferState.getLsbD_statusWord (x : XferState) (k : Nat) : x.statusWord.getLsbD k =
    [x.done, x.isActive, x.nextQueued, x.handle, x.head, x.owns .zero, x.owns .one, x.stranded].getD k false := by
  change BitVec.getLsbD (w := 24 + 1 + 1 + 1 + 1 + 1 + 1 + 1 + 1) _ k = _
  simp only [XferState.statusWord, BitVec.getLsbD_append, BitVec.getLsbD_ofBool, BitVec.getLsbD_zero]
  match k with
  | 0 | 1 | 2 | 3 | 4 | 5 | 6 | 7 => simp
  | k + 8 => simp

theorem SeqState.getLsbD_ctrlWord (q : SeqState) (k : Nat) : q.ctrlWord.getLsbD k =
    if k = 0 then q.en else if k = 2 then q.claimed else false := by
  change BitVec.getLsbD (w := 29 + 1 + 1 + 1) _ k = _
  simp only [SeqState.ctrlWord, BitVec.getLsbD_append, BitVec.getLsbD_ofBool, BitVec.getLsbD_zero]
  grind

theorem SeqState.getLsbD_clkDivWord (q : SeqState) (k : Nat) : q.clkDivWord.getLsbD k =
    if k < 8 then false else if k < 16 then q.clkFrac.getLsbD (k - 8) else q.clkInt.getLsbD (k - 16) := by
  change BitVec.getLsbD (w := 16 + 8 + 8) _ k = _
  simp only [SeqState.clkDivWord, BitVec.getLsbD_append, BitVec.getLsbD_zero]
  grind

theorem SeqState.getLsbD_cfgWord (q : SeqState) (k : Nat) : q.cfgWord.getLsbD k =
    if k < 8 then q.wrapBottom.getLsbD k else if k < 16 then q.wrapTop.getLsbD (k - 8)
    else if k < 24 then q.entry.getLsbD (k - 16) else q.thresh.getLsbD (k - 24) := by
  change BitVec.getLsbD (w := 2 + 6 + 3 + 5 + 3 + 5 + 3 + 5) _ k = _
  simp only [SeqState.cfgWord, BitVec.getLsbD_append, BitVec.getLsbD_zero]
  grind

theorem SeqState.getLsbD_pinsWord (q : SeqState) (k : Nat) : q.pinsWord.getLsbD k =
    if k < 8 then q.dataPin.getLsbD k else if k < 16 then q.bclkPin.getLsbD (k - 8)
    else q.lrclkPin.getLsbD (k - 16) := by
  change BitVec.getLsbD (w := 11 + 5 + 3 + 5 + 3 + 5) _ k = _
  simp only [SeqState.pinsWord, BitVec.getLsbD_append, BitVec.getLsbD_zero]
  grind

theorem SeqState.getLsbD_pcWord (q : SeqState) (k : Nat) : q.pcWord.getLsbD k =
    if k < 8 then q.pc.getLsbD k else [q.data, q.bclk, q.lrclk].getD (k - 8) false := by
  change BitVec.getLsbD (w := 21 + 1 + 1 + 1 + 3 + 5) _ k = _
  simp only [SeqState.pcWord, BitVec.getLsbD_append, BitVec.getLsbD_ofBool, BitVec.getLsbD_zero]
  grind

theorem WaveState.getLsbD_ctrlWord (w : WaveState) (k : Nat) : w.ctrlWord.getLsbD k =
    if k < 2 then w.shape.getLsbD k else if k = 2 then w.rep else false := by
  change BitVec.getLsbD (w := 29 + 1 + 2) _ k = _
  simp only [WaveState.ctrlWord, BitVec.getLsbD_append, BitVec.getLsbD_ofBool, BitVec.getLsbD_zero]
  grind

theorem WaveState.getLsbD_statusWord (w : WaveState) (k : Nat) :
    w.statusWord.getLsbD k = if k = 0 then w.ready else false := by
  change BitVec.getLsbD (w := 31 + 1) _ k = _
  simp only [WaveState.statusWord, BitVec.getLsbD_append, BitVec.getLsbD_ofBool, BitVec.getLsbD_zero]
  grind

theorem SeqState.ctrlWord_fields (q : SeqState) :
    q.ctrlWord.getLsbD 0 = q.en ∧ q.ctrlWord.getLsbD 2 = q.claimed ∧ ∀ k, k ≠ 0 → k ≠ 2 → q.ctrlWord.getLsbD k = false := by
  simp only [SeqState.getLsbD_ctrlWord]
  grind

theorem SeqState.clkDivWord_fields (q : SeqState) :
    q.clkDivWord.extractLsb' 16 16 = q.clkInt ∧ q.clkDivWord.extractLsb' 8 8 = q.clkFrac ∧
    q.clkDivWord.extractLsb' 0 8 = 0 := by
  refine ⟨?_, ?_, ?_⟩ <;> refine BitVec.eq_of_getLsbD_eq fun k hk => ?_ <;>
    rw [BitVec.getLsbD_extractLsb', SeqState.getLsbD_clkDivWord] <;> grind

/-- The field bits of SEQ_CLKDIV (10_state R34). -/
theorem clkDivMask_bits : ∀ k < 32, (0xFFFFFF00#32).getLsbD k = decide (8 ≤ k) := by decide

/-- The field bits of SEQ_CFG (10_state R35), and its reserved bits. -/
theorem cfgMask_bits : ∀ k < 32, (0x3F1F1F1F#32).getLsbD k = decide (k % 8 < 5 ∨ 24 ≤ k ∧ k < 30) ∧
    (0xC0E0E0E0#32).getLsbD k = !decide (k % 8 < 5 ∨ 24 ≤ k ∧ k < 30) := by decide

/-- The field bits of SEQ_PINS (10_state R36), and its reserved bits. -/
theorem pinsMask_bits : ∀ k < 32, (0x001F1F1F#32).getLsbD k = decide (k % 8 < 5 ∧ k < 24) ∧
    (0xFFE0E0E0#32).getLsbD k = !decide (k % 8 < 5 ∧ k < 24) := by decide

theorem SeqState.cfgWord_reserved (q : SeqState) : q.cfgWord &&& 0xC0E0E0E0#32 = 0 := by
  refine BitVec.eq_of_getLsbD_eq fun k hk => ?_
  rw [BitVec.getLsbD_and, SeqState.getLsbD_cfgWord, (cfgMask_bits k hk).2]
  grind

theorem SeqState.pinsWord_reserved (q : SeqState) : q.pinsWord &&& 0xFFE0E0E0#32 = 0 := by
  refine BitVec.eq_of_getLsbD_eq fun k hk => ?_
  rw [BitVec.getLsbD_and, SeqState.getLsbD_pinsWord, (pinsMask_bits k hk).2]
  grind

theorem SeqState.cfgWord_fields (q : SeqState) :
    q.cfgWord.extractLsb' 0 5 = q.wrapBottom ∧ q.cfgWord.extractLsb' 8 5 = q.wrapTop ∧
    q.cfgWord.extractLsb' 16 5 = q.entry ∧ q.cfgWord.extractLsb' 24 6 = q.thresh := by
  refine ⟨?_, ?_, ?_, ?_⟩ <;> refine BitVec.eq_of_getLsbD_eq fun k hk => ?_ <;>
    rw [BitVec.getLsbD_extractLsb', SeqState.getLsbD_cfgWord] <;> grind

theorem SeqState.pinsWord_fields (q : SeqState) :
    q.pinsWord.extractLsb' 0 5 = q.dataPin ∧ q.pinsWord.extractLsb' 8 5 = q.bclkPin ∧
    q.pinsWord.extractLsb' 16 5 = q.lrclkPin := by
  refine ⟨?_, ?_, ?_⟩ <;> refine BitVec.eq_of_getLsbD_eq fun k hk => ?_ <;>
    rw [BitVec.getLsbD_extractLsb', SeqState.getLsbD_pinsWord] <;> grind

theorem SeqState.pcWord_fields (q : SeqState) :
    q.pcWord.setWidth 5 = q.pc ∧ q.pcWord.getLsbD 8 = q.data ∧ q.pcWord.getLsbD 9 = q.bclk ∧
    q.pcWord.getLsbD 10 = q.lrclk ∧ ∀ k, (5 ≤ k ∧ k ≤ 7) ∨ 11 ≤ k → q.pcWord.getLsbD k = false := by
  refine ⟨BitVec.eq_of_getLsbD_eq fun k hk => ?_, ?_⟩ <;>
    simp only [BitVec.getLsbD_setWidth, SeqState.getLsbD_pcWord] <;> grind

theorem WaveState.ctrlWord_fields (w : WaveState) :
    w.ctrlWord.setWidth 2 = w.shape ∧ w.ctrlWord.getLsbD 2 = w.rep ∧ ∀ k, 3 ≤ k → w.ctrlWord.getLsbD k = false := by
  refine ⟨BitVec.eq_of_getLsbD_eq fun k hk => ?_, ?_⟩ <;>
    simp only [BitVec.getLsbD_setWidth, WaveState.getLsbD_ctrlWord] <;> grind

theorem WaveState.statusWord_fields (w : WaveState) :
    w.statusWord.getLsbD 0 = w.ready ∧ ∀ k, 1 ≤ k → w.statusWord.getLsbD k = false := by
  simp only [WaveState.getLsbD_statusWord]
  grind

/-- Settles O48: a read without a side effect returns its register's word, whose fields are the lemmas above. -/
theorem plainReadLayouts : Obligations.PlainReadLayouts := by
  have read {r : Reg} {p : PlainRead} (s : State) (h : decodeRead r = .readReg p) := regAccess_read_plain h s
  refine ⟨fun s => ?_, rfl⟩
  obtain ⟨cfg0, cfg1, cfg2, cfg3⟩ := s.seq.cfgWord_fields
  obtain ⟨pins0, pins1, pins2⟩ := s.seq.pinsWord_fields
  exact ⟨⟨_, read (r := .seqCtrl) s rfl, s.seq.ctrlWord_fields⟩, ⟨_, read (r := .seqClkDiv) s rfl, s.seq.clkDivWord_fields⟩,
    ⟨_, read (r := .seqCfg) s rfl, cfg0, cfg1, cfg2, cfg3, s.seq.cfgWord_reserved⟩,
    ⟨_, read (r := .seqPins) s rfl, pins0, pins1, pins2, s.seq.pinsWord_reserved⟩,
    ⟨_, read (r := .seqPc) s rfl, s.seq.pcWord_fields⟩, fun i => read (r := .imemWin i) s rfl,
    read (r := .xfLen) s rfl, read (r := .xfBufAddr .zero) s rfl, read (r := .xfBufLen .zero) s rfl,
    read (r := .xfBufAddr .one) s rfl, read (r := .xfBufLen .one) s rfl, read (r := .xfCmd) s rfl,
    regAccess_read_op (r := .xfStatus) rfl s, ⟨_, read (r := .wvCtrl) s rfl, s.wave.ctrlWord_fields⟩,
    read (r := .wvFreq) s rfl, read (r := .wvRate) s rfl, read (r := .wvPhase) s rfl,
    ⟨_, read (r := .wvStatus) s rfl, s.wave.statusWord_fields⟩⟩

theorem XferState.done_iff (x : XferState) :
    x.done = true ↔ ∃ a rest, x.sub = a :: rest ∧ (x.buf a).moved = x.len.toNat := by
  unfold XferState.done
  split <;> simp [XferState.finished, *]

theorem XferState.isActive_iff (x : XferState) :
    x.isActive = true ↔ x.stranded = false ∧ ∃ b ∈ x.sub, (x.buf b).moved < x.len.toNat := by
  unfold XferState.isActive XferState.active
  split <;> simp [*]

theorem XferState.head_iff (x : XferState) : x.head = true ↔ ∃ rest, x.sub = .one :: rest := by
  unfold XferState.head
  split
  · simp [*]
  · rename_i a rest h
    cases a <;> simp [h, BufId.toBit]

/-- Settles O29: each bit of XF_STATUS is one flag of XFER. -/
theorem statusWordBits : Obligations.StatusWordBits := by
  refine ⟨regAccess_read_op (r := .xfStatus) rfl, fun x => ?_, rfl⟩
  simp only [XferState.getLsbD_statusWord]
  refine ⟨x.done_iff, x.isActive_iff, decide_eq_true_iff, decide_eq_true_iff, x.head_iff, decide_eq_true_iff,
    decide_eq_true_iff, rfl, fun k hk => List.getD_eq_default _ _ hk⟩

/-! ### Plain writes -/

theorem writeSeqConfig_stopped {q : SeqState} (h : s.seq.en = false) : writeSeqConfig q s =
    .next { s with seq := q, host := ⟨s.hostRest s.host.result, s.host.result⟩ } := by
  simp only [writeSeqConfig, h, Bool.false_eq_true, if_false]
  rfl

theorem writeSeqConfig_running {q : SeqState} (h : s.seq.en = true) :
    writeSeqConfig q s = .next (s.raise .hostProtocol) := by
  simp [writeSeqConfig, h]

theorem writeWaveConfig_idle {w : WaveState} (h : s.wave.ready = false) : writeWaveConfig w s =
    .next { s with wave := w, host := ⟨s.hostRest s.host.result, s.host.result⟩ } := by
  simp only [writeWaveConfig, h, Bool.false_eq_true, if_false]
  rfl

theorem writeWaveConfig_ready {w : WaveState} (h : s.wave.ready = true) :
    writeWaveConfig w s = .next (s.raise .hostProtocol) := by
  simp [writeWaveConfig, h]

theorem writeBuffer_owned {b : BufId} {u : Buffer} (h : s.xfer.owns b = true) :
    writeBuffer b u s = .next (s.raise .hostProtocol) := by
  simp [writeBuffer, h]

/-- The host's own program takes a buffer's address as it stands after the write. -/
theorem writeBuffer_free {b : BufId} {u : Buffer} (h : s.xfer.owns b = false) :
    writeBuffer b u s = .next { s with
      xfer := s.xfer.setBuf b u
      host := ⟨{ s with xfer := s.xfer.setBuf b u }.hostRest s.host.result, s.host.result⟩ } := by
  simp only [writeBuffer, h, Bool.false_eq_true, if_false]
  rfl

theorem XferState.addr_setBuf_of_eq {x : XferState} {b : BufId} {u : Buffer} (h : u.addr = (x.buf b).addr) (c : BufId) :
    ((x.setBuf b u).buf c).addr = (x.buf c).addr := by
  obtain rfl | ne := eq_or_ne c b
  · rw [XferState.buf_setBuf_same, h]
  · rw [XferState.buf_setBuf_of_ne _ _ _ ne]

/-- A write that keeps the buffer's address leaves the host's own program as it would be without the write. -/
theorem writeBuffer_free_of_addr_eq {b : BufId} {u : Buffer} (h : s.xfer.owns b = false)
    (addr : u.addr = (s.xfer.buf b).addr) : writeBuffer b u s = .next { s with
      xfer := s.xfer.setBuf b u
      host := ⟨s.hostRest s.host.result, s.host.result⟩ } := by
  have rest : { s with xfer := s.xfer.setBuf b u }.hostRest s.host.result = s.hostRest s.host.result :=
    State.hostRest_congr _ rfl (XferState.addr_setBuf_of_eq addr)
  rw [writeBuffer_free h, rest]

theorem XferState.setBuf_frame (x : XferState) (b : BufId) (u : Buffer) :
    (x.setBuf b u).buf b = u ∧ (x.setBuf b u).buf (BufId.other b) = x.buf (BufId.other b) ∧
    (x.setBuf b u).sub = x.sub ∧ (x.setBuf b u).stranded = x.stranded ∧ (x.setBuf b u).len = x.len :=
  ⟨by simp, x.buf_setBuf_of_ne b u (BufId.other_ne b), by simp, by simp, by simp⟩

theorem writeReg_xfLen_free {v : Word} (h : s.xfer.sub = []) : writeReg .xfLen v s =
    .next { s with xfer := { s.xfer with len := v }, host := ⟨s.hostRest s.host.result, s.host.result⟩ } := by
  simp only [writeReg, h, ne_eq, not_true_eq_false, if_false]
  rfl

theorem writeReg_xfLen_submitted {v : Word} (h : s.xfer.sub ≠ []) :
    writeReg .xfLen v s = .next (s.raise .hostProtocol) := by
  simp [writeReg, h]

theorem decodeWrite_wvCtrl_plain {v : Word} (h : v.getLsbD 3 = false) :
    decodeWrite v .wvCtrl = .ok (.writeReg .wvCtrl v) := by
  simp only [decodeWrite, h, Bool.false_eq_true, if_false]

theorem SeqState.clkDivWord_withClkDiv (q : SeqState) (v : Word) : (q.withClkDiv v).clkDivWord = v &&& 0xFFFFFF00#32 := by
  refine BitVec.eq_of_getLsbD_eq fun k hk => ?_
  rw [BitVec.getLsbD_and, SeqState.getLsbD_clkDivWord, clkDivMask_bits k hk]
  simp only [SeqState.withClkDiv, BitVec.getLsbD_extractLsb']
  grind

theorem SeqState.cfgWord_withCfg (q : SeqState) (v : Word) : (q.withCfg v).cfgWord = v &&& 0x3F1F1F1F#32 := by
  refine BitVec.eq_of_getLsbD_eq fun k hk => ?_
  rw [BitVec.getLsbD_and, SeqState.getLsbD_cfgWord, (cfgMask_bits k hk).1]
  simp only [SeqState.withCfg, BitVec.getLsbD_extractLsb']
  grind

theorem SeqState.pinsWord_withPins (q : SeqState) (v : Word) : (q.withPins v).pinsWord = v &&& 0x001F1F1F#32 := by
  refine BitVec.eq_of_getLsbD_eq fun k hk => ?_
  rw [BitVec.getLsbD_and, SeqState.getLsbD_pinsWord, (pinsMask_bits k hk).1]
  simp only [SeqState.withPins, BitVec.getLsbD_extractLsb']
  grind

theorem SeqState.slot_setSlot_same (q : SeqState) (i : SlotIdx) (w : SlotWord) : (q.setSlot i w).slot i = some w := by
  simp [SeqState.slot, SeqState.setSlot]

theorem SeqState.slot_setSlot_of_ne (q : SeqState) {i j : SlotIdx} (h : j ≠ i) (w : SlotWord) :
    (q.setSlot i w).slot j = q.slot j := by
  have hne : i.toNat ≠ j.toNat := fun e => h (BitVec.eq_of_toNat_eq e.symm)
  simp [SeqState.slot, SeqState.setSlot, hne]

theorem exec_construct_ready {shape : BitVec 2} {rep : Bool} (h : s.wave.ready = true) :
    exec (.construct shape rep) s = .next (s.raise .hostProtocol) := by
  simp [exec, execConstruct, h]

/-- After construction a write of WV_CTRL is a breach, as a plain write and as CONSTRUCT. -/
theorem regAccess_write_wvCtrl_ready {v : Word} (h : s.wave.ready = true) :
    regAccess (.write .word Reg.wvCtrl.offset v) s = .next (s.raise .hostProtocol) := by
  cases hv : v.getLsbD 3
  · exact (regAccess_write_plain (decodeWrite_wvCtrl_plain hv) s).trans (writeWaveConfig_ready h)
  · exact (regAccess_write_op (decodeWrite_construct hv) s).trans (exec_construct_ready h)

/-- Settles O47: each register's write is its own rule, reached by its offset. -/
theorem plainWriteOutcomes : Obligations.PlainWriteOutcomes := by
  rintro s v h rfl
  have write {r : Reg} {p : PlainWrite} (hr : decodeWrite v r = .ok (.writeReg p v)) :=
    regAccess_write_plain hr s
  refine ⟨fun stopped => ⟨?_, ?_, ?_, fun i => ?_⟩, fun running o ho => ?_, fun free => ?_, fun submitted => ?_,
    fun b oAddr oLen hAddr hLen => ?_, fun idle => ⟨fun plain => ?_, ?_, ?_⟩, fun ready o ho => ?_, fun o ho => ?_⟩
  · exact ⟨_, (write (r := .seqClkDiv) rfl).trans (writeSeqConfig_stopped stopped), s.seq.clkDivWord_withClkDiv v, rfl⟩
  · exact ⟨_, (write (r := .seqCfg) rfl).trans (writeSeqConfig_stopped stopped), s.seq.cfgWord_withCfg v, rfl⟩
  · exact ⟨_, (write (r := .seqPins) rfl).trans (writeSeqConfig_stopped stopped), s.seq.pinsWord_withPins v, rfl⟩
  · refine ⟨_, (write (r := .imemWin i) rfl).trans (writeSeqConfig_stopped stopped), ?_,
      fun j hj => s.seq.slot_setSlot_of_ne hj _, rfl⟩
    rw [BitVec.setWidth_eq_extractLsb' (show 16 ≤ 32 by decide)]
    exact s.seq.slot_setSlot_same i _
  · obtain rfl | rfl | rfl | ⟨i, rfl⟩ := ho
    · exact (write (r := .seqClkDiv) rfl).trans (writeSeqConfig_running running)
    · exact (write (r := .seqCfg) rfl).trans (writeSeqConfig_running running)
    · exact (write (r := .seqPins) rfl).trans (writeSeqConfig_running running)
    · exact (write (r := .imemWin i) rfl).trans (writeSeqConfig_running running)
  · exact (write (r := .xfLen) rfl).trans (writeReg_xfLen_free free)
  · exact (write (r := .xfLen) rfl).trans (writeReg_xfLen_submitted submitted)
  · obtain rfl : oAddr = (Reg.xfBufAddr b).offset := by rw [hAddr]; cases b <;> rfl
    obtain rfl : oLen = (Reg.xfBufLen b).offset := by rw [hLen]; cases b <;> rfl
    have writeAddr := write (r := .xfBufAddr b) rfl
    have writeLen := write (r := .xfBufLen b) rfl
    exact ⟨fun free => ⟨⟨_, writeAddr.trans (writeBuffer_free free), rfl, s.xfer.setBuf_frame b _⟩,
      ⟨_, writeLen.trans (writeBuffer_free_of_addr_eq free rfl), rfl, s.xfer.setBuf_frame b _⟩⟩,
      fun owned => ⟨writeAddr.trans (writeBuffer_owned owned), writeLen.trans (writeBuffer_owned owned)⟩⟩
  · rw [BitVec.setWidth_eq_extractLsb' (show 2 ≤ 32 by decide)]
    exact (write (r := .wvCtrl) (decodeWrite_wvCtrl_plain plain)).trans (writeWaveConfig_idle idle)
  · exact (write (r := .wvFreq) rfl).trans (writeWaveConfig_idle idle)
  · exact (write (r := .wvRate) rfl).trans (writeWaveConfig_idle idle)
  · obtain rfl | rfl | rfl := ho
    · exact regAccess_write_wvCtrl_ready ready
    · exact (write (r := .wvFreq) rfl).trans (writeWaveConfig_ready ready)
    · exact (write (r := .wvRate) rfl).trans (writeWaveConfig_ready ready)
  · obtain rfl | rfl | rfl | rfl | rfl | rfl | rfl := ho
    · exact write (r := .seqClaim) rfl
    · exact write (r := .xfWait) rfl
    · exact write (r := .wvSample) rfl
    · exact write (r := .seqPc) rfl
    · exact write (r := .xfStatus) rfl
    · exact write (r := .wvPhase) rfl
    · exact write (r := .wvStatus) rfl

/-! ### WAVE and reset -/

/-- Of a constructed producer the host's turn can change the phase alone, and that by NEXT_SAMPLE. -/
theorem HostEffect.keeps_producer (h : HostEffect s t) (ready : s.wave.ready = true) :
    ∃ p, t.wave = { s.wave with phase := p } ∧ (p ≠ s.wave.phase → exec .nextSample s = .next t) := by
  have same : t.wave = s.wave → ∃ p, t.wave = { s.wave with phase := p } ∧
      (p ≠ s.wave.phase → exec .nextSample s = .next t) := fun hw => ⟨_, hw, absurd rfl⟩
  cases h with
  | idle | fault | read | write | memWrite => exact same (by simp)
  | op i t hi hx =>
    cases exec_hostOp_next hi hx with
    | fault | blocked | start | readNext | isDone | reclaim | claim => exact same (by simp)
    | nextSample v p => exact ⟨p, rfl, fun _ => hx⟩
    | construct _ _ idle => simp [ready] at idle
  | plainWrite v t hw =>
    cases hw with
    | fault | seqCtrl | seqConfig | xfLen | buffer | ignored => exact same (by simp)
    | waveConfig _ idle => simp [ready] at idle

/-- Settles O42: only the host's turn reaches WAVE. -/
theorem producerKeepsItsConfiguration : Obligations.ProducerKeepsItsConfiguration := by
  intro s t ht h ready
  have keeps : ∃ p, t.wave = { s.wave with phase := p } ∧
      (p ≠ s.wave.phase → s.turn = .host ∧ exec .nextSample s.tick = .next t) := by
    obtain ⟨_, ⟨_, hx⟩ | ⟨hturn, hx⟩ | ⟨_, _, hx⟩⟩ := step_cases ht h
    · exact ⟨s.wave.phase, by obtain rfl | ⟨_, _, _, rfl⟩ := xferTurn_next hx <;> simp, absurd rfl⟩
    · obtain ⟨p, hp, sampled⟩ := (hostTurn_next hx).keeps_producer (by simpa using ready)
      exact ⟨p, by simpa using hp, fun hne => ⟨hturn, sampled (by simpa using hne)⟩⟩
    · exact ⟨s.wave.phase, by cases hx <;> simp, absurd rfl⟩
  obtain ⟨p, hp, sampled⟩ := keeps
  rw [hp]
  exact ⟨ready, rfl, rfl, rfl, rfl, sampled⟩

theorem SeqState.slot_reset (i : SlotIdx) : SeqState.reset.slot i = none := by
  simp [SeqState.slot, SeqState.reset]

theorem XferState.buf_reset (b : BufId) : XferState.reset.buf b = ⟨0, 0, 0⟩ := by cases b <;> rfl

theorem SeqState.clkDivWord_reset : SeqState.reset.clkDivWord = 0x00010000#32 := by decide

theorem SeqState.cfgWord_reset : SeqState.reset.cfgWord = 0x20001F00#32 := by decide

theorem SeqState.pinsWord_reset : SeqState.reset.pinsWord = 0 := by decide

/-- Settles O7: the reset records hold the table's values, and reset writes them over any state. -/
theorem resetLeavesTableValues : Obligations.ResetLeavesTableValues := by
  rintro p m h ts d s rfl
  have buf : ∀ b, (State.launch p m h ts d).xfer.buf b = ⟨0, 0, 0⟩ := XferState.buf_reset
  exact ⟨rfl, rfl, rfl, rfl, rfl, rfl, rfl, rfl, SeqState.slot_reset, rfl, rfl, rfl, rfl, rfl, rfl,
    SeqState.clkDivWord_reset, rfl, rfl, rfl, rfl, SeqState.cfgWord_reset, SeqState.pinsWord_reset, rfl,
    rfl, fun b => by rw [buf], rfl, rfl, fun b => by simp [buf], rfl, rfl, rfl, rfl, rfl, rfl, fun _ => rfl, rfl, rfl⟩

theorem WaveState.inv_reset : WaveState.reset.Inv := by
  constructor <;> simp [WaveState.reset]

/-- Settles O58: reset meets the invariant of each unit. -/
theorem invariantsHoldAtReset : Obligations.InvariantsHoldAtReset :=
  ⟨Memory.wf_reset, SeqState.inv_reset, State.xferInv_launch _ _ _ _ _, WaveState.inv_reset⟩

end Sys2Proof.Machine

/-! System memory and Q (20_memory R71, R78, R81). A load assembles the bytes at its addresses, so what a load, a store
and a step do to memory is said byte by byte. Only the host's store reaches memory, and the ownership check guards it. -/

namespace Sys2Proof.Machine

variable {s t : State} {m : Memory} {width : Width} {a v : Word}

/-! ### Loads and stores, byte by byte -/

/-- Bit `j` of a load is bit `j % 8` of byte `j / 8`, and 0 past the width's bytes (00_scope R11). -/
theorem Memory.getLsbD_load (j : Nat) : (Memory.load m width a).getLsbD j =
    (decide (j < 8 * Width.bytes width) && (Memory.read m (addrAt a (j / 8))).getLsbD (j % 8)) := by
  cases width with
  | byte =>
    simp only [Memory.load, Width.bytes, BitVec.getLsbD_setWidth]
    grind
  | half =>
    simp only [Memory.load, Width.bytes, BitVec.getLsbD_setWidth, BitVec.getLsbD_append]
    grind
  | word =>
    change BitVec.getLsbD (w := 8 + 8 + 8 + 8) _ j = _
    simp only [Memory.load, Width.bytes, BitVec.getLsbD_append]
    grind

theorem Memory.extractLsb'_load {k : Nat} (hk : k < Width.bytes width) :
    (Memory.load m width a).extractLsb' (8 * k) 8 = Memory.read m (addrAt a k) := by
  refine BitVec.eq_of_getLsbD_eq fun i hi => ?_
  have hdiv : (8 * k + i) / 8 = k := by omega
  have hmod : (8 * k + i) % 8 = i := by omega
  have hlt : 8 * k + i < 8 * Width.bytes width := by omega
  simp only [BitVec.getLsbD_extractLsb', Memory.getLsbD_load, hi, hdiv, hmod, hlt, decide_true, Bool.true_and]

/-- A narrow load is zero extended. -/
theorem Memory.getLsbD_load_of_le {j : Nat} (hj : 8 * Width.bytes width ≤ j) :
    (Memory.load m width a).getLsbD j = false := by
  rw [Memory.getLsbD_load, decide_eq_false (Nat.not_lt.mpr hj), Bool.false_and]

/-- A word is the word of its four bytes. -/
theorem Word.eq_of_bytes {x y : Word} (h : ∀ k < 4, x.extractLsb' (8 * k) 8 = y.extractLsb' (8 * k) 8) : x = y := by
  refine BitVec.eq_of_getLsbD_eq fun i hi => ?_
  have hbyte := congrArg (BitVec.getLsbD · (i % 8)) (h (i / 8) (by omega))
  simpa [BitVec.getLsbD_extractLsb', Nat.mod_lt, Nat.div_add_mod] using hbyte

/-- A store puts byte `k` of the value at `a + k`, for each width. -/
theorem Memory.read_store {k : Nat} (w : Memory.wf m = true) (hk : k < Width.bytes width) :
    Memory.read (Memory.store m width a v) (addrAt a k) = v.extractLsb' (8 * k) 8 :=
  Memory.read_storeBytes w (by cases width <;> decide) hk

theorem Memory.load_store_word (w : Memory.wf m = true) : Memory.load (Memory.store m .word a v) .word a = v :=
  Word.eq_of_bytes fun _ hk => (Memory.extractLsb'_load hk).trans (Memory.read_store w hk)

/-- Settles O52: both halves compare words byte by byte. -/
theorem wordsAreLittleEndian : Obligations.WordsAreLittleEndian :=
  ⟨fun _ _ _ => Memory.load_store_word, fun _ _ _ => Memory.extractLsb'_load (width := .word)⟩

/-! ### The host's accesses of memory -/

theorem any_touched_guards : (touched width a).any s.xfer.guards = true ↔
    ∃ k < Width.bytes width, s.xfer.guards (addrAt a k) = true := by
  simp [touched]

theorem hostMemWrite_guarded (h : ∃ k < Width.bytes width, s.xfer.guards (addrAt a k) = true) :
    hostMemWrite width a v s = .next (s.raise .hostProtocol) := by
  rw [hostMemWrite, if_pos (any_touched_guards.mpr h), raise_eq]

/-- The host's own program does not depend on memory, so it is as it would be without the store. -/
theorem hostMemWrite_free (h : ∀ k < Width.bytes width, s.xfer.guards (addrAt a k) = false) :
    hostMemWrite width a v s = .next { s with
      mem := Memory.store s.mem width a v
      host := ⟨s.hostRest s.host.result, s.host.result⟩ } := by
  have free : ¬ (touched width a).any s.xfer.guards = true := by
    rw [any_touched_guards]
    rintro ⟨k, hk, hg⟩
    exact absurd hg (Bool.eq_false_iff.mp (h k hk))
  rw [hostMemWrite, if_neg free]
  rfl

theorem windowOffset_eq_none {base : Word} (h : a.toNat < base.toNat ∨ base.toNat + 0x400 ≤ a.toNat) :
    windowOffset base a = none := if_neg (by omega)

/-- Settles O51: the write by its ownership check, the read by its bytes, and neither is a register access outside the
window. -/
theorem hostMemoryAccessOutcomes : Obligations.HostMemoryAccessOutcomes := by
  refine fun width a v s => ⟨fun hwf => ⟨hostMemWrite_guarded, fun free => ?_⟩, ?_, fun outside => ?_⟩
  · exact ⟨_, hostMemWrite_free free, rfl, fun k hk => Memory.read_store hwf hk,
      fun i hi => Memory.read_storeBytes_of_notMem hwf hi⟩
  · exact ⟨_, rfl, fun k hk => Memory.extractLsb'_load hk, fun j hj => Memory.getLsbD_load_of_le hj⟩
  · simp [hostAccess, resolveAccess, windowOffset_eq_none outside]

/-! ### What a step does to guarded bytes and to Q -/

/-- The host's one store is made where no byte is guarded. -/
theorem HostEffect.read_of_guards (h : HostEffect s t) (hwf : Memory.wf s.mem = true) {i : Nat}
    (hg : s.xfer.guards i = true) : Memory.read t.mem i = Memory.read s.mem i := by
  cases h with
  | memWrite width a v free =>
    refine Memory.read_storeBytes_of_notMem hwf fun k hk hik => ?_
    simp [hik, free k hk] at hg
  | idle | fault | read | write => simp
  | op i t hi hx => cases exec_hostOp_next hi hx <;> simp
  | plainWrite v t hw => cases hw <;> simp

/-- Settles O33: only the host's turn writes memory, and it keeps every guarded byte. -/
theorem engineOwnedBytesNeverChange : Obligations.EngineOwnedBytesNeverChange := by
  intro s t hwf h i hg
  obtain ⟨_, rfl⟩ | ⟨ht, _⟩ := step_next h
  · simp
  obtain ⟨_, ⟨_, hx⟩ | ⟨_, hx⟩ | ⟨_, _, hx⟩⟩ := step_cases ht h
  · obtain rfl | ⟨_, _, _, rfl⟩ := xferTurn_next hx <;> simp
  · simpa using (hostTurn_next hx).read_of_guards (by simpa using hwf) (by simpa using hg)
  · cases hx <;> simp

/-- The host has no access to Q. -/
theorem HostEffect.queue_eq (h : HostEffect s t) : t.queue = s.queue := by
  cases h with
  | idle | fault | read | write | memWrite => simp
  | op i t hi hx => cases exec_hostOp_next hi hx <;> simp
  | plainWrite v t hw => cases hw <;> simp

/-- Settles O34: XFER's turn adds a word, a sequencer cycle takes one, and the host's turn does neither. -/
theorem queueIsFifo : Obligations.QueueIsFifo := by
  intro s t ht h
  obtain ⟨_, ⟨hturn, hx⟩ | ⟨_, hx⟩ | ⟨hturn, _, hx⟩⟩ := step_cases ht h
  · obtain rfl | ⟨b, _, room, rfl⟩ := xferTurn_next hx
    · exact .inl (by simp)
    · exact .inr (.inr ⟨hturn, by simpa using room, _, by rw [State.tick_queue]⟩)
  · exact .inl (by simpa using (hostTurn_next hx).queue_eq)
  · cases hx with
    | idle | fault => exact .inl (by simp)
    | cycle q qu en hq keep =>
      obtain rfl | ⟨w, hw⟩ := hq
      · exact .inl (by simp)
      · exact .inr (.inl ⟨hturn, w, by simpa using hw⟩)

end Sys2Proof.Machine

/-! The encoding tables of 30_encoding. A packed word is its fields side by side, so the decoder of packed fields and the
packing of decoded fields are one equation each, and a row of the admission table is a condition on three fields. -/

namespace Sys2Proof

/-! ### The fields of a SEQ word (30_encoding R100) -/

section Fields
variable (opc : BitVec 3) (side : Side) (delay sel : BitVec 3) (arg : BitVec 5)

theorem getLsbD_packSlot (k : Nat) : (packSlot opc side delay sel arg).getLsbD k =
    if k < 5 then arg.getLsbD k else if k < 8 then sel.getLsbD (k - 5) else if k < 11 then delay.getLsbD (k - 8)
    else if k = 11 then side.bclk else if k = 12 then side.lr else opc.getLsbD (k - 13) := by
  change BitVec.getLsbD (w := 3 + 1 + 1 + 3 + 3 + 5) _ k = _
  simp only [packSlot, BitVec.getLsbD_append, BitVec.getLsbD_ofBool]
  grind

@[simp] theorem SlotWord.opc_packSlot : SlotWord.opc (packSlot opc side delay sel arg) = opc := by
  refine BitVec.eq_of_getLsbD_eq fun k hk => ?_
  rw [SlotWord.opc, BitVec.getLsbD_extractLsb', getLsbD_packSlot]
  grind

@[simp] theorem SlotWord.side_packSlot : SlotWord.side (packSlot opc side delay sel arg) = side := by
  simp only [SlotWord.side, getLsbD_packSlot]
  rfl

@[simp] theorem SlotWord.delay_packSlot : SlotWord.delay (packSlot opc side delay sel arg) = delay := by
  refine BitVec.eq_of_getLsbD_eq fun k hk => ?_
  rw [SlotWord.delay, BitVec.getLsbD_extractLsb', getLsbD_packSlot]
  grind

@[simp] theorem SlotWord.sel_packSlot : SlotWord.sel (packSlot opc side delay sel arg) = sel := by
  refine BitVec.eq_of_getLsbD_eq fun k hk => ?_
  rw [SlotWord.sel, BitVec.getLsbD_extractLsb', getLsbD_packSlot]
  grind

@[simp] theorem SlotWord.arg_packSlot : SlotWord.arg (packSlot opc side delay sel arg) = arg := by
  refine BitVec.eq_of_getLsbD_eq fun k hk => ?_
  rw [SlotWord.arg, BitVec.getLsbD_extractLsb', getLsbD_packSlot]
  grind

end Fields

/-- The five fields hold all sixteen bits. -/
theorem packSlot_fields (w : SlotWord) :
    packSlot (SlotWord.opc w) (SlotWord.side w) (SlotWord.delay w) (SlotWord.sel w) (SlotWord.arg w) = w := by
  refine BitVec.eq_of_getLsbD_eq fun k hk => ?_
  simp only [getLsbD_packSlot, SlotWord.opc, SlotWord.side, SlotWord.delay, SlotWord.sel, SlotWord.arg,
    BitVec.getLsbD_extractLsb']
  grind

/-- A mask over OPC, SEL and some bits of ARG keeps those and clears SIDE and DELAY. -/
theorem and_packSlot (w : SlotWord) (mask : BitVec 5) :
    w &&& packSlot (BitVec.allOnes 3) ⟨false, false⟩ 0#3 (BitVec.allOnes 3) mask =
      packSlot (SlotWord.opc w) ⟨false, false⟩ 0#3 (SlotWord.sel w) (SlotWord.arg w &&& mask) := by
  refine BitVec.eq_of_getLsbD_eq fun k hk => ?_
  simp only [BitVec.getLsbD_and, getLsbD_packSlot, SlotWord.opc, SlotWord.sel, SlotWord.arg, BitVec.getLsbD_extractLsb',
    BitVec.getLsbD_allOnes, BitVec.getLsbD_zero]
  grind

/-! ### The admission table (30_encoding R104) -/

/-- A row that fixes OPC, SEL and the bits `mask` of ARG. -/
def SlotRow.ofFields (mnemonic : String) (opc sel : BitVec 3) (mask arg : BitVec 5) : SlotRow where
  mnemonic := mnemonic
  mask := packSlot (BitVec.allOnes 3) ⟨false, false⟩ 0#3 (BitVec.allOnes 3) mask
  pattern := packSlot opc ⟨false, false⟩ 0#3 sel arg

theorem slotRows_eq : slotRows =
    [.ofFields "JMP" 0b000#3 0b000#3 0#5 0#5, .ofFields "JMP_XDEC" 0b000#3 0b010#3 0#5 0#5,
     .ofFields "OUT_PINS" 0b011#3 0b000#3 0b11111#5 0b00001#5, .ofFields "SET_X" 0b111#3 0b001#3 0#5 0#5] := rfl

@[simp] theorem SlotRow.mnemonic_ofFields (mnemonic : String) (opc sel : BitVec 3) (mask arg : BitVec 5) :
    (SlotRow.ofFields mnemonic opc sel mask arg).mnemonic = mnemonic := rfl

@[simp] theorem SlotRow.admits_ofFields (mnemonic : String) (opc sel : BitVec 3) (mask arg : BitVec 5) (w : SlotWord) :
    SlotRow.admits (.ofFields mnemonic opc sel mask arg) w =
      decide (SlotWord.opc w = opc ∧ SlotWord.sel w = sel ∧ SlotWord.arg w &&& mask = arg) := by
  rw [SlotRow.admits, SlotRow.ofFields, and_packSlot, decide_eq_decide]
  refine ⟨fun h => ⟨?_, ?_, ?_⟩, ?_⟩
  · simpa using congrArg SlotWord.opc h
  · simpa using congrArg SlotWord.sel h
  · simpa using congrArg SlotWord.arg h
  · rintro ⟨rfl, rfl, rfl⟩
    rfl

theorem and_fullMask (arg : BitVec 5) : arg &&& 0b11111#5 = arg := BitVec.and_allOnes

/-! ### The decoder of a slot (30_encoding R104) -/

/-- What the decoder answers for a word: one of the four admitted forms, or a rejection where no row admits the word. -/
inductive SlotForm (w : SlotWord) : Except Reject Instr → Prop where
  | jmp (opc : SlotWord.opc w = 0b000#3) (sel : SlotWord.sel w = 0b000#3) :
      SlotForm w (.ok (.jmp (SlotWord.side w) (SlotWord.delay w) (SlotWord.arg w)))
  | jmpXdec (opc : SlotWord.opc w = 0b000#3) (sel : SlotWord.sel w = 0b010#3) :
      SlotForm w (.ok (.jmpXdec (SlotWord.side w) (SlotWord.delay w) (SlotWord.arg w)))
  | outPins (opc : SlotWord.opc w = 0b011#3) (sel : SlotWord.sel w = 0b000#3) (arg : SlotWord.arg w = 0b00001#5) :
      SlotForm w (.ok (.outPins (SlotWord.side w) (SlotWord.delay w)))
  | setX (opc : SlotWord.opc w = 0b111#3) (sel : SlotWord.sel w = 0b001#3) :
      SlotForm w (.ok (.setX (SlotWord.side w) (SlotWord.delay w) (SlotWord.arg w)))
  | illegal (e : Reject) (code : Machine.Reject.code e = .illegalInstr) (unlisted : slotRows.filter (·.admits w) = []) :
      SlotForm w (.error e)

theorem decodeSlot_form (w : SlotWord) : SlotForm w (decodeSlot w) := by
  unfold decodeSlot
  split
  · rename_i opc
    split
    · exact .jmp opc ‹_›
    split
    · exact .jmpXdec opc ‹_›
    · exact .illegal _ rfl (by simp [slotRows_eq, *])
  split
  · rename_i opc
    split
    · rename_i form
      exact .outPins opc form.1 form.2
    · rename_i form
      exact .illegal _ rfl (by simpa [slotRows_eq, and_fullMask, opc] using form)
  split
  · rename_i opc
    split
    · exact .setX opc ‹_›
    · exact .illegal _ rfl (by simp [slotRows_eq, *])
  · exact .illegal _ rfl (by simp [slotRows_eq, *])

/-- The rows that admit a word are that of its instruction, or none. -/
theorem map_mnemonic_filter_slotRows (w : SlotWord) :
    (slotRows.filter (·.admits w)).map SlotRow.mnemonic = (decodeSlot w).toOption.toList.map Instr.mnemonic := by
  have form := decodeSlot_form w
  generalize decodeSlot w = r at form ⊢
  cases form with
  | jmp opc sel | jmpXdec opc sel | setX opc sel =>
    simp [slotRows_eq, opc, sel, Instr.mnemonic, Except.toOption]
  | outPins opc sel arg => simp [slotRows_eq, opc, sel, arg, Instr.mnemonic, Except.toOption]
  | illegal e code unlisted => simp [unlisted, Except.toOption]

theorem length_filter_slotRows (w : SlotWord) :
    (slotRows.filter (·.admits w)).length = (decodeSlot w).toOption.toList.length := by
  simpa using congrArg List.length (map_mnemonic_filter_slotRows w)

theorem decodeSlot_error_code {w : SlotWord} {e : Reject} (h : decodeSlot w = .error e) :
    Machine.Reject.code e = .illegalInstr := by
  have form := decodeSlot_form w
  rw [h] at form
  cases form with
  | illegal e code unlisted => exact code

/-- Every field of an admitted word stands where the encoder puts it. -/
theorem encode_of_decodeSlot {w : SlotWord} {i : Instr} (h : decodeSlot w = .ok i) : encode i = .slot w := by
  have fields := packSlot_fields w
  have form := decodeSlot_form w
  rw [h] at form
  cases form with
  | jmp opc sel | jmpXdec opc sel | setX opc sel =>
    rw [opc, sel] at fields
    exact congrArg Code.slot fields
  | outPins opc sel arg =>
    rw [opc, sel, arg] at fields
    exact congrArg Code.slot fields

/-- Settles O3: each admitted form fixes the fields that its instruction does not hold. -/
theorem encodeDecodeRoundTrip : Obligations.EncodeDecodeRoundTrip := fun _ _ => encode_of_decodeSlot

/-! ### Command words (30_encoding R110) -/

theorem getLsbD_packCommand (op : BitVec 4) (b : BufId) (k : Nat) : (packCommand op b).getLsbD k =
    if k = 0 then b.toBit else if k < 28 then false else op.getLsbD (k - 28) := by
  change BitVec.getLsbD (w := 4 + 27 + 1) _ k = _
  simp only [packCommand, BitVec.getLsbD_append, BitVec.getLsbD_ofBool, BitVec.getLsbD_zero]
  grind

theorem BufId.toBit_ofBit (x : Bool) : (BufId.ofBit x).toBit = x := by cases x <;> rfl

/-- OP and BUF hold every bit of a word whose reserved bits are 0. -/
theorem packCommand_fields {v : Word} (reserved : v.extractLsb' 1 27 = 0#27) :
    packCommand (v.extractLsb' 28 4) (BufId.ofBit (v.getLsbD 0)) = v := by
  refine BitVec.eq_of_getLsbD_eq fun k hk => ?_
  have hzero := congrArg (BitVec.getLsbD · (k - 1)) reserved
  simp only [BitVec.getLsbD_extractLsb', BitVec.getLsbD_zero] at hzero
  rw [getLsbD_packCommand, BufId.toBit_ofBit, BitVec.getLsbD_extractLsb']
  grind

theorem decodeCommand_ok_iff {v : Word} {i : Instr} : decodeCommand v = .ok i ↔
    (∃ b, i = .start b ∧ v = packCommand 0x1#4 b) ∨ ∃ b, i = .readNext b ∧ v = packCommand 0x2#4 b := by
  constructor
  · intro h
    unfold decodeCommand at h
    split at h
    · cases h
    have fields := packCommand_fields (not_not.mp ‹_›)
    split at h
    · rename_i op
      cases h
      exact .inl ⟨_, rfl, by rw [← op, fields]⟩
    split at h
    · rename_i op
      cases h
      exact .inr ⟨_, rfl, by rw [← op, fields]⟩
    · cases h
  · rintro (⟨b, rfl, rfl⟩ | ⟨b, rfl, rfl⟩) <;> cases b <;> rfl

theorem decodeCommand_error_code {v : Word} {e : Reject} (h : decodeCommand v = .error e) :
    Machine.Reject.code e = .badCommand := by
  unfold decodeCommand at h
  repeat' split at h
  all_goals cases h <;> rfl

theorem packCommand_start (b : BufId) : packCommand 0x1#4 b = 0x10000000#32 + (if b = .one then 1 else 0) := by
  cases b <;> rfl

theorem packCommand_readNext (b : BufId) : packCommand 0x2#4 b = 0x20000000#32 + (if b = .one then 1 else 0) := by
  cases b <;> rfl

/-! ### Register accesses as code (30_encoding R111) -/

theorem decodeRegAccess_read (r : Reg) : decodeRegAccess (.read .word r.offset) = .ok (decodeRead r) := by
  simp [decodeRegAccess, decodeOffset_offset, Except.map]

theorem decodeRegAccess_write (r : Reg) (v : Word) : decodeRegAccess (.write .word r.offset v) = decodeWrite v r := by
  simp [decodeRegAccess, decodeOffset_offset, Except.bind]

theorem decode_reg_of_op {a : RegAccess} {i : Instr} (h : decodeRegAccess a = .ok (.op i)) : decode (.reg a) = .ok i := by
  simp [decode, h]

theorem decodeWrite_command {v : Word} {i : Instr} (h : decodeCommand v = .ok i) : decodeWrite v .xfCmd = .ok (.op i) := by
  simp [decodeWrite, h, Except.map]

theorem packConstruct_fields (shape : BitVec 2) (rep : Bool) : (packConstruct shape rep).getLsbD 3 = true ∧
    (packConstruct shape rep).setWidth 2 = shape ∧ (packConstruct shape rep).getLsbD 2 = rep := by
  revert shape rep
  decide

theorem decodeWrite_packConstruct (shape : BitVec 2) (rep : Bool) :
    decodeWrite (packConstruct shape rep) .wvCtrl = .ok (.op (.construct shape rep)) := by
  obtain ⟨construct, hshape, hrep⟩ := packConstruct_fields shape rep
  rw [Machine.decodeWrite_construct construct, hshape, hrep]

/-! ### Both encodings of an instruction -/

theorem decode_encode (i : Instr) : decode (encode i) = .ok i := by
  cases i with
  | jmp | jmpXdec | outPins | setX => simp [encode, decode, decodeSlot]
  | isDone | wait | nextSample | claim => exact decode_reg_of_op (decodeRegAccess_read _)
  | start b =>
    have command := decodeCommand_ok_iff.mpr (.inl ⟨b, rfl, rfl⟩)
    exact decode_reg_of_op ((decodeRegAccess_write _ _).trans (decodeWrite_command command))
  | readNext b =>
    have command := decodeCommand_ok_iff.mpr (.inr ⟨b, rfl, rfl⟩)
    exact decode_reg_of_op ((decodeRegAccess_write _ _).trans (decodeWrite_command command))
  | construct shape rep =>
    exact decode_reg_of_op ((decodeRegAccess_write _ _).trans (decodeWrite_packConstruct shape rep))

/-- An instruction's table word stands for its code (log 15). -/
theorem tableCode_tableWord (i : Instr) : tableCode (tableWord i).1 (tableWord i).2 = encode i := by
  cases i with
  | jmp | jmpXdec | outPins | setX => simp [tableCode, tableWord, encode]
  | start b | readNext b => cases b <;> rfl
  | isDone | wait | nextSample | claim => rfl
  | construct shape rep =>
    revert shape rep
    decide

/-- Settles O1: the decoder inverts the encoder field by field, and a table word stands for the encoder's code. -/
theorem decodeEncodeRoundTrip : Obligations.DecodeEncodeRoundTrip := by
  refine fun i => ⟨decode_encode i, ?_⟩
  rw [decodeTableWord, tableCode_tableWord, decode_encode]

/-- Settles O4: the decoder evaluated on the words of the spec's vectors. -/
theorem specWordsDecode : Obligations.SpecWordsDecode :=
  ⟨rfl, rfl, rfl, rfl, rfl, rfl, rfl, rfl, rfl, rfl, rfl, rfl, rfl, rfl⟩

end Sys2Proof

namespace Sys2Proof.Machine

variable {s : State} {a : Access} {item : HostItem}

/-! ### A turn, and SEQ's fetch of a rejected word -/

theorem step_of_turn (turn : s.turn ≠ .reset) (fault : s.fault = none) : step s = agentTurn s.turn s.tick := by
  simp [step, turn, fault]

/-- 42_sequencer R164, 60_exceptions R303: the cycle that would start the instruction raises what its decoder names. -/
theorem step_fetch_rejected {w : SlotWord} {e : Reject} (turn : s.turn = .seq) (fault : s.fault = none)
    (en : s.seq.en = true) (dly : s.seq.dly = 0) (slot : s.seq.slot s.seq.pc = some w) (h : decodeSlot w = .error e) :
    step s = .next (s.tick.raise (Reject.code e)) := by
  rw [step_of_turn (by simp [turn]) fault, turn]
  simp [agentTurn, seqTurn, seqCycle, en, dly, slot, h]

/-- Settles O2: the rows that admit a word are as many as the instructions the decoder answers for it. -/
theorem decoderAdmitsExactlyTableRows : Obligations.DecoderAdmitsExactlyTableRows := by
  intro w
  rw [length_filter_slotRows, map_mnemonic_filter_slotRows]
  cases h : decodeSlot w with
  | ok i => simp [Except.toOption]
  | error e =>
    refine ⟨by simp [Except.toOption], by simp [Except.toOption], by simp, fun _ s turn fault en dly slot => ?_⟩
    rw [step_fetch_rejected turn fault en dly slot h, decodeSlot_error_code h]

/-! ### Register accesses by what they decode to -/

theorem regAccess_of_op {r : RegAccess} {i : Instr} (h : decodeRegAccess r = .ok (.op i)) (s : State) :
    regAccess r s = exec i s := by
  simp [regAccess, h]

theorem regAccess_write_rejected {r : Reg} {v : Word} {e : Reject} (h : decodeWrite v r = .error e) (s : State) :
    regAccess (.write .word r.offset v) s = .next (s.raise (Reject.code e)) := by
  simp [regAccess, decodeRegAccess_write, h]

/-- Settles O5: OP and BUF are all of a legal command word, and XF_CMD refuses the words that decode to no command. -/
theorem commandWordsAreExactlyFour : Obligations.CommandWordsAreExactlyFour := by
  refine ⟨fun v b => ?_, fun v b => ?_, fun v start0 start1 next0 next1 s => ?_⟩
  · rw [← packCommand_start]
    simp [decodeCommand_ok_iff]
  · rw [← packCommand_readNext]
    simp [decodeCommand_ok_iff]
  · cases h : decodeCommand v with
    | error e =>
      have rejected : decodeWrite v .xfCmd = .error e := by simp [decodeWrite, h, Except.map]
      rw [← decodeCommand_error_code h]
      exact regAccess_write_rejected rejected s
    | ok i =>
      obtain ⟨b, _, rfl⟩ | ⟨b, _, rfl⟩ := decodeCommand_ok_iff.mp h <;> cases b <;> contradiction

/-! ### The host's turn (30_encoding R112) -/

theorem step_host (turn : s.turn = .host) (fault : s.fault = none) : step s = hostTurn s.tick := by
  rw [step_of_turn (by simp [turn]) fault, turn]
  rfl

theorem step_hostItem {rest : List HostItem} (turn : s.turn = .host) (fault : s.fault = none)
    (prog : s.host.prog = item :: rest) : step s = hostItem item s.tick := by
  simp [step_host turn fault, hostTurn, prog]

theorem hostItem_access (h : HostItem.access? item = some a) (s : State) : hostItem item s = hostAccess a s := by
  unfold hostItem
  split
  · cases h
  · rw [h]

/-- CONFIGURE apart, an item without an access leaves nothing behind it. -/
theorem hostItem_idle {rest : List HostItem} (h : HostItem.access? item = none)
    (notConfigure : ∀ sysHz sr bd cpb, item ≠ .configure sysHz sr bd cpb) (prog : s.host.prog = item :: rest) :
    hostItem item s = .next { s with host := ⟨rest, s.host.result⟩ } := by
  cases item with
  | configure sysHz sr bd cpb => exact absurd rfl (notConfigure sysHz sr bd cpb)
  | access | refill | loop | environment => cases h
  | fill b first stride count =>
    cases count with
    | zero => simp [hostItem, HostItem.access?, State.completeWrite, State.hostRest, State.hostAfter, prog]
    | succ n => cases h

theorem hostAccess_reg (r : RegAccess) (s : State) : hostAccess (.reg r) s = regAccess r s := rfl

theorem windowOffset_of_toNat_eq {base a : Word} {o : RegOffset} (h : a.toNat = base.toNat + o.toNat) :
    windowOffset base a = some o := by
  have hlt := o.isLt
  rw [windowOffset, if_pos (by omega), Option.some_inj]
  apply BitVec.eq_of_toNat_eq
  rw [BitVec.toNat_setWidth, BitVec.toNat_sub_of_le (BitVec.le_def.mpr (by omega))]
  omega

/-- Settles O10: each kind of item by its own equation, and an access in the register window by its offset. -/
theorem stepRunsHostOperation : Obligations.StepRunsHostOperation := by
  refine ⟨fun s turn fault => ⟨fun done => ?_, fun item rest prog => ?_⟩, fun s r => hostAccess_reg r s, fun s width a v o h => ?_⟩
  · simp [step_host turn fault, hostTurn, done]
  · rw [step_hostItem turn fault prog]
    refine ⟨fun a h => hostItem_access h s.tick, fun a i h hop => ?_, ?_, fun h notConfigure => ?_⟩
    · rw [hostItem_access h, hostAccess_reg, regAccess_of_op hop]
    · rintro sysHz sr bd cpb rfl
      rfl
    · simpa using hostItem_idle h notConfigure ((congrArg HostState.prog s.tick_host).trans prog)
  · simp [hostAccess, resolveAccess, windowOffset_of_toNat_eq h]

end Sys2Proof.Machine

/-! WAVE (41_waveform): CONSTRUCT and NEXT_SAMPLE by their outcomes, the sample in exact arithmetic, and the invariant of
the producer. Only the host's turn reaches WAVE, and under the invariant NEXT_SAMPLE always has a sample to return. -/

namespace Sys2Proof.Machine

variable {s t : State} {w : WaveState}

/-! ### The phase after a sample (41_waveform R139) -/

theorem toNat_add_one_eq_ite (p : Word) : (p + 1).toNat = if p = 0xFFFFFFFF#32 then 0 else p.toNat + 1 := by
  split
  · subst p
    rfl
  · bv_omega

theorem WaveState.nextPhase_sine {o : Config.SineOverflow} (sine : w.shape = 0)
    (wraps : w.phase = 0xFFFFFFFF#32 → o = .wrap) : w.nextPhase o = some (w.phase + 1) := by
  unfold WaveState.nextPhase
  rw [if_pos sine]
  split
  · rfl
  · have last : w.phase = 0xFFFFFFFF#32 := by bv_omega
    rw [wraps last, last]
    rfl

theorem WaveState.nextPhase_sine_fault (sine : w.shape = 0) (last : w.phase = 0xFFFFFFFF#32) :
    w.nextPhase .fault = none := by
  simp [WaveState.nextPhase, sine, last]

theorem WaveState.nextPhase_of_ne_sine {o : Config.SineOverflow} (h : w.shape ≠ 0) :
    w.nextPhase o = some (if w.phase + 1 = w.rate then 0 else w.phase + 1) := by
  unfold WaveState.nextPhase
  rw [if_neg h]
  split <;> rfl

/-- Below RATE the phase counts up exactly: it returns to 0 at RATE before its 32 bits overflow. -/
theorem toNat_wrapAt {p rate : Word} (h : p.toNat < rate.toNat) :
    (if p + 1 = rate then 0 else p + 1).toNat = if p.toNat + 1 = rate.toNat then 0 else p.toNat + 1 := by
  have succ : (p + 1).toNat = p.toNat + 1 := by bv_omega
  have atRate : p + 1 = rate ↔ p.toNat + 1 = rate.toNat := by rw [← BitVec.toNat_inj, succ]
  simp only [atRate]
  split
  · rfl
  · exact succ

/-! ### CONSTRUCT and NEXT_SAMPLE -/

/-- Settles O37: the three checks in their order, and the write that passes them. -/
theorem constructOutcomes : Obligations.ConstructOutcomes := by
  intro shape rep s
  refine ⟨exec_construct_ready, fun idle rate => ?_, fun idle rate reserved => ?_, fun idle rate hshape => ?_⟩ <;>
    simp only [exec, execConstruct, idle, Bool.false_eq_true, if_false]
  · rw [if_pos rate, raise_eq]
  · rw [if_neg rate, if_pos reserved, raise_eq]
  · rw [if_neg rate, if_neg hshape]
    rfl

/-- A constructed producer that CONSTRUCT refuses to build (41_waveform R131, log 16). -/
def WaveState.OutsideDomain (w : WaveState) : Prop := w.ready = true ∧ (w.rate = 0 ∨ w.shape = 3)

theorem execNextSample_idle (h : s.wave.ready = false) : execNextSample s = .next (s.raise .hostProtocol) := by
  simp [execNextSample, h]

theorem execNextSample_outsideDomain (h : s.wave.OutsideDomain) :
    execNextSample s = .refused .producerOutsideDomain := by
  obtain ⟨ready, rate | hshape⟩ := h
  · simp only [execNextSample, ready, rate, Bool.true_eq_false, if_false, if_true]
  · have noSample := WaveState.sample_eq_none.mpr hshape
    simp only [execNextSample, ready, noSample, Bool.true_eq_false, if_false, ite_self]

theorem execNextSample_refused {r : Refusal} (h : execNextSample s = .refused r) : s.wave.OutsideDomain := by
  unfold execNextSample at h
  split at h
  · cases h
  have ready : s.wave.ready = true := by simpa using ‹¬ s.wave.ready = false›
  split at h
  · exact ⟨ready, .inl ‹_›⟩
  split at h
  · exact ⟨ready, .inr (WaveState.sample_eq_none.mp ‹_›)⟩
  · split at h <;> cases h

theorem execNextSample_overflow (ready : s.wave.ready = true) (rate : s.wave.rate ≠ 0) (hshape : s.wave.shape ≠ 3)
    (overflow : s.wave.nextPhase s.params.sineOverflow = none) :
    execNextSample s = .next (s.raise .phaseOverflow) := by
  obtain ⟨v, hv⟩ := Option.ne_none_iff_exists'.mp (mt WaveState.sample_eq_none.mp hshape)
  simp only [execNextSample, ready, hv, overflow, Bool.true_eq_false, if_false, if_neg rate, raise_eq]

theorem execNextSample_sampled {v p : Word} (ready : s.wave.ready = true) (rate : s.wave.rate ≠ 0)
    (hv : s.wave.sample = some v) (hp : s.wave.nextPhase s.params.sineOverflow = some p) :
    execNextSample s = .next { s with wave := { s.wave with phase := p }, host := ⟨s.hostRest v, v⟩ } := by
  simp only [execNextSample, ready, hv, hp, Bool.true_eq_false, if_false, if_neg rate]
  rfl

/-- Settles O38: a producer inside the domain has a sample, and its shape says how the phase advances. -/
theorem nextSampleOutcomes : Obligations.NextSampleOutcomes := by
  intro s
  refine ⟨execNextSample_idle, fun ready h => execNextSample_outsideDomain ⟨ready, h⟩,
    fun ready rate sine last overflow => ?_, fun ready rate hshape wraps => ?_⟩
  · refine execNextSample_overflow ready rate (by simp [sine]) ?_
    rw [overflow]
    exact WaveState.nextPhase_sine_fault sine last
  · obtain ⟨v, hv⟩ := Option.ne_none_iff_exists'.mp (mt WaveState.sample_eq_none.mp hshape)
    by_cases sine : s.wave.shape = 0
    · exact ⟨v, _, hv, execNextSample_sampled ready rate hv (WaveState.nextPhase_sine sine (wraps sine)),
        fun _ => toNat_add_one_eq_ite _, absurd sine⟩
    · exact ⟨v, _, hv, execNextSample_sampled ready rate hv (WaveState.nextPhase_of_ne_sine sine),
        fun h => absurd h sine, fun _ => toNat_wrapAt⟩

/-! ### WAVE's invariant -/

/-- A sample keeps the configuration, and its phase stays below RATE unless the shape is Sine. -/
theorem WaveState.Inv.sampled {p : Word} {o : Config.SineOverflow} (hw : w.Inv) (ready : w.ready = true)
    (hp : w.nextPhase o = some p) : WaveState.Inv { w with phase := p } where
  readyRate := hw.readyRate
  readyShape := hw.readyShape
  phaseLt _ hshape := by
    have below := hw.phaseLt ready hshape
    rw [WaveState.nextPhase_of_ne_sine (w := w) hshape, Option.some_inj] at hp
    change p.toNat < w.rate.toNat
    rw [← hp, toNat_wrapAt below]
    split <;> omega
  idlePhase idle := by simp [ready] at idle

theorem WaveState.Inv.constructed {shape : BitVec 2} (rep : Bool) (rate : w.rate ≠ 0) (hshape : shape ≠ 3) :
    WaveState.Inv { w with shape := shape, rep := rep, phase := 0, ready := true } where
  readyRate _ := rate
  readyShape _ := hshape
  phaseLt _ _ := by
    change 0 < w.rate.toNat
    bv_omega
  idlePhase idle := by simp at idle

theorem WaveState.Inv.of_idle (ready : w.ready = false) (phase : w.phase = 0) : w.Inv where
  readyRate h := by simp [ready] at h
  readyShape h := by simp [ready] at h
  phaseLt h := by simp [ready] at h
  idlePhase _ := phase

/-- The host reaches WAVE by a configuration write, by CONSTRUCT and by NEXT_SAMPLE. -/
theorem HostEffect.keeps_waveInv (h : HostEffect s t) (hs : s.wave.Inv) : t.wave.Inv := by
  cases h with
  | idle | fault | read | write | memWrite => simpa using hs
  | op i t hi hx =>
    cases exec_hostOp_next hi hx with
    | fault | blocked | start | readNext | isDone | reclaim | claim => simpa using hs
    | nextSample v p ready rate hv hp => exact hs.sampled ready hp
    | construct shape rep ready rate hshape => exact .constructed rep rate hshape
  | plainWrite v t hw =>
    cases hw with
    | fault | seqCtrl | seqConfig | xfLen | buffer | ignored => simpa using hs
    | waveConfig w idle still phase => exact .of_idle still (phase.trans (hs.idlePhase idle))

/-- Settles O57: only the host's turn and reset reach WAVE. -/
theorem stepKeepsWaveInvariant : Obligations.StepKeepsWaveInvariant := by
  intro s t hs h
  obtain ⟨_, rfl⟩ | ⟨ht, _⟩ := step_next h
  · exact WaveState.inv_reset
  obtain ⟨_, ⟨_, hx⟩ | ⟨_, hx⟩ | ⟨_, _, hx⟩⟩ := step_cases ht h
  · obtain rfl | ⟨_, _, _, rfl⟩ := xferTurn_next hx <;> simpa using hs
  · exact (hostTurn_next hx).keeps_waveInv (by simpa using hs)
  · cases hx <;> simpa using hs

/-! ### The one refusal (log 16) -/

theorem exec_refused {i : Instr} {r : Refusal} (h : exec i s = .refused r) :
    i = .nextSample ∧ s.wave.OutsideDomain := by
  cases i with
  | nextSample => exact ⟨rfl, execNextSample_refused h⟩
  | jmp | jmpXdec | setX | isDone => cases h
  | outPins | start | readNext | wait | construct | claim =>
    simp only [exec, execOutPins, execStart, execReadNext, execWait, execConstruct, execClaim] at h
    repeat' split at h
    all_goals cases h

theorem writeReg_ne_refused (p : PlainWrite) (v : Word) (s : State) (r : Refusal) : writeReg p v s ≠ .refused r := by
  intro h
  cases p <;> simp only [writeReg, writeSeqCtrl, writeSeqConfig, writeBuffer, writeWaveConfig] at h
  all_goals
    repeat' split at h
    all_goals cases h

theorem regAccess_refused {a : RegAccess} {r : Refusal} (h : regAccess a s = .refused r) : s.wave.OutsideDomain := by
  unfold regAccess at h
  split at h
  · cases h
  · exact (exec_refused h).2
  · cases h
  · exact absurd h (writeReg_ne_refused _ _ s r)

theorem hostAccess_refused {a : Access} {r : Refusal} (h : hostAccess a s = .refused r) : s.wave.OutsideDomain := by
  unfold hostAccess at h
  split at h
  · exact regAccess_refused h
  · cases h
  · unfold hostMemWrite at h
    split at h <;> cases h

theorem configure_ne_refused (sysHz sr bd cpb : Nat) (s : State) (r : Refusal) :
    configure sysHz sr bd cpb s ≠ .refused r := by
  unfold configure
  split
  · nofun
  · exact writeReg_ne_refused _ _ s r

theorem hostTurn_refused {r : Refusal} (h : hostTurn s = .refused r) : s.wave.OutsideDomain := by
  unfold hostTurn at h
  split at h
  · cases h
  unfold hostItem at h
  split at h
  · exact absurd h (configure_ne_refused _ _ _ _ s r)
  split at h
  · exact hostAccess_refused h
  · cases h

theorem xferTurn_ne_refused (s : State) (r : Refusal) : xferTurn s ≠ .refused r := by
  unfold xferTurn
  repeat' split
  all_goals nofun

/-- NEXT_SAMPLE is no SEQ instruction. -/
theorem seqCycle_ne_refused (s : State) (r : Refusal) : seqCycle s ≠ .refused r := by
  intro h
  unfold seqCycle at h
  split at h
  · cases h
  split at h
  · cases h
  split at h
  · cases h
  · have isSeq := decodeSlot_isSeq ‹_›
    obtain ⟨rfl, _⟩ := exec_refused h
    cases isSeq

theorem seqTurn_ne_refused (s : State) (r : Refusal) : seqTurn s ≠ .refused r := by
  unfold seqTurn
  split
  · exact seqCycle_ne_refused s r
  · nofun

theorem clockTurn_ne_refused (s : State) (r : Refusal) : clockTurn s ≠ .refused r := by
  intro h
  unfold clockTurn at h
  split at h
  · cases h
  split at h
  · cases h
  split at h
  · split at h <;> cases h
  · cases h
  · exact seqCycle_ne_refused s _ ‹_›

/-- Only the host's turn can refuse, and only for a producer outside the domain. -/
theorem agentTurn_refused {turn : Config.Turn} {r : Refusal} (h : agentTurn turn s = .refused r) :
    s.wave.OutsideDomain := by
  cases turn with
  | host => exact hostTurn_refused h
  | seq => exact absurd h (seqTurn_ne_refused s r)
  | xfer => exact absurd h (xferTurn_ne_refused s r)
  | clock => exact absurd h (clockTurn_ne_refused s r)
  | reset => cases h

theorem step_refused {r : Refusal} (h : step s = .refused r) : s.wave.OutsideDomain := by
  rw [← State.tick_wave s]
  unfold step at h
  split at h
  · cases h
  split at h
  · cases h
  · exact agentTurn_refused h

/-- Settles O59: under the invariant no producer is outside the domain, and nothing else refuses. -/
theorem noStepRefuses : Obligations.NoStepRefuses := by
  intro s r hw h
  obtain ⟨ready, rate | hshape⟩ := step_refused h
  · exact hw.readyRate ready rate
  · exact hw.readyShape ready hshape

/-! ### FILL (41_waveform R145) -/

theorem step_fill {b : BufId} {first stride n : Nat} {rest : List HostItem} (turn : s.turn = .host)
    (fault : s.fault = none) (prog : s.host.prog = .fill b first stride (n + 1) :: rest) :
    step s = exec .nextSample s.tick := by
  rw [step_hostItem turn fault prog, hostItem_access (a := .reg (.read .word Reg.wvSample.offset)) rfl, hostAccess_reg,
    regAccess_read_op (r := .wvSample) rfl]

theorem State.hostRest_fill {b : BufId} {first stride n : Nat} {rest : List HostItem}
    (prog : s.host.prog = .fill b first stride (n + 1) :: rest) (v : Word) : s.hostRest v =
    .access (.memWrite .word ((s.xfer.buf b).addr + BitVec.ofNat 32 (4 * first)) v) :: .fill b (first + stride) stride n ::
      rest := by
  simp [State.hostRest, prog, State.hostAfter]

/-- Settles O53: without a fault the turn's NEXT_SAMPLE completes, and the item leaves its store behind. -/
theorem fillStoresEachSample : Obligations.FillStoresEachSample := by
  intro s t b first stride n rest turn fault prog h unfaulted
  rw [step_fill turn fault prog] at h
  refine ⟨h, ?_⟩
  obtain ⟨c, rfl⟩ | ⟨_, _, v, p, hv, _, rfl⟩ := execNextSample_next h
  · simp at unfaulted
  · refine ⟨by simpa using hv, ?_⟩
    simpa using State.hostRest_fill (s := { s.tick with wave := _ }) (by simpa using prog) v

end Sys2Proof.Machine

/-! COS_F32 and the samples in exact arithmetic (41_waveform R133 to R138). The remainder r is below RATE, so the Sawtooth's
quotient fits a word; COS_F32 lies in [-1, 1], so the fixed-point Sine does too. -/

namespace Sys2Proof.Machine

variable {w : WaveState} {c r rate : Word}

/-! ### COS_F32 (41_waveform R137, log 8) -/

/-- The encoding less its sign, as a mask and as a field. -/
theorem and_mask_eq_extractLsb' (c : Word) : (c &&& 0x7FFFFFFF#32).toNat = (c.extractLsb' 0 31).toNat := by
  rw [BitVec.toNat_and, BitVec.extractLsb'_toNat, Nat.shiftRight_zero]
  exact Nat.and_two_pow_sub_one_eq_mod _ 31

theorem inUnitRange_iff : inUnitRange c = true ↔ (c.extractLsb' 0 31).toNat ≤ 0x3F800000 := by
  simp only [inUnitRange, decide_eq_true_iff]

theorem inUnitRange_toUnitRange (c : Word) : inUnitRange (toUnitRange c) = true := by
  unfold toUnitRange
  split
  · assumption
  · decide

/-- P1. -/
theorem inUnitRange_cosF32 (r rate : Word) : inUnitRange (cosF32 r rate) = true := by
  unfold cosF32
  split_ifs
  · decide
  · decide
  · decide
  · exact inUnitRange_toUnitRange _
  · exact inUnitRange_toUnitRange _

/-- P2. -/
theorem cosF32_zero (rate : Word) : cosF32 0 rate = 0x3F800000#32 := rfl

/-- P3. -/
theorem cosF32_half (hlt : r.toNat < rate.toNat) (half : 2 * r.toNat = rate.toNat) : cosF32 r rate = 0xBF800000#32 := by
  have hr : r ≠ 0 := by bv_omega
  rw [cosF32, if_neg hr, if_pos half]
  rfl

/-- P4. -/
theorem cosF32_quarter (hlt : r.toNat < rate.toNat) (quarter : 4 * r.toNat = rate.toNat ∨ 4 * r.toNat = 3 * rate.toNat) :
    cosF32 r rate = 0x00000000#32 := by
  have hr : r ≠ 0 := by bv_omega
  rw [cosF32, if_neg hr, if_neg (by omega), if_pos quarter]
  rfl

/-- The lesser of r and RATE - r is the same for both. -/
theorem lesser_symm (r rate : Word) :
    (if r.toNat ≤ (rate - r).toNat then r else rate - r) =
      if (rate - r).toNat ≤ (rate - (rate - r)).toNat then rate - r else rate - (rate - r) := by
  rw [sub_sub_cancel]
  split <;> split <;> bv_omega

/-- P5: the quarter points of r and of RATE - r are the same, and the free draw is that of the lesser of them. -/
theorem cosF32_symm (hlt : r.toNat < rate.toNat) (hpos : 0 < r.toNat) : cosF32 r rate = cosF32 (rate - r) rate := by
  have hsub : (rate - r).toNat = rate.toNat - r.toNat := BitVec.toNat_sub_of_le (BitVec.le_def.mpr hlt.le)
  have hr : r ≠ 0 := by bv_omega
  have hr' : rate - r ≠ 0 := by bv_omega
  have half : 2 * (rate - r).toNat = rate.toNat ↔ 2 * r.toNat = rate.toNat := by omega
  have quarter : (4 * (rate - r).toNat = rate.toNat ∨ 4 * (rate - r).toNat = 3 * rate.toNat) ↔
      (4 * r.toNat = rate.toNat ∨ 4 * r.toNat = 3 * rate.toNat) := by omega
  unfold cosF32
  simp only [if_neg hr, if_neg hr', half, quarter, lesser_symm r rate]

/-- Settles O41: each property is one branch of the definition, whatever the free constant. -/
theorem cosineHasItsProperties : Obligations.CosineHasItsProperties := by
  intro r rate hlt
  refine ⟨?_, ?_, cosF32_half hlt, cosF32_quarter hlt, cosF32_symm hlt⟩
  · rw [and_mask_eq_extractLsb']
    exact inUnitRange_iff.mp (inUnitRange_cosF32 r rate)
  · rintro rfl
    exact cosF32_zero rate

/-! ### The samples (41_waveform R133 to R138) -/

theorem WaveState.ratio_lt (hrate : w.rate ≠ 0) : w.ratio < w.rate.toNat :=
  Nat.mod_lt _ (by bv_omega)

theorem WaveState.sample_sine (h : w.shape = 0) :
    w.sample = some (sineSample w.rep (BitVec.ofNat 32 w.ratio) w.rate) := by
  unfold WaveState.sample
  rw [if_pos h]

theorem WaveState.sample_sawtooth (h : w.shape = 1) : w.sample =
    some (if w.rep then sawtoothFixed w.ratio w.rate.toNat else sawtoothFloat w.ratio w.rate.toNat) := by
  unfold WaveState.sample
  rw [if_neg (by simp [h]), if_pos h]

theorem WaveState.sample_square (h : w.shape = 2) : w.sample = some (squareSample w.rep w.ratio w.rate.toNat) := by
  unfold WaveState.sample
  rw [if_neg (by simp [h]), if_neg (by simp [h]), if_pos h]

/-- The magnitude of a value does not depend on its sign. -/
theorem f32Units_eq_magnitudeUnits_extractLsb' (c : Word) : f32Units c = magnitudeUnits (c.extractLsb' 0 31).toNat := by
  have hexp : (c.extractLsb' 23 8).toNat = (c.extractLsb' 0 31).toNat / 2 ^ 23 := by
    simp only [BitVec.extractLsb'_toNat, Nat.shiftRight_eq_div_pow]
    omega
  have hfrac : (c.extractLsb' 0 23).toNat = (c.extractLsb' 0 31).toNat % 2 ^ 23 := by
    simp only [BitVec.extractLsb'_toNat, Nat.shiftRight_eq_div_pow]
    omega
  simp only [f32Units, magnitudeUnits, hexp, hfrac]

/-- 1.0 is the greatest value in [-1, 1]. -/
theorem f32Units_le_of_inUnitRange (h : inUnitRange c = true) : f32Units c ≤ 2 ^ 149 := by
  rw [f32Units_eq_magnitudeUnits_extractLsb']
  calc magnitudeUnits (c.extractLsb' 0 31).toNat
      ≤ magnitudeUnits (126 * 2 ^ 23 + 2 ^ 23) := magnitudeUnits_strictMono.monotone (inUnitRange_iff.mp h)
    _ = 2 ^ 23 * 2 ^ 126 := magnitudeUnits_of_significand (by decide) (.inr le_rfl)
    _ = 2 ^ 149 := by norm_num

/-- The fixed-point image of a value of at most 1 fits a word. -/
theorem fixedPoint_lt {num den : Nat} (h : num ≤ den) : num * (2 ^ 32 - 1) / den < 2 ^ 32 :=
  (Nat.div_le_of_le_mul (Nat.mul_le_mul_right _ h)).trans_lt (by norm_num)

/-- The image of `(c + 1) / 2`. -/
theorem toNat_sineFixed (h : inUnitRange c = true) : (sineFixed c).toNat =
    (if c.getLsbD 31 then 2 ^ 149 - f32Units c else 2 ^ 149 + f32Units c) * (2 ^ 32 - 1) / 2 ^ 150 := by
  have hunits := f32Units_le_of_inUnitRange h
  have hle : (if c.getLsbD 31 then 2 ^ 149 - f32Units c else 2 ^ 149 + f32Units c) ≤ 2 ^ 150 := by split <;> omega
  unfold sineFixed
  rw [BitVec.toNat_ofNat, Nat.mod_eq_of_lt (fixedPoint_lt hle)]

/-- The image of `r / RATE`. -/
theorem toNat_sawtoothFixed {r rate : Nat} (h : r ≤ rate) :
    (sawtoothFixed r rate).toNat = r * (2 ^ 32 - 1) / rate := by
  rw [sawtoothFixed, BitVec.toNat_ofNat, Nat.mod_eq_of_lt (fixedPoint_lt h)]

theorem sawtoothFloat_of_lt {r rate : Nat} (h : 2 * r < rate) :
    sawtoothFloat r rate = roundF32 true (rate - 2 * r) rate := if_pos h

theorem sawtoothFloat_of_le {r rate : Nat} (h : rate ≤ 2 * r) :
    sawtoothFloat r rate = roundF32 false (2 * r - rate) rate := if_neg (Nat.not_lt.mpr h)

theorem squareSample_of_lt (rep : Bool) {r rate : Nat} (h : 2 * r < rate) :
    squareSample rep r rate = if rep then 0xFFFFFFFF#32 else 0x3F800000#32 := by
  cases rep <;> simp [squareSample, h, f32One]

theorem squareSample_of_le (rep : Bool) {r rate : Nat} (h : rate ≤ 2 * r) :
    squareSample rep r rate = if rep then 0x00000000#32 else 0xBF800000#32 := by
  cases rep <;> simp [squareSample, Nat.not_lt.mpr h, f32NegOne]

/-- Settles O39: the shape picks the formula, and the fixed-point images fit a word. -/
theorem sampleFollowsFormula : Obligations.SampleFollowsFormula := by
  intro w r hrate hr
  obtain rfl : r = w.ratio := hr
  refine ⟨fun sine float => ?_, fun sine fixed => ?_, fun saw float lower => ?_, fun saw float upper => ?_,
    fun saw fixed => ?_, fun square float lower => ?_, fun square float upper => ?_, fun square fixed lower => ?_,
    fun square fixed upper => ?_⟩
  · rw [WaveState.sample_sine sine, float, sineSample, if_neg Bool.false_ne_true]
  · have hv := toNat_sineFixed (inUnitRange_cosF32 (BitVec.ofNat 32 w.ratio) w.rate)
    refine ⟨_, _, WaveState.sample_sine sine, rfl, fun positive => ?_, fun negative => ?_⟩ <;>
      rw [fixed, sineSample, if_pos rfl, hv]
    · simp only [positive, Bool.false_eq_true, if_false]
    · simp only [negative, if_true]
  · rw [WaveState.sample_sawtooth saw, float, if_neg Bool.false_ne_true, sawtoothFloat_of_lt lower]
  · rw [WaveState.sample_sawtooth saw, float, if_neg Bool.false_ne_true, sawtoothFloat_of_le upper]
  · rw [WaveState.sample_sawtooth saw, fixed, if_pos rfl]
    exact ⟨_, rfl, toNat_sawtoothFixed (WaveState.ratio_lt hrate).le⟩
  · rw [WaveState.sample_square square, float, squareSample_of_lt false lower, if_neg Bool.false_ne_true]
  · rw [WaveState.sample_square square, float, squareSample_of_le false upper, if_neg Bool.false_ne_true]
  · rw [WaveState.sample_square square, fixed, squareSample_of_lt true lower, if_pos rfl]
  · rw [WaveState.sample_square square, fixed, squareSample_of_le true upper, if_pos rfl]

end Sys2Proof.Machine

/-! SEQ, CONFIGURE and the clock (42_sequencer). Each SEQ instruction by its next state, a cycle by the instruction that
it fetches, and the clock turn by DIVCNT; the frame, the output lines and the cycle length follow from these. -/

namespace Sys2Proof.Machine

variable {s t u : State} {side : Side} {d : BitVec 3}

/-! ### The four instructions (42_sequencer R165 to R171) -/

/-- Settles O15: `next_pc` by its two branches. -/
theorem sequentialSuccessorWraps : Obligations.SequentialSuccessorWraps := by
  refine fun q p => ⟨fun top => if_pos top, fun other => ?_⟩
  rw [SeqState.nextPc, if_neg other]
  exact BitVec.toNat_add p 1

/-- Settles O16: JMP is COMPLETE alone. -/
theorem jmpCompletes : Obligations.JmpCompletes := fun _ _ _ _ => rfl

/-- Settles O17: X is tested as it stood, and 0 - 1 is 0xFFFFFFFF. -/
theorem jmpXdecCompletes : Obligations.JmpXdecCompletes := by
  refine fun side d a s => ⟨_, rfl, rfl, fun nonzero => ⟨if_pos nonzero, ?_⟩,
    fun zero => ⟨if_neg (not_not.mpr zero), ?_⟩⟩
  · change (s.seq.x - 1).toNat = s.seq.x.toNat - 1
    bv_omega
  · change s.seq.x - 1 = 0xFFFFFFFF#32
    rw [zero]
    rfl

/-- Settles O20: the immediate has 5 bits, so its zero extension keeps its value. -/
theorem setXCompletes : Obligations.SetXCompletes := fun _ _ _ _ =>
  ⟨_, rfl, BitVec.toNat_setWidth_of_le (by decide), rfl⟩

theorem State.autopull_empty (due : s.seq.thresh ≤ s.seq.osc) (empty : s.queue = []) : s.autopull = none := by
  simp [State.autopull, due, empty]

theorem State.autopull_pull {w : Word} {rest : List Word} (due : s.seq.thresh ≤ s.seq.osc) (head : s.queue = w :: rest) :
    s.autopull = some (w, 0, rest) := by
  simp [State.autopull, due, head]

theorem State.autopull_idle (idle : ¬ s.seq.thresh ≤ s.seq.osc) : s.autopull = some (s.seq.osr, s.seq.osc, s.queue) :=
  if_neg idle

theorem exec_outPins_stalls (due : s.seq.thresh ≤ s.seq.osc) (empty : s.queue = []) :
    exec (.outPins side d) s = .next s := by
  simp [exec, execOutPins, State.autopull_empty due empty]

theorem exec_outPins_completes {osr : Word} {osc : BitVec 6} {queue : List Word}
    (pull : s.autopull = some (osr, osc, queue)) : exec (.outPins side d) s =
    .next ({ s with
      queue := queue
      seq := { s.seq with data := osr.getLsbD 31, osr := osr <<< 1, osc := osc + 1 } }.complete side d
        (s.seq.nextPc s.seq.pc)) := by
  simp [exec, execOutPins, pull]

/-- Settles O18: one bit goes out of what autopull leaves in the shift register. -/
theorem outPinsCompletes : Obligations.OutPinsCompletes := by
  refine fun side d s => ⟨fun due w rest head => ?_, fun idle => ?_⟩
  · exact exec_outPins_completes (State.autopull_pull (BitVec.le_def.mpr due) head)
  · exact exec_outPins_completes (State.autopull_idle (by rw [BitVec.le_def]; omega))

/-- Settles O19: autopull finds no word, and the stall writes nothing. -/
theorem outPinsStalls : Obligations.OutPinsStalls := fun _ _ _ due empty =>
  exec_outPins_stalls (BitVec.le_def.mpr due) empty

/-- Settles O21: what each instruction writes, read off its next state. -/
theorem seqInstructionFrame : Obligations.SeqInstructionFrame := by
  intro i s t hi h
  cases i with
  | start | readNext | isDone | wait | nextSample | construct | claim => cases hi
  | jmp => obtain rfl := execJmp_next h; simp
  | jmpXdec => obtain rfl := execJmpXdec_next h; simp [Instr.mnemonic]
  | setX => obtain rfl := execSetX_next h; simp [Instr.mnemonic]
  | outPins => obtain ⟨_, rfl⟩ | ⟨_, _, _, _, rfl⟩ := execOutPins_next h <;> simp [Instr.mnemonic]

/-! ### A sequencer cycle (42_sequencer R163, R164) -/

/-- The schedule is all that `State.tick` writes (log 2). -/
theorem State.tick_eq (s : State) :
    s.tick = { s with turns := s.turns.tail, draws := if s.turns = [] then s.draws + 1 else s.draws } := by
  unfold State.tick
  split <;> rename_i h <;> simp [h]

theorem State.fetched_eq_some_iff {i : Instr} :
    s.fetched = some i ↔ ∃ w, s.seq.slot s.seq.pc = some w ∧ decodeSlot w = .ok i := by
  unfold State.fetched
  cases s.seq.slot s.seq.pc with
  | none => simp
  | some w => cases h : decodeSlot w <;> simp [h]

@[simp] theorem State.fetched_tick (s : State) : s.tick.fetched = s.fetched := by
  simp only [State.fetched, State.tick_seq]

@[simp] theorem State.seqStalled_tick (s : State) : s.tick.seqStalled ↔ s.seqStalled := by
  simp only [State.seqStalled, State.fetched_tick, State.tick_seq, State.tick_queue]

theorem seqCycle_delay (dly : s.seq.dly ≠ 0) : seqCycle s = .next { s with seq := { s.seq with dly := s.seq.dly - 1 } } :=
  if_pos dly

theorem seqCycle_fetched {i : Instr} (dly : s.seq.dly = 0) (fetched : s.fetched = some i) : seqCycle s = exec i s := by
  obtain ⟨w, slot, decode⟩ := State.fetched_eq_some_iff.mp fetched
  simp [seqCycle, dly, slot, decode]

theorem seqCycle_stalled (stalled : s.seqStalled) : seqCycle s = .next s := by
  obtain ⟨dly, ⟨side, d, fetched⟩, due, empty⟩ := stalled
  rw [seqCycle_fetched dly fetched, exec_outPins_stalls due empty]

theorem step_seq_running (turn : s.turn = .seq) (fault : s.fault = none) (en : s.seq.en = true) :
    step s = seqCycle s.tick := by
  rw [step_of_turn (by simp [turn]) fault, turn]
  simp [agentTurn, seqTurn, en]

/-- Settles O9: the cycle of a running SEQ with no delay pending is what it fetches. -/
theorem stepRunsSlotInstruction : Obligations.StepRunsSlotInstruction := by
  intro s w i turn fault en dly slot decode
  have fetched : s.fetched = some i := State.fetched_eq_some_iff.mpr ⟨w, slot, decode⟩
  rw [step_seq_running turn fault en]
  exact ⟨seqCycle_fetched (by simpa using dly) (by simpa using fetched), s.tick_eq⟩

/-- Settles O11: DLY is above 0, so the decrement does not wrap. -/
theorem delayCycleOnlyDecrementsDelay : Obligations.DelayCycleOnlyDecrementsDelay := by
  intro s turn fault en dly
  rw [step_seq_running turn fault en, seqCycle_delay (by simpa using dly), State.tick_seq]
  refine ⟨_, rfl, rfl, ?_⟩
  change (s.seq.dly - 1).toNat + 1 = s.seq.dly.toNat
  bv_omega

/-! ### The output lines (42_sequencer R172) -/

/-- DATA, BCLK and LRCLK. -/
def SeqState.lines (q : SeqState) : Bool × Bool × Bool := (q.data, q.bclk, q.lrclk)

theorem SeqState.lines_ne_iff {p q : SeqState} :
    q.lines ≠ p.lines ↔ q.data ≠ p.data ∨ q.bclk ≠ p.bclk ∨ q.lrclk ≠ p.lrclk := by
  simp only [SeqState.lines, ne_eq, Prod.mk.injEq]
  tauto

/-- No effect of the host reaches the lines: RESTART keeps them too (10_state R32). -/
theorem HostSeqEffect.lines_eq {p q : SeqState} (h : HostSeqEffect p q) : q.lines = p.lines := by
  cases h with
  | same | claim | clkDiv | cfg | pins | slot => rfl
  | ctrl v check r hr => obtain rfl | ⟨_, rfl⟩ := hr <;> rfl

/-- A cycle that changes a line completes the instruction that it fetches. -/
theorem seqCycle_changes_lines (h : seqCycle s = .next t) (changed : t.seq.lines ≠ s.seq.lines) :
    s.seq.dly = 0 ∧ ¬ s.seqStalled ∧
      ∃ i, s.fetched = some i ∧ (t.seq.data ≠ s.seq.data → i.mnemonic = "OUT_PINS") := by
  have running : ¬ s.seqStalled := by
    intro stalled
    cases (seqCycle_stalled stalled).symm.trans h
    exact changed rfl
  obtain ⟨_, rfl⟩ | ⟨_, c, rfl⟩ | ⟨dly, w, i, slot, decode, hi, hx⟩ := seqCycle_next h
  · exact absurd rfl changed
  · exact absurd (congrArg SeqState.lines (s.raise_seq c)) changed
  · obtain ⟨q, qu, rfl, _, _, data⟩ := exec_seq_next hi hx
    exact ⟨dly, running, i, State.fetched_eq_some_iff.mpr ⟨w, slot, decode⟩, data⟩

/-- A clock turn that changes a line has DIVCNT = 0 and is SEQ's cycle, with the clock counted after it (log 17). -/
theorem clockTurn_changes_lines (h : clockTurn s = .next t) (changed : t.seq.lines ≠ s.seq.lines) :
    s.seq.en = true ∧ s.seq.divCnt = 0 ∧ ∃ u, seqCycle s = .next u ∧ u.seq.lines = t.seq.lines := by
  obtain ⟨_, rfl⟩ | ⟨_, _, rfl⟩ | ⟨en, div, u, hu, ⟨_, rfl⟩ | ⟨_, rfl⟩⟩ := clockTurn_next h
  · exact absurd rfl changed
  · exact absurd rfl changed
  · exact ⟨en, div, u, hu, rfl⟩
  · exact ⟨en, div, _, hu, rfl⟩

/-- Settles O22: XFER's turn and the host's keep the lines, and in the other two they change by SEQ's cycle alone. -/
theorem linesChangeOnlyOnCompletion : Obligations.LinesChangeOnlyOnCompletion := by
  intro s t ht h changed
  replace changed : t.seq.lines ≠ s.tick.seq.lines := by
    rw [State.tick_seq]
    exact SeqState.lines_ne_iff.mpr changed
  obtain ⟨_, ⟨_, hx⟩ | ⟨_, hx⟩ | ⟨turn | turn, hx, _⟩⟩ := step_cases ht h
  · obtain rfl | ⟨_, _, _, rfl⟩ := xferTurn_next hx <;> exact absurd rfl changed
  · exact absurd (hostTurn_next hx).seqEffect.lines_eq changed
  · rw [turn] at hx
    obtain ⟨_, rfl⟩ | ⟨en, hx⟩ := seqTurn_next hx
    · exact absurd rfl changed
    · exact ⟨.inl turn, by simpa using en, by simpa using seqCycle_changes_lines hx changed⟩
  · rw [turn] at hx
    obtain ⟨en, div, u, hu, lines⟩ := clockTurn_changes_lines hx changed
    have data : u.seq.data = t.seq.data := congrArg Prod.fst lines
    rw [← lines] at changed
    rw [← data]
    exact ⟨.inr ⟨turn, by simpa using div⟩, by simpa using en, by simpa using seqCycle_changes_lines hu changed⟩

/-! ### The clock turn (42_sequencer R160) -/

theorem clockTurn_stopped (en : s.seq.en = false) : clockTurn s = .next s := if_pos en

theorem clockTurn_counting (en : s.seq.en = true) (div : s.seq.divCnt ≠ 0) :
    clockTurn s = .next { s with seq := s.seq.countCycle } := by
  rw [clockTurn, if_neg (by simp [en]), if_pos div]

theorem clockTurn_starting (en : s.seq.en = true) (div : s.seq.divCnt = 0) (h : seqCycle s = .next u)
    (fault : u.fault = s.fault) : clockTurn s = .next { u with seq := u.seq.startCycle.countCycle } := by
  simp [clockTurn, en, div, h, fault]

theorem clockTurn_faulting (en : s.seq.en = true) (div : s.seq.divCnt = 0) (h : seqCycle s = .next u)
    (fault : u.fault ≠ s.fault) : clockTurn s = .next u := by
  simp [clockTurn, en, div, h, fault]

theorem step_clock (turn : s.turn = .clock) (fault : s.fault = none) : step s = clockTurn s.tick := by
  rw [step_of_turn (by simp [turn]) fault, turn]
  rfl

/-- A cycle leaves FRACACC and the divisor alone, which the clock turn reads after it. -/
theorem seqCycle_fraction (h : seqCycle s = .next t) :
    t.seq.fracAcc = s.seq.fracAcc ∧ t.seq.clkInt = s.seq.clkInt ∧ t.seq.clkFrac = s.seq.clkFrac := by
  obtain ⟨_, rfl⟩ | ⟨_, c, rfl⟩ | ⟨_, _, i, _, _, hi, hx⟩ := seqCycle_next h
  · simp
  · simp
  · obtain ⟨-, -, -, -, -, -, -, -, -, -, fracAcc, -, -, -, clkInt, clkFrac, -⟩ := seqInstructionFrame i s t hi hx
    exact ⟨fracAcc, clkInt, clkFrac⟩

theorem SeqState.cycleLength_of_carry {q : SeqState} (h : 256 ≤ q.fracAcc.toNat + q.clkFrac.toNat) :
    q.cycleLength = q.clkInt.toNat + 1 := by
  rw [SeqState.cycleLength, if_pos h]

theorem SeqState.cycleLength_of_no_carry {q : SeqState} (h : q.fracAcc.toNat + q.clkFrac.toNat < 256) :
    q.cycleLength = q.clkInt.toNat := by
  rw [SeqState.cycleLength, if_neg (Nat.not_le.mpr h), Nat.add_zero]

theorem SeqState.divCnt_countCycle_of_zero {q : SeqState} (h : q.divCnt = 0) :
    q.countCycle.divCnt = if 1 < q.cycleLen then 1 else 0 := by
  simp [SeqState.countCycle, h]

/-- Settles O23: SEQ's cycle leaves the clock generator as it was, so the length is decided from the registers before it. -/
theorem cycleLengthFollowsAccumulator : Obligations.CycleLengthFollowsAccumulator := by
  intro s turn fault
  rw [step_clock turn fault]
  refine ⟨fun en => clockTurn_stopped (by simpa using en), fun en div => ?_, fun en div u hu => ?_⟩
  · rw [clockTurn_counting (by simpa using en) (by simpa using div), State.tick_seq]
    rfl
  · have en' : s.tick.seq.en = true := by simpa using en
    have div' : s.tick.seq.divCnt = 0 := by simpa using div
    have fault' : s.tick.fault = none := by simpa using fault
    obtain ⟨fracAcc, clkInt, clkFrac⟩ := seqCycle_fraction hu
    rw [State.tick_seq] at fracAcc clkInt clkFrac
    rw [← fracAcc, ← clkInt, ← clkFrac]
    refine ⟨fun faulted => clockTurn_faulting en' div' hu (by rwa [fault']), fun completed => ?_⟩
    refine ⟨_, clockTurn_starting en' div' hu (completed.trans fault'.symm), rfl, BitVec.toNat_add _ _,
      SeqState.cycleLength_of_carry, SeqState.cycleLength_of_no_carry, ?_⟩
    exact SeqState.divCnt_countCycle_of_zero ((seqCycle_divider hu).1.trans div')

/-! ### CONFIGURE (42_sequencer R161) -/

section Divisor

variable {sysHz sr bd cpb : Nat}

theorem deriveDivisor_depth (h : bd < 2 ∨ 32 < bd) : deriveDivisor sysHz sr bd cpb = .error .cfgParam := if_pos h

theorem deriveDivisor_cyclesPerBit (h : cpb < 3 ∨ 10 < cpb) : deriveDivisor sysHz sr bd cpb = .error .cfgParam := by
  simp [deriveDivisor, h]

/-- Past the checks of BD and CPB there is the sample rate's, then the divisor's. -/
theorem deriveDivisor_of_inRange (bdMin : 2 ≤ bd) (bdMax : bd ≤ 32) (cpbMin : 3 ≤ cpb) (cpbMax : cpb ≤ 10) :
    deriveDivisor sysHz sr bd cpb =
      if sr = 0 then .error .cfgSampleRate
      else if sysHz / (sr * 2 * bd * cpb) = 0 ∨ 65535 < sysHz / (sr * 2 * bd * cpb) then .error .cfgDivisor
      else .ok (BitVec.ofNat 16 (sysHz / (sr * 2 * bd * cpb)) ++ 0#16 : BitVec (16 + 16)) := by
  rw [deriveDivisor, if_neg (by omega), if_neg (by omega), ite_or]

theorem configure_rejected {c : FaultCode} (h : deriveDivisor sysHz sr bd cpb = .error c) (s : State) :
    configure sysHz sr bd cpb s = .next (s.raise c) := by
  simp [configure, h]

theorem configure_write {v : Word} (h : deriveDivisor sysHz sr bd cpb = .ok v) (s : State) :
    configure sysHz sr bd cpb s = writeReg .seqClkDiv v s := by
  simp [configure, h]

end Divisor

/-- The divisor's word has INT above a zero FRAC (10_state R34). -/
theorem SeqState.withClkDiv_append (q : SeqState) (n : BitVec 16) :
    q.withClkDiv (n ++ 0#16 : BitVec (16 + 16)) = { q with clkInt := n, clkFrac := 0 } := by
  have int : (n ++ 0#16).extractLsb' 16 16 = n := BitVec.extractLsb'_append_eq_left
  have frac : (n ++ 0#16).extractLsb' 8 8 = 0#8 := BitVec.extractLsb'_append_eq_of_add_le (by decide)
  rw [SeqState.withClkDiv, int, frac]
  rfl

/-- Settles O50: the checks in their order, then the write of SEQ_CLKDIV under its own rule. -/
theorem configureOutcomes : Obligations.ConfigureOutcomes := by
  rintro sysHz sr bd cpb d s rfl
  refine ⟨fun depth => configure_rejected (deriveDivisor_depth depth) s,
    fun _ _ cycles => configure_rejected (deriveDivisor_cyclesPerBit cycles) s,
    fun bdMin bdMax cpbMin cpbMax => ?_⟩
  have derived := deriveDivisor_of_inRange (sysHz := sysHz) (sr := sr) bdMin bdMax cpbMin cpbMax
  refine ⟨fun zero => configure_rejected (derived.trans (if_pos zero)) s, fun rate range => ?_,
    fun rate least most => ?_⟩
  · rw [if_neg (by omega), if_pos range] at derived
    exact configure_rejected derived s
  · rw [if_neg (by omega), if_neg (by omega)] at derived
    rw [configure_write derived]
    refine ⟨writeSeqConfig_running, fun stopped => ?_⟩
    rw [writeReg, writeSeqConfig_stopped stopped, SeqState.withClkDiv_append]

end Sys2Proof.Machine

/-! XFER (43_transfer_engine). SUBMIT_CHECK and each operation by its outcomes, the frame that the host operations share,
and XFER's own step. Ownership and STRANDED change by the operations alone, so their rules follow from the host's effects. -/

namespace Sys2Proof.Machine

variable {s t : State} {x : XferState} {b : BufId}

/-! ### SUBMIT_CHECK (43_transfer_engine R223) -/

/-- Two nonempty byte ranges intersect where a byte lies in both. -/
theorem rangesMeet_iff {a m b n : Nat} (hm : 0 < m) (hn : 0 < n) :
    rangesMeet a m b n = true ↔ ∃ i, (a ≤ i ∧ i < a + m) ∧ b ≤ i ∧ i < b + n := by
  rw [rangesMeet, decide_eq_true_iff]
  exact ⟨fun _ => ⟨max a b, by omega⟩, fun ⟨_, _⟩ => by omega⟩

/-- The buffers' ranges, as sets of bytes (10_state R54): an empty one shares no byte. -/
theorem Buffer.exists_holds_iff {u v : Buffer} {n : Word} (hn : n ≠ 0) (hu : u.len = n) :
    (∃ i, Buffer.holds u i = true ∧ Buffer.holds v i = true) ↔
      v.len ≠ 0 ∧ rangesMeet u.addr.toNat (4 * n.toNat) v.addr.toNat (4 * v.len.toNat) = true := by
  have pos {w : Word} (hw : w ≠ 0) : 0 < 4 * w.toNat := by bv_omega
  simp only [Buffer.holds_iff, hu]
  by_cases hv : v.len = 0
  · have empty : v.len.toNat = 0 := by simp [hv]
    exact ⟨fun ⟨_, _⟩ => by omega, fun h => absurd hv h.1⟩
  · rw [rangesMeet_iff (pos hn) (pos hv), and_iff_right hv]

theorem XferState.submitCheck_buflen (h : x.len = 0 ∨ (x.buf b).len ≠ x.len) : x.submitCheck b = some .cfgBuflen := by
  unfold XferState.submitCheck
  split
  · rfl
  · exact if_pos (h.resolve_left ‹_›)

/-- With the lengths right, the check is the placement rule. -/
theorem XferState.submitCheck_placement (len : x.len ≠ 0) (mine : (x.buf b).len = x.len) :
    x.submitCheck b = if (x.buf b).addr.toNat % 4 ≠ 0 ∨ 2 ^ 32 < (x.buf b).addr.toNat + 4 * x.len.toNat ∨
      ((x.buf (BufId.other b)).len ≠ 0 ∧ rangesMeet (x.buf b).addr.toNat (4 * x.len.toNat)
        (x.buf (BufId.other b)).addr.toNat (4 * (x.buf (BufId.other b)).len.toNat) = true)
    then some .bufPlacement else none := by
  have aligned : (x.buf b).addr.extractLsb' 0 2 ≠ 0#2 ↔ (x.buf b).addr.toNat % 4 ≠ 0 := by
    simp [← BitVec.toNat_inj]
  simp only [XferState.submitCheck, if_neg len, if_neg (not_not.mpr mine), aligned, gt_iff_lt, ite_or]

/-- Settles O24: the lengths come first, and the rest is the placement rule. -/
theorem submitCheckOutcomes : Obligations.SubmitCheckOutcomes := by
  intro x b
  refine ⟨XferState.submitCheck_buflen, fun len mine breach => ?_, fun len mine aligned fits apart => ?_⟩
  · rw [Buffer.exists_holds_iff len mine] at breach
    rw [XferState.submitCheck_placement len mine, if_pos breach]
  · rw [Buffer.exists_holds_iff len mine] at apart
    rw [XferState.submitCheck_placement len mine,
      if_neg (not_or.mpr ⟨not_not.mpr aligned, not_or.mpr ⟨not_lt.mpr fits, apart⟩⟩)]

/-! ### XFER's step (43_transfer_engine R229) -/

theorem XferState.active_of_first {before after : List BufId} (running : x.stranded = false)
    (sub : x.sub = before ++ b :: after) (moved : ∀ a ∈ before, x.len.toNat ≤ (x.buf a).moved)
    (left : (x.buf b).moved < x.len.toNat) : x.active = some b := by
  rw [XferState.active, if_neg (by simp [running]), List.find?_eq_some_iff_append]
  exact ⟨by simpa using left, before, after, sub, by simpa using moved⟩

theorem XferState.active_eq_none_iff :
    x.active = none ↔ x.stranded = true ∨ ∀ b ∈ x.sub, x.len.toNat ≤ (x.buf b).moved := by
  unfold XferState.active
  split <;> simp [*]

theorem xferTurn_moves (active : s.xfer.active = some b) (room : s.queue.length < s.params.qDepth) :
    xferTurn s = .next { s with
      queue := s.queue ++ [Memory.load s.mem .word (s.xfer.buf b).nextAddr]
      xfer := s.xfer.setBuf b { s.xfer.buf b with moved := (s.xfer.buf b).moved + 1 } } := by
  simp [xferTurn, active, room]

theorem xferTurn_idle (h : s.xfer.active = none ∨ s.params.qDepth ≤ s.queue.length) : xferTurn s = .next s := by
  unfold xferTurn
  split
  · rfl
  · next active => exact if_neg (Nat.not_lt.mpr (h.resolve_left (by simp [active])))

theorem step_xfer (turn : s.turn = .xfer) (fault : s.fault = none) : step s = xferTurn s.tick := by
  rw [step_of_turn (by simp [turn]) fault, turn]
  rfl

/-- Settles O30: the first buffer with words left is the active one, and without one, or without room, XFER is idle. -/
theorem xferMovesNextWord : Obligations.XferMovesNextWord := by
  intro s turn fault
  rw [step_xfer turn fault]
  refine ⟨fun b before after running sub moved left room => ?_, fun h => xferTurn_idle ?_⟩
  · have active := XferState.active_of_first running sub moved left
    rw [xferTurn_moves (b := b) (by simpa using active) (by simpa using room)]
    simp [Buffer.nextAddr]
  · simpa [XferState.active_eq_none_iff, or_assoc] using h

/-! ### What the operations write (43_transfer_engine R222 to R226) -/

/-- A submission leaves each buffer where it lies. -/
theorem XferState.submit_descriptor (x : XferState) (b c : BufId) :
    ((x.submit b).buf c).addr = (x.buf c).addr ∧ ((x.submit b).buf c).len = (x.buf c).len := by
  obtain rfl | ne := eq_or_ne c b
  · simp
  · simp [x.submit_buf_of_ne b ne]

theorem State.raise_eq_with_fault (s : State) (c : FaultCode) : s.raise c = { s with fault := (s.raise c).fault } := by
  unfold State.raise
  split <;> rfl

/-- Settles O31: what each operation writes, read off its effect. -/
theorem hostOperationFrame : Obligations.HostOperationFrame := by
  intro i s t hi h
  cases exec_hostOp_next hi h with
  | fault i c => simpa using fun _ => s.raise_eq_with_fault c
  | blocked | isDone | nextSample | construct | claim => simp [Instr.mnemonic]
  | start b | readNext b =>
    exact ⟨fun _ => rfl, rfl, rfl, rfl, rfl, s.xfer.submit_len b, s.xfer.submit_descriptor b, .inl rfl,
      by simp [Instr.mnemonic], absurd rfl, absurd rfl⟩
  | reclaim => simp [Instr.mnemonic, XferState.buf]

/-! ### Ownership and STRANDED (43_transfer_engine R227, R228) -/

/-- What the host's turn can do to SUB. -/
theorem HostEffect.sub_cases (h : HostEffect s t) : t.xfer.sub = s.xfer.sub ∨
    (∃ b, (exec (.start b) s = .next t ∨ exec (.readNext b) s = .next t) ∧ s.xfer.owns b = false ∧
      t.xfer.sub = s.xfer.sub ++ [b]) ∨
    (exec .wait s = .next t ∧ s.xfer.done = true ∧ t.xfer.sub = s.xfer.sub.tail) := by
  cases h with
  | idle | fault | read | write | memWrite => exact .inl (by simp)
  | op i t hi hx =>
    cases exec_hostOp_next hi hx with
    | fault | blocked | isDone | nextSample | construct | claim => exact .inl (by simp)
    | start b sub => exact .inr (.inl ⟨b, .inl hx, by simp [XferState.owns, sub], rfl⟩)
    | readNext b a sub ne => exact .inr (.inl ⟨b, .inr hx, by simp [XferState.owns, sub, ne.symm], rfl⟩)
    | reclaim a rest sub done => exact .inr (.inr ⟨hx, by simpa [XferState.done, sub] using done, by simp [sub]⟩)
  | plainWrite v t hw => cases hw <;> exact .inl (by simp)

/-- Settles O32: XFER's turn and a sequencer cycle keep SUB, and the host's turn changes it as `HostEffect.sub_cases` says. -/
theorem ownershipMovesOnlyBySubmitAndWait : Obligations.OwnershipMovesOnlyBySubmitAndWait := by
  intro s t ht h changed
  obtain ⟨_, ⟨_, hx⟩ | ⟨turn, hx⟩ | ⟨_, _, hx⟩⟩ := step_cases ht h
  · exact absurd (by obtain rfl | ⟨_, _, _, rfl⟩ := xferTurn_next hx <;> simp) changed
  · exact ⟨turn, by simpa [changed] using (hostTurn_next hx).sub_cases⟩
  · exact absurd (by cases hx <;> simp) changed

/-- No access of the host clears STRANDED. -/
theorem HostEffect.keeps_stranded (h : HostEffect s t) (stranded : s.xfer.stranded = true) : t.xfer.stranded = true := by
  cases h with
  | idle | fault | read | write | memWrite => simpa using stranded
  | op i t hi hx => cases exec_hostOp_next hi hx <;> simp [stranded]
  | plainWrite v t hw => cases hw <;> simpa using stranded

/-- Settles O36: a stranded engine has no active buffer, so only a sequencer cycle changes Q, and that takes its head. -/
theorem strandedEngineMovesNothing : Obligations.StrandedEngineMovesNothing := by
  intro s t ht h stranded
  replace stranded : s.tick.xfer.stranded = true := by simpa using stranded
  obtain ⟨_, ⟨_, hx⟩ | ⟨_, hx⟩ | ⟨_, _, hx⟩⟩ := step_cases ht h
  · cases (xferTurn_idle (.inl (XferState.active_eq_none_iff.mpr (.inl stranded)))).symm.trans hx
    exact ⟨stranded, .inl s.tick_queue⟩
  · exact ⟨(hostTurn_next hx).keeps_stranded stranded, .inl (by simpa using (hostTurn_next hx).queue_eq)⟩
  · cases hx with
    | idle | fault => exact ⟨by simpa using stranded, .inl (by simp)⟩
    | cycle q qu en hq keep => exact ⟨stranded, by simpa using hq⟩

/-! ### The operations by their outcomes (43_transfer_engine R222 to R226) -/

/-- The host's own program does not depend on MOVED, SUB or STRANDED (log 4). A write completes as the read of the word
that the host has already. -/
theorem State.completeRead_with_xfer (s : State) (v : Word) (h : ∀ b, (x.buf b).addr = (s.xfer.buf b).addr) :
    { s with xfer := x }.completeRead v = { s with xfer := x, host := ⟨s.hostRest v, v⟩ } := by
  rw [State.completeRead, State.hostRest_congr (s := s) (u := { s with xfer := x }) v rfl h]

/-- Settles O25: the protocol breach, the failed check, and the submission. -/
theorem startOutcomes : Obligations.StartOutcomes := by
  refine fun b s => ⟨fun sub => if_pos sub, fun sub c check => ?_, fun sub check => ?_⟩ <;>
    simp only [exec, execStart, sub, check, ne_eq, not_true_eq_false, if_false]
  · exact raise_eq s c
  · exact ⟨_, rfl, s.completeRead_with_xfer _ fun c => (s.xfer.submit_descriptor b c).1, by simp [sub], by simp,
      s.xfer.submit_buf_of_ne b (BufId.other_ne b), by simp, by simp⟩

theorem execReadNext_breach (h : ∀ a, s.xfer.sub = [a] → a = b) : execReadNext b s = .next (s.raise .hostProtocol) := by
  unfold execReadNext
  split
  · next a sub => rw [if_pos (h a sub), raise_eq]
  · exact raise_eq s _

/-- Settles O26: the breach of the protocol, the failed check, and the submission behind the head. -/
theorem readNextOutcomes : Obligations.ReadNextOutcomes := by
  refine fun b s => ⟨fun len => execReadNext_breach fun a sub => absurd (by simp [sub]) len,
    fun own => execReadNext_breach fun a sub => by simpa [own] using sub.symm,
    fun a sub ne c check => ?_, fun a sub ne check => ?_⟩ <;>
    simp only [exec, execReadNext, sub, if_neg ne, check]
  · exact raise_eq s c
  · exact ⟨_, rfl, s.completeRead_with_xfer _ fun c => (s.xfer.submit_descriptor b c).1, by simp [sub],
      s.xfer.submit_buf_same b, s.xfer.submit_buf_of_ne b ne, by simp, by simp [XferState.finished]⟩

theorem waitWord_eq (a : BufId) : waitWord a = 0x80000000#32 + (if a = .one then 1 else 0) := by
  cases a <;> rfl

/-- Settles O27: WAIT by its handle and by whether the head is finished. -/
theorem waitOutcomes : Obligations.WaitOutcomes := by
  refine fun s => ⟨fun sub => ?_, fun a rest sub left => ?_, fun a rest sub moved => ⟨_, waitWord_eq a, ?_⟩⟩ <;>
    simp only [exec, execWait, sub]
  · exact raise_eq s _
  · exact if_neg (by simp [XferState.finished, left])
  · rw [if_pos (by simp [XferState.finished, moved])]
    exact congrArg Host.Outcome.next (s.completeRead_with_xfer _ fun _ => rfl)

/-- Settles O28: bit 0 of XF_STATUS is DONE. -/
theorem isDoneCompletes : Obligations.IsDoneCompletes := fun s =>
  ⟨s.xfer.statusWord, rfl, by rw [XferState.getLsbD_statusWord]; exact s.xfer.done_iff⟩

end Sys2Proof.Machine

/-! The control loop (44_control_loop R270). A submitted buffer that is finished stays finished, whichever agent steps: the
host may not write it, and XFER moves words of unfinished buffers alone. The head is one such buffer. -/

namespace Sys2Proof.Machine

variable {s t : State} {x : XferState} {b : BufId}

/-- The host's turn leaves a submitted buffer and XF_LEN as they are. -/
theorem HostEffect.keeps_submitted_buffer (h : HostEffect s t) (submitted : b ∈ s.xfer.sub) :
    t.xfer.buf b = s.xfer.buf b ∧ t.xfer.len = s.xfer.len := by
  cases h with
  | idle | fault | read | write | memWrite => simp
  | op i t hi hx =>
    cases exec_hostOp_next hi hx with
    | fault | blocked | isDone | nextSample | construct | claim => simp
    | start b' sub => simp [sub] at submitted
    | readNext b' a sub ne =>
      obtain rfl : b = a := by simpa [sub] using submitted
      exact ⟨s.xfer.submit_buf_of_ne b' ne, s.xfer.submit_len b'⟩
    | reclaim => exact ⟨rfl, rfl⟩
  | plainWrite v t hw =>
    cases hw with
    | fault | seqCtrl | seqConfig | waveConfig | ignored => simp
    | xfLen sub => simp [sub] at submitted
    | buffer b' u owned =>
      have ne : b ≠ b' := by rintro rfl; simp [XferState.owns, submitted] at owned
      exact ⟨s.xfer.buf_setBuf_of_ne b' u ne, s.xfer.setBuf_len b' u⟩

/-- XFER's turn leaves a finished buffer as it is: the active buffer, which it moves, has words left. -/
theorem xferTurn_keeps_finished (h : xferTurn s = .next t) (finished : s.xfer.finished b = true) :
    t.xfer.finished b = true := by
  obtain rfl | ⟨c, active, _, rfl⟩ := xferTurn_next h
  · exact finished
  · obtain ⟨_, _, left⟩ := XferState.active_some active
    have ne : b ≠ c := by rintro rfl; exact left.ne (of_decide_eq_true finished)
    exact (XferState.finished_congr (s.xfer.buf_setBuf_of_ne c _ ne) (s.xfer.setBuf_len c _)).trans finished

/-- No step but a reset takes a submitted buffer's completion back. -/
theorem step_keeps_finished (ht : s.turn ≠ .reset) (h : step s = .next t) (submitted : b ∈ s.xfer.sub)
    (finished : s.xfer.finished b = true) : t.xfer.finished b = true := by
  obtain ⟨_, ⟨_, hx⟩ | ⟨_, hx⟩ | ⟨_, _, hx⟩⟩ := step_cases ht h
  · exact xferTurn_keeps_finished hx (by simpa using finished)
  · obtain ⟨buf, len⟩ := (hostTurn_next hx).keeps_submitted_buffer (b := b) (by simpa using submitted)
    exact (XferState.finished_congr buf len).trans (by simpa using finished)
  · cases hx <;> simpa using finished

theorem XferState.done_iff_head_finished : x.done = true ↔ ∃ b, x.sub.head? = some b ∧ x.finished b = true := by
  unfold XferState.done
  split <;> simp [*]

/-- Settles O35: DONE says that the head is finished, and the same head stays finished. -/
theorem doneStaysWhileHeadStays : Obligations.DoneStaysWhileHeadStays := by
  intro s t ht h done same
  obtain ⟨b, head, finished⟩ := XferState.done_iff_head_finished.mp done
  exact XferState.done_iff_head_finished.mpr
    ⟨b, same.trans head, step_keeps_finished ht h (List.mem_of_head? head) finished⟩

end Sys2Proof.Machine

/-! Exceptions (60_exceptions R301 to R303). Each effect of a turn either is a raise, of the state as it stood, or leaves
FAULT alone; while FAULT is set there are no turns but reset. -/

namespace Sys2Proof.Machine

variable {s t : State}

/-! ### What a step does to FAULT (60_exceptions R301) -/

/-- The host's turn raises a fault or leaves FAULT alone. -/
theorem HostEffect.fault_cases (h : HostEffect s t) : t.fault = s.fault ∨ ∃ c, t = s.raise c := by
  cases h with
  | fault c => exact .inr ⟨c, rfl⟩
  | idle | read | write | memWrite => exact .inl (by simp)
  | op i t hi hx =>
    cases exec_hostOp_next hi hx with
    | fault i c => exact .inr ⟨c, rfl⟩
    | blocked | start | readNext | isDone | reclaim | nextSample | construct | claim => exact .inl (by simp)
  | plainWrite v t hw =>
    cases hw with
    | fault c => exact .inr ⟨c, rfl⟩
    | seqCtrl | seqConfig | xfLen | buffer | waveConfig | ignored => exact .inl (by simp)

/-- Every step that is no reset raises a fault and does nothing else, or leaves FAULT alone. -/
theorem step_fault_cases (ht : s.turn ≠ .reset) (h : step s = .next t) :
    t.fault = s.fault ∨ ∃ c, t = s.tick.raise c := by
  obtain ⟨_, ⟨_, hx⟩ | ⟨_, hx⟩ | ⟨_, _, hx⟩⟩ := step_cases ht h
  · obtain rfl | ⟨_, _, _, rfl⟩ := xferTurn_next hx <;> exact .inl s.tick_fault
  · simpa using (hostTurn_next hx).fault_cases
  · cases hx with
    | fault c => exact .inr ⟨c, rfl⟩
    | idle | cycle => exact .inl s.tick_fault

/-- Settles O13: a step that leaves FAULT alone records no fault, and a raise writes its own code over none. -/
theorem faultingStepWritesOnlyFault : Obligations.FaultingStepWritesOnlyFault := by
  intro s t c fault ht h recorded
  obtain same | ⟨d, rfl⟩ := step_fault_cases ht h
  · simp [same, fault] at recorded
  · obtain rfl : d = c := by simpa [fault] using recorded
    exact s.tick.raise_of_none d (s.tick_fault.trans fault)

/-! ### The fetch of an unwritten slot (60_exceptions R303) -/

theorem seqCycle_unwritten (dly : s.seq.dly = 0) (slot : s.seq.slot s.seq.pc = none) :
    seqCycle s = .next (s.raise .unwrittenImem) := by
  simp [seqCycle, dly, slot]

/-- Settles O12: the cycle of a running SEQ with no delay pending is the fetch, which raises. -/
theorem unwrittenSlotFaults : Obligations.UnwrittenSlotFaults := by
  intro s turn fault en dly slot
  rw [step_seq_running turn fault en, seqCycle_unwritten (by simpa using dly) (by simpa using slot),
    State.raise_of_none _ _ (s.tick_fault.trans fault)]

/-! ### A recorded fault (60_exceptions R302) -/

theorem step_of_fault {c : FaultCode} (turn : s.turn ≠ .reset) (fault : s.fault = some c) :
    step s = .fault (.recorded c) := by
  simp [step, turn, fault]

theorem step_reset (turn : s.turn = .reset) : step s = .next s.tick.powerOnReset := if_pos turn

/-- Settles O14: a recorded fault answers every turn but reset, and reset launches the block with FAULT = none. -/
theorem recordedFaultIsTerminal : Obligations.RecordedFaultIsTerminal := fun s _ fault =>
  ⟨fun turn => step_of_fault turn fault, fun turn => ⟨_, step_reset turn, s.tick.powerOnReset_fault⟩⟩

end Sys2Proof.Machine

/-! Reset and the quiescent state (70_reset R340, R341, R364). Reset is a turn of every state. In a quiescent state each
agent's turn is idle, and taking the turn off the schedule leaves the state quiescent. -/

namespace Sys2Proof.Machine

variable {s : State}

/-! ### Power-on reset (70_reset R340, R341) -/

/-- Settles O8: the reset turn is the launch of the block over the memory as it stands. -/
theorem resetFromAnyState : Obligations.ResetFromAnyState := fun s turn =>
  ⟨s.tick.powerOnReset, step_reset turn, rfl, rfl, rfl, rfl, rfl, fun a => by simp⟩

/-! ### The quiescent state (70_reset R364, point 3) -/

theorem seqTurn_idle (h : s.seq.en = false ∨ s.seqStalled) : seqTurn s = .next s := by
  unfold seqTurn
  split
  · next en => exact seqCycle_stalled (h.resolve_left (by simp [en]))
  · rfl

theorem hostTurn_idle (done : s.host.prog = []) : hostTurn s = .next s := by
  simp [hostTurn, done]

@[simp] theorem State.quiescent_tick (s : State) : s.tick.quiescent ↔ s.quiescent := by
  simp only [State.quiescent, State.seqStalled_tick, State.tick_seq, State.tick_xfer, State.tick_host]

/-- The clock is left out: in the timed reading it counts on while SEQ is stalled. -/
theorem agentTurn_of_quiescent {turn : Config.Turn} (quiet : s.quiescent)
    (agent : turn = .seq ∨ turn = .xfer ∨ turn = .host) : agentTurn turn s = .next s := by
  obtain ⟨seq, xfer, host⟩ := quiet
  obtain rfl | rfl | rfl := agent
  · exact seqTurn_idle seq
  · exact xferTurn_idle (.inl xfer)
  · exact hostTurn_idle host

/-- Settles O60: the ticked state is quiescent too, so the turn that it takes is idle. -/
theorem quiescentStateStays : Obligations.QuiescentStateStays := by
  intro s quiet fault agent
  have notReset : s.turn ≠ .reset := by obtain h | h | h := agent <;> simp [h]
  rw [step_of_turn notReset fault, agentTurn_of_quiescent (s.quiescent_tick.mpr quiet) agent]

end Sys2Proof.Machine
